-- ==== Sys2Proof/Word.lean ====
section
/-! DEFINITION. The word types of MDRM (00_scope.md R10): `uN` is `BitVec N`. -/

namespace Sys2Proof

/-- u8: an address tag, a status, a percentage. -/
abbrev Byte := BitVec 8

/-- u16: a milliamp or microstep count, an immediate. -/
abbrev Half := BitVec 16

/-- u32: a command word, an argument word, a raw register value. -/
abbrev Word := BitVec 32

end Sys2Proof
end

