-- ==== Sys2Proof/Config.lean ====
section
/-! DEFINITION. The parameters of 00_scope.md R9 that fix the machine's shape, and the free values: what the bus
transport and the chip answer (R66), which nothing in Lean can evaluate. -/

namespace Sys2Proof

namespace Config

/-- `HAS_EXT` (R9, D6): the optional registers are in the shadow file. -/
def hasExt : Bool := true

/-- `NSLOT` (R9): 31, the value for `HAS_EXT = true`. -/
abbrev nslot : Nat := 31

/-- The number of instances of `State.reset`. `NUM_INST` is OPEN (R9, D34): a state holds any number.
DESIGN CHOICE (log 4), unsafe only for a claim about `State.reset` that counts instances. -/
def resetInstances : Nat := 2

end Config

/-- The kind of a bus transaction (20_memory.md R64). -/
inductive BusKind where
  | R
  | W
deriving DecidableEq, Repr

/-- What an instance asks of the transport (R62, R63): `data` is the value written, 0 for a read. -/
structure BusReq where
  inst : Nat
  kind : BusKind
  addr : Byte
  data : Word
deriving DecidableEq, Repr

/-- What the transport answers: the value of a read (without meaning for a write) and the status (R62). -/
structure BusAnswer where
  value : Word
  status : Byte
deriving DecidableEq, Repr

/-- One event of the bus history (R64): `value` is the value written, or the value the read returned. -/
structure BusEvent where
  inst : Nat
  kind : BusKind
  addr : Byte
  value : Word
  st : Byte
deriving DecidableEq, Repr

namespace Config

/-- FREE VALUE (R66, log 5): the value a read returns. It may depend on the number of the draw, on all earlier
transactions and on the request, so no claim can tie one answer to another. Safe. -/
opaque busValue : Nat → List BusEvent → BusReq → Word

/-- FREE VALUE (R65, R66, log 5): the status of a transaction. Safe. -/
opaque busStatus : Nat → List BusEvent → BusReq → Byte

end Config

end Sys2Proof
end

