-- ==== Sys2Proof/Machine/State.lean ====
section
/-! DEFINITION. The state of MDRM (10_state.md), as plain data, and the state after reset (70_reset_and_hazards.md R300). -/

namespace Sys2Proof.Machine

/-- A slot number of the shadow file (R23). -/
abbrev Slot := Fin Config.nslot

/-- One datagram of the shadow file (R23): the address tag and the raw value. -/
structure Datagram where
  addr : Byte
  value : Word
deriving DecidableEq, Repr

/-- The configuration scalars (R34). -/
structure Cfg where
  fClk : Word
  rSense : Half
  coolstepEn : BitVec 1
  current : Half
  holdPct : Byte
  microsteps : Half
deriving DecidableEq, Repr

/-- What an instance holds once LOAD_DEFAULTS has run: the shadow file (R23) and the scalars (R34). -/
structure RegFile where
  sh : Vector Datagram Config.nslot
  cfg : Cfg
deriving DecidableEq, Repr

/-- The states of the init/verify FSM (40_init.md R121). Codes 20 to 31 are never used. -/
inductive InitState where
  | idle
  | chkIo
  | rdDrvStatus
  | chkPresent
  | rdGstat
  | setMres
  | wrGconf
  | wrChopconf
  | wrCoolconf
  | wrPwmconf
  | wrIholdIrun
  | wrTpowerdown
  | wrTpwmthrs
  | scCompute
  | scWrChopconf
  | scWrIholdIrun
  | vfRead
  | vfCompare
  | doneOk
  | doneFail
deriving DecidableEq, Repr

/-- One MDRM instance (R21). -/
structure Instance where
  /-- The shadow file and `CFG`. `none` is the spec's own state `LOADED = 0`, in which they hold no value
  (R22, 70 R301; log 7). -/
  file : Option RegFile
  cmd : Word
  arg0 : Word
  arg1 : Word
  result : Word
  cmdstat : Byte
  busstat : Byte
  /-- `INIT_STATE` (R47), hidden. -/
  initState : InitState
  /-- `SAVED_CHOPCONF` (R47), hidden. -/
  savedChopconf : Word
deriving DecidableEq, Repr

/-- The map `M` of the simulator ECHO_CHIP (20_memory.md R68): (address, value) pairs, addresses strictly rising, no
value 0; an unlisted address holds 0. -/
abbrev Memory := List (Nat × Word)

/-- The agent behind the bus-master port (R7, R66, R68; log 6). -/
inductive Chip where
  /-- The unconstrained oracle: every answer is a free value of Config. -/
  | free
  /-- An oracle whose next answers are given; after them it is `free`. -/
  | scripted (answers : List BusAnswer)
  /-- ECHO_CHIP, with its map. -/
  | echo (mem : Memory)
  /-- ECHO_CHIP_STUCK(k). -/
  | stuck (k : Word)
deriving DecidableEq, Repr

/-- One host write to the command port of an instance (10_state.md R41, 30_encoding.md R93). -/
inductive HostWrite where
  | arg0 (inst : Nat) (w : Word)
  | arg1 (inst : Nat) (w : Word)
  | cmd (inst : Nat) (w : Word)
deriving DecidableEq, Repr

/-- The state of the whole block. -/
structure State where
  /-- `IO_INSTALLED` (R20), shared by every instance. -/
  ioInstalled : Bool
  /-- The instances 0 to `NUM_INST - 1` (R21, 60 R283). -/
  insts : List Instance
  /-- The model's own: the instance whose `CMD` was written last, the issuer of the running command (log 2). -/
  cur : Nat
  /-- The bus history (R64), oldest first. -/
  history : List BusEvent
  /-- The agent behind the bus-master port (log 6). -/
  chip : Chip
  /-- The model's own: how many answers the oracle has given (log 5). -/
  draws : Nat
  /-- The model's own: the host's writes still to come, the next one first (log 1). -/
  host : List HostWrite
deriving DecidableEq, Repr

/-- How the machine stops: the fault records of 60_exceptions.md R262, `(inst, code, CMD)`. Every one is raised before its
command has any effect (R263), and every one is safe: the spec ends the run there too. -/
inductive Fault where
  /-- Code 1, raised by every command but LOAD_DEFAULTS, IF_INIT and MSTEPS_VALID when `LOADED = 0`. Safe. -/
  | notLoaded (inst : Nat) (cmd : Word)
  /-- Code 2, raised by the nine commands of `IO_CMDS` (R270) when `IO_INSTALLED = 0`. Safe. -/
  | ioNotInstalled (inst : Nat) (cmd : Word)
  /-- Code 3, raised by IF_INIT when `IO_INSTALLED = 1` (R115). Safe. -/
  | ioReinstall (inst : Nat) (cmd : Word)
  /-- Code 4, raised by SET_CURRENT for a hold percentage above 100 (R144). Safe. -/
  | holdPctRange (inst : Nat) (cmd : Word)
  /-- Code 5, raised by SET_HYBRID_THRS, SET_TPWMTHRS and GET_TPWMTHRS for a zero divisor (R180, R184). Safe. -/
  | divZero (inst : Nat) (cmd : Word)
  /-- Code 6, raised by SET_HYBRID_THRS, SET_TPWMTHRS and GET_TPWMTHRS for a result too wide (R180, R184). Safe. -/
  | range (inst : Nat) (cmd : Word)
deriving DecidableEq, Repr

/-- Why the model gives a step no meaning. -/
inductive Refusal where
  /-- Raised by an arm of `exec` whose instruction has no meaning yet. Safe. -/
  | notModelled (mnemonic : String)
  /-- Raised by a host write to, or a command on, an instance number that does not exist (R283; log 3). Safe. -/
  | noSuchInstance (inst : Nat)
deriving DecidableEq, Repr

/-- One instance after reset (R300, R301). -/
def Instance.reset : Instance where
  file := none
  cmd := 0
  arg0 := 0
  arg1 := 0
  result := 0
  cmdstat := 0
  busstat := 0
  initState := .idle
  savedChopconf := 0

/-- Reset (R300) of a block with `n` instances and the agent `chip` behind the bus. -/
def State.resetWith (n : Nat) (chip : Chip) : State where
  ioInstalled := false
  insts := List.replicate n Instance.reset
  cur := 0
  history := []
  chip := chip
  draws := 0
  host := []

/-- The machine right after reset (R300): `NUM_INST` is the model's choice here (log 4), the oracle unconstrained. -/
def State.reset : State := State.resetWith Config.resetInstances .free

end Sys2Proof.Machine
end

