-- ==== Sys2Proof/Machine/Operands.lean ====
section
/-! DEFINITION. Bit fields and the arithmetic of 00_scope.md R10 and R11, and the operand forms: selectors (R87) and the
fields of the argument words (R83, R85, R86). -/

namespace Sys2Proof.Machine

/-- A field `[lo + width - 1 : lo]` of a word. -/
structure BitField where
  lo : Nat
  width : Nat
deriving DecidableEq, Repr

/-- R10: `v[hi:lo]` as an unsigned number. -/
def getField (b : BitField) (v : Word) : Nat := v.toNat >>> b.lo % 2 ^ b.width

/-- The bits of the field. -/
def fieldMask (b : BitField) : Word := BitVec.ofNat 32 ((2 ^ b.width - 1) <<< b.lo)

/-- R10: `v[hi:lo] <- x`, the field replaced by `x mod 2^width` and every other bit kept. -/
def putField (b : BitField) (v : Word) (x : Nat) : Word :=
  (v &&& ~~~(fieldMask b)) ||| BitVec.ofNat 32 ((x % 2 ^ b.width) <<< b.lo)

/-- The integer square root by base-4 digits; the first argument bounds the number of digits of the second. -/
def isqrtDigits (digits : Nat) (x : Nat) : Nat :=
  match digits with
  | 0 => 0
  | d + 1 =>
    let r := 2 * isqrtDigits d (x / 4)
    if (r + 1) * (r + 1) ≤ x then r + 1 else r

/-- R11: `isqrt(x)`, the largest `r` with `r * r ≤ x`. -/
def isqrt (x : Nat) : Nat := isqrtDigits (x.log2 / 2 + 1) x

/-- R11: `clamp(x, lo, hi) = min(max(x, lo), hi)`. -/
def clamp (x lo hi : Int) : Int := min (max x lo) hi

/-- R87: the slot a selector names, if it is below `NSLOT`. -/
def slotOfSel (sel : BitVec 5) : Option Slot :=
  if h : sel.toNat < Config.nslot then some ⟨sel.toNat, h⟩ else none

/-- The configuration scalars by id (R34). -/
inductive CfgId where
  | fClk
  | rSense
  | coolstepEn
  | current
  | holdPct
  | microsteps
deriving DecidableEq, Repr

/-- R34, R87: the scalar a selector names, if it is at most 5. -/
def cfgIdOfSel (sel : BitVec 5) : Option CfgId :=
  match sel.toNat with
  | 0 => some .fClk
  | 1 => some .rSense
  | 2 => some .coolstepEn
  | 3 => some .current
  | 4 => some .holdPct
  | 5 => some .microsteps
  | _ => none

/-- R83: `targetMilliamps = ARG0[15:0]`. -/
def argMilliamps (arg0 : Word) : Half := arg0.extractLsb' 0 16

/-- R83: `holdPercent = ARG0[23:16]`. -/
def argHoldPercent (arg0 : Word) : Byte := arg0.extractLsb' 16 8

/-- R83: `offTime = ARG0[7:0]`. -/
def argOffTime (arg0 : Word) : Nat := (arg0.extractLsb' 0 8).toNat

/-- R83: `blankTime = ARG0[15:8]`. -/
def argBlankTime (arg0 : Word) : Nat := (arg0.extractLsb' 8 8).toNat

/-- R83: `fastDecayTime = ARG0[23:16]`. -/
def argFastDecay (arg0 : Word) : Nat := (arg0.extractLsb' 16 8).toNat

/-- R83, R85: `sineWaveOffset = sext_32(ARG0[31:24])`, in [-128, 127]. -/
def argSineOffset (arg0 : Word) : Int := (arg0.extractLsb' 24 8).toInt

/-- R83, R85: `useCurrentComparator = ARG1[0]`. -/
def argComparator (arg1 : Word) : Nat := (arg1.extractLsb' 0 1).toNat

end Sys2Proof.Machine
end

