-- ==== Sys2Proof/Machine/Layout.lean ====
section
/-! DEFINITION. The tables of 10_state.md: the slots (R24 to R26), `REG_ADDR` and the default values (R25, R36), `LAYOUT` (R30
to R32). Addresses and bit positions are the spec's, which takes them from general knowledge (logs 8 and 9). -/

namespace Sys2Proof.Machine

/-! Slots by register name (R25). -/

def slotGconf : Slot := 0
def slotGstat : Slot := 1
def slotIholdIrun : Slot := 3
def slotTpowerdown : Slot := 4
def slotTpwmthrs : Slot := 6
def slotChopconf : Slot := 12
def slotCoolconf : Slot := 13
def slotDrvStatus : Slot := 15
def slotPwmconf : Slot := 16
/-- The sentinel of the address lookup (R16, R236). -/
def slotLostSteps : Slot := 18

/-- `REG_ADDR`: the ADDR column of R25. -/
def regAddr : Vector Byte Config.nslot :=
  #v[0x00, 0x01, 0x04, 0x10, 0x11, 0x12, 0x13, 0x14, 0x15, 0x33, 0x6A, 0x6B, 0x6C, 0x6D, 0x6E, 0x6F,
     0x70, 0x71, 0x73, 0x2D, 0x60, 0x61, 0x62, 0x63, 0x64, 0x65, 0x66, 0x67, 0x68, 0x69, 0x72]

/-- The default column of R25. -/
def defaultValue : Vector Word Config.nslot :=
  #v[0x00000004, 0, 0, 0x00061008, 0x00000080, 0, 0, 0, 0, 0, 0, 0, 0x140100C3, 0, 0, 0,
     0x00050480, 0, 0, 0, 0, 0, 0, 0, 0, 0, 0, 0, 0, 0, 0]

/-- `DEFAULT_CFG` (R36). -/
def defaultCfg : Cfg where
  fClk := 12000000
  rSense := 110
  coolstepEn := 0
  current := 500
  holdPct := 50
  microsteps := 16

/-! CHOPCONF fields (R30). -/

def chopToff : BitField := ⟨0, 4⟩
def chopHstrt : BitField := ⟨4, 3⟩
def chopHend : BitField := ⟨7, 4⟩
def chopFd3 : BitField := ⟨11, 1⟩
def chopDisfdcc : BitField := ⟨12, 1⟩
def chopRndtf : BitField := ⟨13, 1⟩
def chopChm : BitField := ⟨14, 1⟩
def chopTbl : BitField := ⟨15, 2⟩
def chopVsense : BitField := ⟨17, 1⟩
def chopVhighfs : BitField := ⟨18, 1⟩
def chopVhighchm : BitField := ⟨19, 1⟩
def chopSync : BitField := ⟨20, 4⟩
def chopMres : BitField := ⟨24, 4⟩
def chopIntpol : BitField := ⟨28, 1⟩
def chopDedge : BitField := ⟨29, 1⟩
def chopDiss2g : BitField := ⟨30, 1⟩
def chopReserved : BitField := ⟨31, 1⟩

/-! IHOLD_IRUN fields (R31). -/

def ihIhold : BitField := ⟨0, 5⟩
def ihIrun : BitField := ⟨8, 5⟩
def ihIholddelay : BitField := ⟨16, 4⟩

/-- TPWMTHRS field (R32). -/
def tpTpwmthrs : BitField := ⟨0, 20⟩

end Sys2Proof.Machine
end

