-- ==== Sys2Proof/Machine/Flags.lean ====
section
/-! DEFINITION. The status values MDRM reports and the conditions it tests: `CMDSTAT` (10_state.md R44), a comparison as a
word (00_scope.md R11), the presence test (40_init.md R122), the codes of `INIT_STATE` (R121) and of the faults (R262). -/

namespace Sys2Proof.Machine

/-- R44: `CMDSTAT` after a completed command. -/
def cmdstatOk : Byte := 0x00

/-- R44: `CMDSTAT` after a rejected command. -/
def cmdstatIllegal : Byte := 0x01

/-- R11: a comparison gives 1 when true and 0 when false. -/
def flagWord (b : Bool) : Word := if b then 1 else 0

/-- R122: the chip is taken as absent exactly when the DRV_STATUS value read is all zeros or all ones. -/
def chipAbsent (v : Word) : Bool := v == 0x00000000 || v == 0xFFFFFFFF

/-- R22: the bit `LOADED` of an instance. -/
def Instance.loaded (x : Instance) : Bool := x.file.isSome

/-- R121: the 5-bit code of an FSM state. -/
def InitState.code (c : InitState) : BitVec 5 :=
  match c with
  | .idle => 0
  | .chkIo => 1
  | .rdDrvStatus => 2
  | .chkPresent => 3
  | .rdGstat => 4
  | .setMres => 5
  | .wrGconf => 6
  | .wrChopconf => 7
  | .wrCoolconf => 8
  | .wrPwmconf => 9
  | .wrIholdIrun => 10
  | .wrTpowerdown => 11
  | .wrTpwmthrs => 12
  | .scCompute => 13
  | .scWrChopconf => 14
  | .scWrIholdIrun => 15
  | .vfRead => 16
  | .vfCompare => 17
  | .doneOk => 18
  | .doneFail => 19

/-- R262: the code of a fault. -/
def Fault.code (r : Fault) : Nat :=
  match r with
  | .notLoaded _ _ => 1
  | .ioNotInstalled _ _ => 2
  | .ioReinstall _ _ => 3
  | .holdPctRange _ _ => 4
  | .divZero _ _ => 5
  | .range _ _ => 6

/-- R262: the fault record `(inst, code, CMD)`. -/
def Fault.record (r : Fault) : Nat × Nat × Word :=
  match r with
  | .notLoaded k w => (k, r.code, w)
  | .ioNotInstalled k w => (k, r.code, w)
  | .ioReinstall k w => (k, r.code, w)
  | .holdPctRange k w => (k, r.code, w)
  | .divZero k w => (k, r.code, w)
  | .range k w => (k, r.code, w)

end Sys2Proof.Machine
end

