-- ==== Sys2Proof/Machine/Ops.lean ====
section
/-! DEFINITION. The named operations over the state: the register file of an instance, the bus transactions (20_memory.md R62 to
R68), the outcomes of a command (00_scope.md R14) and the common checks (60_exceptions.md R270). MDRM has no exception entry
and no return (R276, R277): `raise` is how a fault ends the run. -/

namespace Sys2Proof.Machine

/-- What a command answers. -/
abbrev Out := Host.Outcome State Fault Refusal

/-! ## The register file -/

/-- `SH[i].ADDR`. -/
def RegFile.addr (f : RegFile) (i : Slot) : Byte := f.sh[i].addr

/-- `SH[i].VALUE`. -/
def RegFile.value (f : RegFile) (i : Slot) : Word := f.sh[i].value

/-- `SH[i].VALUE <- v`; the address tag is kept (R27). -/
def RegFile.setValue (f : RegFile) (i : Slot) (v : Word) : RegFile :=
  { f with sh := f.sh.set i { f.sh[i] with value := v } }

/-- `REG.field` (R12, R29). -/
def RegFile.field (f : RegFile) (i : Slot) (b : BitField) : Nat := getField b (f.value i)

/-- `REG.field <- x` (R10, R29). -/
def RegFile.setField (f : RegFile) (i : Slot) (b : BitField) (x : Nat) : RegFile :=
  f.setValue i (putField b (f.value i) x)

/-- `CFG[id]`, zero-extended (R246). -/
def Cfg.read (c : Cfg) (id : CfgId) : Word :=
  match id with
  | .fClk => c.fClk
  | .rSense => c.rSense.setWidth 32
  | .coolstepEn => c.coolstepEn.setWidth 32
  | .current => c.current.setWidth 32
  | .holdPct => c.holdPct.setWidth 32
  | .microsteps => c.microsteps.setWidth 32

/-- `CFG[id] <- v`, if the scalar can hold `v` and the id may be written (R248). -/
def Cfg.write (c : Cfg) (id : CfgId) (v : Word) : Option Cfg :=
  match id with
  | .fClk => some { c with fClk := v }
  | .rSense => if v.toNat > 0xFFFF then none else some { c with rSense := v.setWidth 16 }
  | .coolstepEn => if v.toNat > 1 then none else some { c with coolstepEn := v.setWidth 1 }
  | .current => if v.toNat > 0xFFFF then none else some { c with current := v.setWidth 16 }
  | .holdPct => if v.toNat > 100 then none else some { c with holdPct := v.setWidth 8 }
  | .microsteps => none

/-! ## The current instance -/

/-- The instance that issued the running command; `Instance.reset` where the number names none, which no command reaches
(`withInst` refuses first). -/
def State.me (s : State) : Instance := (s.insts[s.cur]?).getD Instance.reset

/-- The issuing instance changed by `g`; nothing else changes (R21, R283). -/
def State.updMe (s : State) (g : Instance → Instance) : State :=
  { s with insts := s.insts.set s.cur (g s.me) }

/-- The issuing instance's register file replaced. -/
def State.setFile (s : State) (f : RegFile) : State := s.updMe fun x => { x with file := some f }

/-- `INIT_STATE <- c` (R14, R47). -/
def State.goto (s : State) (c : InitState) : State := s.updMe fun x => { x with initState := c }

/-- `complete(r)` (R14): `RESULT <- r`, `CMDSTAT <- 0x00`. -/
def State.complete (s : State) (r : Word) : State :=
  s.updMe fun x => { x with result := r, cmdstat := cmdstatOk }

/-- `reject ILLEGAL` (R14, R90): `CMDSTAT <- 0x01` and nothing else. -/
def State.rejectIllegal (s : State) : State := s.updMe fun x => { x with cmdstat := cmdstatIllegal }

/-- `raise Fault(code)` (R14, R262): the run ends with the record of the issuing instance and its command word. -/
def State.raise (s : State) (r : Nat → Word → Fault) : Out := .fault (r s.cur s.me.cmd)

/-! ## The chip's simulators (R68) -/

/-- `M[a]`; an unlisted address holds 0. -/
def Memory.read (m : Memory) (a : Nat) : Word :=
  match m with
  | [] => 0
  | (k, v) :: m => if k = a then v else Memory.read m a

/-- A pair in front of a map, unless the value is what an unlisted address holds. -/
def Memory.cons (a : Nat) (v : Word) (m : Memory) : Memory := if v = 0 then m else (a, v) :: m

/-- `M[a] <- v`, in canonical form. -/
def Memory.write (m : Memory) (a : Nat) (v : Word) : Memory :=
  match m with
  | [] => Memory.cons a v []
  | (k, u) :: m =>
    if a < k then Memory.cons a v ((k, u) :: m)
    else if a = k then Memory.cons a v m
    else (k, u) :: Memory.write m a v

/-- Every address of the map is above `lo`, rising, and no value is 0. -/
def Memory.risingAbove (lo : Nat) (m : Memory) : Bool :=
  match m with
  | [] => true
  | (k, v) :: m => decide (lo < k) && v != 0 && Memory.risingAbove k m

/-- The canonical form of a map. -/
def Memory.wf (m : Memory) : Bool :=
  match m with
  | [] => true
  | (k, v) :: m => v != 0 && Memory.risingAbove k m

/-- ECHO_CHIP(drv) at the start: DRV_STATUS holds `drv`, GSTAT has its reset flag set. -/
def Chip.echoChip (drv : Word) : Chip := .echo (Memory.write (Memory.write [] 0x6F drv) 0x01 1)

/-- A draw of the unconstrained oracle (R66). -/
def freeAnswer (n : Nat) (h : List BusEvent) (q : BusReq) : BusAnswer :=
  ⟨Config.busValue n h q, Config.busStatus n h q⟩

/-- What the agent behind the bus answers to a request, `n` being the number of the draw and `h` the history. -/
def Chip.answer (c : Chip) (n : Nat) (h : List BusEvent) (q : BusReq) : BusAnswer :=
  match c with
  | .free => freeAnswer n h q
  | .scripted l => l.head?.getD (freeAnswer n h q)
  | .echo m => ⟨Memory.read m q.addr.toNat, 0x00⟩
  | .stuck k => ⟨k, 0x00⟩

/-- The agent behind the bus after a request. ECHO_CHIP stores a write, and a read of GSTAT clears it. -/
def Chip.after (c : Chip) (q : BusReq) : Chip :=
  match c with
  | .free => .free
  | .scripted l => .scripted l.tail
  | .echo m =>
    match q.kind with
    | .W => .echo (Memory.write m q.addr.toNat q.data)
    | .R => .echo (if q.addr = 0x01 then Memory.write m 0x01 0 else m)
  | .stuck k => .stuck k

/-! ## Bus transactions (R62 to R67) -/

/-- The answer the issuing instance's next transaction gets. -/
def State.answer (s : State) (kind : BusKind) (a : Byte) (data : Word) : BusAnswer :=
  s.chip.answer s.draws s.history ⟨s.cur, kind, a, data⟩

/-- The state after one transaction whose event carries the value `v`: one event more in the history (R64), its status in
`BUSSTAT` (R45). -/
def State.afterBus (s : State) (kind : BusKind) (a : Byte) (data v : Word) : State :=
  State.updMe
    { s with
      chip := s.chip.after ⟨s.cur, kind, a, data⟩
      draws := s.draws + 1
      history := s.history ++ [⟨s.cur, kind, a, v, (s.answer kind a data).status⟩] }
    fun x => { x with busstat := (s.answer kind a data).status }

/-- `BusRead(a)`: the value it returns. -/
def State.readValue (s : State) (a : Byte) : Word := (s.answer .R a 0).value

/-- `BusRead(a)`: the status it returns. -/
def State.readStatus (s : State) (a : Byte) : Byte := (s.answer .R a 0).status

/-- `BusRead(a)` with `BUSSTAT <- st`: the state after it. -/
def State.afterRead (s : State) (a : Byte) : State := s.afterBus .R a 0 (s.readValue a)

/-- `BusWrite(a, v)`: the status it returns. -/
def State.writeStatus (s : State) (a : Byte) (v : Word) : Byte := (s.answer .W a v).status

/-- `BusWrite(a, v)` with `BUSSTAT <- st`: the state after it. -/
def State.afterWrite (s : State) (a : Byte) (v : Word) : State := s.afterBus .W a v v

/-- A bus write through slot `i` of the register file `f` (R69): the slot's value is sent and the slot is kept. -/
def State.sendSlot (s : State) (f : RegFile) (i : Slot) : State := s.afterWrite (f.addr i) (f.value i)

/-- A bus read through slot `i` of the register file `f` (R69): the slot's value becomes the value read. -/
def State.fetchSlot (s : State) (f : RegFile) (i : Slot) : State :=
  (s.afterRead (f.addr i)).setFile (f.setValue i (s.readValue (f.addr i)))

/-! ## The common checks (R270), outermost first -/

/-- The command runs on an instance that exists (R283; log 3). -/
def State.withInst (s : State) (k : Instance → Out) : Out :=
  match s.insts[s.cur]? with
  | none => .refused (.noSuchInstance s.cur)
  | some x => k x

/-- R87, R90 case 3: the selector names a slot, or the command is rejected. -/
def State.withSlot (s : State) (sel : BitVec 5) (k : Slot → Out) : Out :=
  s.withInst fun _ =>
    match slotOfSel sel with
    | none => .next s.rejectIllegal
    | some i => k i

/-- R87, R90 case 3: the selector names a configuration scalar, or the command is rejected. -/
def State.withCfgId (s : State) (sel : BitVec 5) (k : CfgId → Out) : Out :=
  s.withInst fun _ =>
    match cfgIdOfSel sel with
    | none => .next s.rejectIllegal
    | some id => k id

/-- R270: the command needs `LOADED = 1`; its body gets the register file. -/
def State.withFile (s : State) (k : RegFile → Out) : Out :=
  s.withInst fun x =>
    match x.file with
    | none => s.raise .notLoaded
    | some f => k f

/-- R270: the command needs `IO_INSTALLED = 1`. -/
def State.withIo (s : State) (k : Out) : Out := if s.ioInstalled then k else s.raise .ioNotInstalled

/-- R270: the checks of a command of `IO_CMDS`. -/
def State.withFileIo (s : State) (k : RegFile → Out) : Out := s.withFile fun f => s.withIo (k f)

end Sys2Proof.Machine
end

