-- ==== Sys2Proof/Machine/Chopper.lean ====
section
/-! DEFINITION. The constant-off-time chopper (44_chopper.md): SET_COT_CHOPPER. -/

namespace Sys2Proof.Machine

/-- R201: the 2-bit tbl code of a blank time in clock cycles. -/
def blankBucket (blank : Nat) : Nat := if blank ≥ 54 then 3 else if blank ≥ 36 then 2 else if blank ≥ 24 then 1 else 0

/-- R202: the fast-decay time clamped to at most 15. -/
def clampFastDecay (fd : Nat) : Nat := min fd 15

/-- R203: the off time clamped to [2, 15]. -/
def clampOffTime (off : Nat) : Nat := min (max off 2) 15

/-- R204: the sine-wave offset clamped to [-3, 12], then biased by 3. -/
def storedSineOffset (sw : Int) : Nat := (clamp sw (-3) 12 + 3).toNat

/-- R200: CHOPCONF after the seven field writes, in the pseudocode's order. -/
def chopperWord (v : Word) (off blank fd : Nat) (sw : Int) (cc : Nat) : Word :=
  let fd := clampFastDecay fd
  let v := putField chopChm v 1
  let v := putField chopTbl v (blankBucket blank)
  let v := putField chopToff v (clampOffTime off)
  let v := putField chopFd3 v (fd / 8)
  let v := putField chopHstrt v (fd % 8)
  let v := putField chopHend v (storedSineOffset sw)
  putField chopRndtf v (1 - cc)

/-- SET_COT_CHOPPER (R200 to R207). -/
def execSetCotChopper (s : State) : Out :=
  s.withFileIo fun f =>
    let a := s.me.arg0
    let f := f.setValue slotChopconf (chopperWord (f.value slotChopconf) (argOffTime a) (argBlankTime a)
      (argFastDecay a) (argSineOffset a) (argComparator s.me.arg1))
    .next (((s.setFile f).sendSlot f slotChopconf).complete 0)

end Sys2Proof.Machine
end

