-- ==== Sys2Proof/Machine/Current.lean ====
section
/-! DEFINITION. Current scaling (41_current.md): `CurrentScale`, SET_CURRENT, GET_CURRENT. The arithmetic is exact (log 12). -/

namespace Sys2Proof.Machine

/-- The three fields CurrentScale computes (R141). -/
structure Scale where
  vsense : Nat
  irun : Nat
  ihold : Nat
deriving DecidableEq, Repr

/-- R141: `S = isqrt(2 * K * K)` with `K = (R + 20) * 32 * mA`. -/
def scaleRoot (r mA : Nat) : Nat :=
  let k := (r + 20) * 32 * mA
  isqrt (2 * k * k)

/-- R141: the scale on a range of `d / 1000` mV full scale, which may be -1. -/
def scaleOn (root d : Nat) : Int := ((root / d : Nat) : Int) - 1

/-- R141: the unclamped scale of the chosen range. -/
def scaleChosen (root : Nat) : Int := if scaleOn root 325000 < 16 then scaleOn root 180000 else scaleOn root 325000

/-- R141: `CurrentScale(R, mA, pct)`. -/
def currentScale (r mA pct : Nat) : Scale :=
  let root := scaleRoot r mA
  let irun := (clamp (scaleChosen root) 0 31).toNat
  { vsense := if scaleOn root 325000 < 16 then 1 else 0, irun := irun, ihold := irun * pct / 100 }

/-- R140, R143: the fields CurrentScale's result goes to. -/
def RegFile.applyScale (f : RegFile) (c : Scale) : RegFile :=
  ((f.setField slotChopconf chopVsense c.vsense).setField slotIholdIrun ihIrun c.irun).setField
    slotIholdIrun ihIhold c.ihold

/-- SET_CURRENT's state changes (R140): the two scalars, then the three fields. -/
def RegFile.setCurrent (f : RegFile) (mA : Half) (pct : Byte) : RegFile :=
  RegFile.applyScale { f with cfg := { f.cfg with current := mA, holdPct := pct } }
    (currentScale f.cfg.rSense.toNat mA.toNat pct.toNat)

/-- SET_CURRENT (R140, R142, R144). -/
def execSetCurrent (s : State) : Out :=
  s.withFileIo fun f =>
    let pct := argHoldPercent s.me.arg0
    if pct.toNat > 100 then s.raise .holdPctRange
    else
      let f := f.setCurrent (argMilliamps s.me.arg0) pct
      .next ((((s.setFile f).sendSlot f slotChopconf).sendSlot f slotIholdIrun).complete 0)

/-- R145, R146: the run current in milliamps for a sense resistance, an irun field and a vsense bit. -/
def readBackCurrent (r irun vsense : Nat) : Nat :=
  let vfs := if vsense = 1 then 180 else 325
  let n := (irun + 1) * vfs * 1000
  let d := 32 * (r + 20)
  isqrt (2 * n * n) / (2 * d)

/-- GET_CURRENT (R145). -/
def execGetCurrent (s : State) : Out :=
  s.withFile fun f =>
    .next (s.complete (BitVec.ofNat 32
      (readBackCurrent f.cfg.rSense.toNat (f.field slotIholdIrun ihIrun) (f.field slotChopconf chopVsense))))

end Sys2Proof.Machine
end

