-- ==== Sys2Proof/Machine/Microstep.lean ====
section
/-! DEFINITION. Microstepping (42_microstep.md): `to_mres`, MSTEPS_VALID, SET_MSTEPS. -/

namespace Sys2Proof.Machine

/-- The shift count of R167's loop: how often `n` can be halved while its low bit is 0, at most `fuel` times. -/
def shiftCount (fuel n : Nat) : Nat :=
  match fuel with
  | 0 => 0
  | k + 1 => if n % 2 = 0 then shiftCount k (n / 2) + 1 else 0

/-- R167: `to_mres(n)`, for a u16 `n` (15 shifts suffice, 70 R331). -/
def toMres (n : Nat) : Nat := 8 - min (shiftCount 15 (if n = 0 then 1 else n)) 8

/-- R160: the microstep count is legal. -/
def mstepsLegal (n : Half) : Bool := decide (1 ≤ n.toNat) && decide (n.toNat ≤ 256) && (n &&& (n - 1)) == 0

/-- MSTEPS_VALID (R160): reads no state and needs neither LOADED nor the transport. -/
def execMstepsValid (n : Half) (s : State) : Out :=
  s.withInst fun _ => .next (s.complete (flagWord (mstepsLegal n)))

/-- SET_MSTEPS' field writes (R165): `CHOPCONF.mres <- m`, `CFG.MICROSTEPS <- 2^(8 - m)`. -/
def RegFile.setMsteps (f : RegFile) (m : Nat) : RegFile :=
  let f := f.setField slotChopconf chopMres m
  { f with cfg := { f.cfg with microsteps := BitVec.ofNat 16 (2 ^ (8 - m)) } }

/-- SET_MSTEPS (R165, R166). -/
def execSetMsteps (n : Half) (s : State) : Out :=
  s.withFileIo fun f =>
    let f := f.setMsteps (toMres n.toNat)
    .next (((s.setFile f).sendSlot f slotChopconf).complete 0)

end Sys2Proof.Machine
end

