-- ==== Sys2Proof/Machine/Init.lean ====
section
/-! DEFINITION. Defaults, interface install and the init/verify FSM (40_init.md): LOAD_DEFAULTS, IF_INIT, HW_INIT. -/

namespace Sys2Proof.Machine

/-- The shadow file with `REG_ADDR` and the default values (R110, R25). -/
def defaultShadow : Vector Datagram Config.nslot := Vector.ofFn fun i => ⟨regAddr[i], defaultValue[i]⟩

/-- What LOAD_DEFAULTS writes (R110): the tables, then `CHOPCONF.mres <- to_mres(CFG.MICROSTEPS)`. -/
def defaultFile : RegFile :=
  RegFile.setField ⟨defaultShadow, defaultCfg⟩ slotChopconf chopMres (toMres defaultCfg.microsteps.toNat)

/-- LOAD_DEFAULTS (R110, R111): no check but that the instance exists, no transaction. -/
def execLoadDefaults (s : State) : Out :=
  s.withInst fun _ => .next (((s.setFile defaultFile).goto .idle).complete 0)

/-- IF_INIT (R115, R116): global, through any instance. -/
def execIfInit (s : State) : Out :=
  s.withInst fun _ =>
    if s.ioInstalled then s.raise .ioReinstall else .next (State.complete { s with ioInstalled := true } 0)

/-- R121 SET_MRES: `CHOPCONF.mres <- to_mres(CFG.MICROSTEPS)`. -/
def RegFile.recomputeMres (f : RegFile) : RegFile := f.setField slotChopconf chopMres (toMres f.cfg.microsteps.toNat)

/-- R121 SC_COMPUTE, R124: the current-scaling procedure on the stored current and hold percentage. -/
def RegFile.recomputeScale (f : RegFile) : RegFile :=
  f.applyScale (currentScale f.cfg.rSense.toNat f.cfg.current.toNat f.cfg.holdPct.toNat)

/-- `SAVED_CHOPCONF <- v` (R47). -/
def State.setSaved (s : State) (v : Word) : State := s.updMe fun x => { x with savedChopconf := v }

/-- One row of the FSM table R121, for the issuing instance with register file `f` in the FSM state `c`. -/
def State.initRow (s : State) (f : RegFile) (c : InitState) : State :=
  match c with
  | .idle => s
  | .chkIo => s.goto (if s.ioInstalled then .rdDrvStatus else .doneFail)
  | .rdDrvStatus => (s.fetchSlot f slotDrvStatus).goto .chkPresent
  | .chkPresent => s.goto (if chipAbsent (f.value slotDrvStatus) then .doneFail else .rdGstat)
  | .rdGstat => (s.fetchSlot f slotGstat).goto .setMres
  | .setMres => (s.setFile f.recomputeMres).goto .wrGconf
  | .wrGconf => (s.sendSlot f slotGconf).goto .wrChopconf
  | .wrChopconf => (s.sendSlot f slotChopconf).goto .wrCoolconf
  | .wrCoolconf => (s.sendSlot f slotCoolconf).goto .wrPwmconf
  | .wrPwmconf => (s.sendSlot f slotPwmconf).goto .wrIholdIrun
  | .wrIholdIrun => (s.sendSlot f slotIholdIrun).goto .wrTpowerdown
  | .wrTpowerdown => (s.sendSlot f slotTpowerdown).goto .wrTpwmthrs
  | .wrTpwmthrs => (s.sendSlot f slotTpwmthrs).goto .scCompute
  | .scCompute => (s.setFile f.recomputeScale).goto .scWrChopconf
  | .scWrChopconf => (s.sendSlot f slotChopconf).goto .scWrIholdIrun
  | .scWrIholdIrun => (s.sendSlot f slotIholdIrun).goto .vfRead
  | .vfRead => ((s.setSaved (f.value slotChopconf)).fetchSlot f slotChopconf).goto .vfCompare
  | .vfCompare => s.goto (if f.value slotChopconf = s.me.savedChopconf then .doneOk else .doneFail)
  | .doneOk => (s.complete 1).goto .idle
  | .doneFail => (s.complete 0).goto .idle

/-- One FSM step of the issuing instance. -/
def State.initStep (s : State) : State :=
  match s.me.file with
  | none => s
  | some f => s.initRow f s.me.initState

/-- The FSM run to IDLE, at most `fuel` steps. -/
def State.initRun (fuel : Nat) (s : State) : State :=
  match fuel with
  | 0 => s
  | k + 1 => if s.me.initState = .idle then s else State.initRun k s.initStep

/-- HW_INIT (R120 to R128): the FSM entered in CHK_IO and run to its end, at most 19 states (70 R331). It is one command
and so one step of the machine (R8; log 16). -/
def execHwInit (s : State) : Out := s.withFile fun _ => .next ((s.goto .chkIo).initRun 19)

end Sys2Proof.Machine
end

