-- ==== Sys2Proof/Machine/RegAccess.lean ====
section
/-! DEFINITION. Low-level register access, address lookup, shadow and configuration access (45_regaccess.md). -/

namespace Sys2Proof.Machine

/-- WRITE_REG (R220, R221): one write through the slot; the status in `RESULT`. -/
def execWriteReg (sel : BitVec 5) (s : State) : Out :=
  s.withSlot sel fun i => s.withFileIo fun f =>
    .next ((s.sendSlot f i).complete ((s.writeStatus (f.addr i) (f.value i)).setWidth 32))

/-- READ_REG (R221, R222): one read through the slot, whatever the status; the status in `RESULT`. -/
def execReadReg (sel : BitVec 5) (s : State) : Out :=
  s.withSlot sel fun i => s.withFileIo fun f =>
    .next ((s.fetchSlot f i).complete ((s.readStatus (f.addr i)).setWidth 32))

/-- WRITE_REG_X (R226, R227, R229): `ARG1` to any address; the shadow is not touched. -/
def execWriteRegX (a : Byte) (s : State) : Out :=
  s.withFileIo fun _ => .next ((s.afterWrite a s.me.arg1).complete ((s.writeStatus a s.me.arg1).setWidth 32))

/-- READ_REG_X (R228, R229): any address; the value in `RESULT`, the shadow not touched. -/
def execReadRegX (a : Byte) (s : State) : Out :=
  s.withFileIo fun _ => .next ((s.afterRead a).complete (s.readValue a))

/-- The scan of R236 over a list of datagrams, `i` being the slot of the first. -/
def scanSlots (a : Byte) (l : List Datagram) (i : Nat) : Word :=
  match l with
  | [] => 0
  | d :: l => if d.addr = a then 0x80000000 ||| BitVec.ofNat 32 i else scanSlots a l (i + 1)

/-- `Lookup(a)` (R236): the scan of the prefix that ends with the LOST_STEPS sentinel, itself compared (R237). -/
def RegFile.lookup (f : RegFile) (a : Byte) : Word := scanSlots a (f.sh.toList.take (slotLostSteps.val + 1)) 0

/-- GET_REG_PTR (R235). -/
def execGetRegPtr (a : Byte) (s : State) : Out := s.withFile fun f => .next (s.complete (f.lookup a))

/-- SHADOW_READ (R240). -/
def execShadowRead (sel : BitVec 5) (s : State) : Out :=
  s.withSlot sel fun i => s.withFile fun f => .next (s.complete (f.value i))

/-- SHADOW_WRITE (R242 to R244): CHOPCONF must carry the mres of `CFG.MICROSTEPS`. -/
def execShadowWrite (sel : BitVec 5) (s : State) : Out :=
  s.withSlot sel fun i => s.withFile fun f =>
    if i = slotChopconf ∧ getField chopMres s.me.arg1 ≠ toMres f.cfg.microsteps.toNat then .next s.rejectIllegal
    else .next ((s.setFile (f.setValue i s.me.arg1)).complete 0)

/-- CONFIG_READ (R246). -/
def execConfigRead (sel : BitVec 5) (s : State) : Out :=
  s.withCfgId sel fun id => s.withFile fun f => .next (s.complete (f.cfg.read id))

/-- CONFIG_WRITE (R248, R249). -/
def execConfigWrite (sel : BitVec 5) (s : State) : Out :=
  s.withCfgId sel fun id => s.withFile fun f =>
    match f.cfg.write id s.me.arg1 with
    | none => .next s.rejectIllegal
    | some c => .next ((s.setFile { f with cfg := c }).complete 0)

end Sys2Proof.Machine
end

