-- ==== Sys2Proof/Machine/Threshold.lean ====
section
/-! DEFINITION. Velocity thresholds (43_threshold.md): `VelToThr`, SET_HYBRID_THRS, GET_TPWMTHRS, SET_TPWMTHRS. Velocities and
steps per mm are Q16.16 words (30_encoding.md R86). -/

namespace Sys2Proof.Machine

/-- What a conversion of this file ends in. -/
inductive Conversion where
  | value (t : Nat)
  | divZero
  | range
deriving DecidableEq, Repr

/-- The quotient both conversions compute (R180, R184): `(F * ms * 2^32) div (256 * x * S)`. -/
def thrQuotient (fClk ms x steps : Nat) : Nat := fClk * ms * 2 ^ 32 / (256 * x * steps)

/-- The common shape of R180 and R184: 0 for `x = 0`, DIV_ZERO for `S = 0`, RANGE above `limit`, in that order (R271). -/
def thrConvert (limit fClk ms x steps : Nat) : Conversion :=
  if x = 0 then .value 0
  else if steps = 0 then .divZero
  else if thrQuotient fClk ms x steps > limit then .range
  else .value (thrQuotient fClk ms x steps)

/-- R180: `VelToThr(F, ms, V, S)`. -/
def velToThr (fClk ms v steps : Nat) : Conversion := thrConvert 0xFFFFF fClk ms v steps

/-- R184: the stored threshold `T` as a velocity. -/
def thrToVel (fClk ms t steps : Nat) : Conversion := thrConvert 0xFFFFFFFF fClk ms t steps

/-- A conversion's value used, or its fault raised (R180, R184). -/
def State.withConversion (s : State) (c : Conversion) (k : Nat → Out) : Out :=
  match c with
  | .value t => k t
  | .divZero => s.raise .divZero
  | .range => s.raise .range

/-- R181, R187: convert the velocity, store tpwmthrs, write TPWMTHRS. -/
def State.storeThreshold (s : State) : Out :=
  s.withFileIo fun f =>
    s.withConversion (velToThr f.cfg.fClk.toNat f.cfg.microsteps.toNat s.me.arg0.toNat s.me.arg1.toNat) fun t =>
      let f := f.setField slotTpwmthrs tpTpwmthrs t
      .next (((s.setFile f).sendSlot f slotTpwmthrs).complete 0)

/-- SET_HYBRID_THRS (R181). -/
def execSetHybridThrs (s : State) : Out := s.storeThreshold

/-- GET_TPWMTHRS (R184). -/
def execGetTpwmthrs (s : State) : Out :=
  s.withFile fun f =>
    s.withConversion (thrToVel f.cfg.fClk.toNat f.cfg.microsteps.toNat (f.field slotTpwmthrs tpTpwmthrs)
      s.me.arg1.toNat) fun w => .next (s.complete (BitVec.ofNat 32 w))

/-- SET_TPWMTHRS (R187): its effect cannot be told from SET_HYBRID_THRS'. -/
def execSetTpwmthrs (s : State) : Out := s.storeThreshold

end Sys2Proof.Machine
end

