-- ==== Sys2Proof/Syntax.lean ====
section
/-! DEFINITION. The 20 commands of 30_encoding.md R84, one constructor per row of spec/opcode_table.json. An operand is a
field of the command word (R80, R85); what a command takes from `ARG0` and `ARG1` (R83) is read when it runs. -/

namespace Sys2Proof

inductive Instr where
  /-- LOAD_DEFAULTS, OP 0x01, format N (R110). -/
  | loadDefaults
  /-- IF_INIT, OP 0x02, format N (R115). -/
  | ifInit
  /-- HW_INIT, OP 0x03, format N (R120). -/
  | hwInit
  /-- SET_CURRENT, OP 0x10, format N; milliamps and percent in `ARG0` (R140). -/
  | setCurrent
  /-- GET_CURRENT, OP 0x11, format N (R145). -/
  | getCurrent
  /-- MSTEPS_VALID, OP 0x20, format I: `n = IMM` (R160). -/
  | mstepsValid (n : Half)
  /-- SET_MSTEPS, OP 0x21, format I: `requestedSteps = IMM` (R165). -/
  | setMsteps (n : Half)
  /-- SET_HYBRID_THRS, OP 0x30, format N; velocity in `ARG0`, steps per mm in `ARG1` (R181). -/
  | setHybridThrs
  /-- GET_TPWMTHRS, OP 0x31, format N; steps per mm in `ARG1` (R184). -/
  | getTpwmthrs
  /-- SET_TPWMTHRS, OP 0x32, format N; velocity in `ARG0`, steps per mm in `ARG1` (R187). -/
  | setTpwmthrs
  /-- SET_COT_CHOPPER, OP 0x40, format N; timing in `ARG0` and `ARG1` (R200). -/
  | setCotChopper
  /-- WRITE_REG, OP 0x50, format S: slot `SEL` (R220). -/
  | writeReg (sel : BitVec 5)
  /-- READ_REG, OP 0x51, format S: slot `SEL` (R222). -/
  | readReg (sel : BitVec 5)
  /-- WRITE_REG_X, OP 0x52, format I with an address: `CMD[23:16]`; value in `ARG1` (R226). -/
  | writeRegX (addr : Byte)
  /-- READ_REG_X, OP 0x53, format I with an address (R228). -/
  | readRegX (addr : Byte)
  /-- GET_REG_PTR, OP 0x54, format I with an address (R235). -/
  | getRegPtr (addr : Byte)
  /-- SHADOW_READ, OP 0x60, format S: slot `SEL` (R240). -/
  | shadowRead (sel : BitVec 5)
  /-- SHADOW_WRITE, OP 0x61, format S: slot `SEL`; value in `ARG1` (R242). -/
  | shadowWrite (sel : BitVec 5)
  /-- CONFIG_READ, OP 0x62, format S: configuration id `SEL` (R246). -/
  | configRead (sel : BitVec 5)
  /-- CONFIG_WRITE, OP 0x63, format S: configuration id `SEL`; value in `ARG1` (R248). -/
  | configWrite (sel : BitVec 5)
deriving DecidableEq, Repr

end Sys2Proof
end

