-- ==== Sys2Proof/Machine/Dispatch.lean ====
section
/-! DEFINITION. The meaning of every command, one arm per constructor of Instr (30_encoding.md R84). -/

namespace Sys2Proof.Machine

def exec (i : Instr) (s : State) : Host.Outcome State Fault Refusal :=
  match i with
  | .loadDefaults => Sys2Proof.Machine.execLoadDefaults s
  | .ifInit => Sys2Proof.Machine.execIfInit s
  | .hwInit => Sys2Proof.Machine.execHwInit s
  | .setCurrent => Sys2Proof.Machine.execSetCurrent s
  | .getCurrent => Sys2Proof.Machine.execGetCurrent s
  | .mstepsValid n => Sys2Proof.Machine.execMstepsValid n s
  | .setMsteps n => Sys2Proof.Machine.execSetMsteps n s
  | .setHybridThrs => Sys2Proof.Machine.execSetHybridThrs s
  | .getTpwmthrs => Sys2Proof.Machine.execGetTpwmthrs s
  | .setTpwmthrs => Sys2Proof.Machine.execSetTpwmthrs s
  | .setCotChopper => Sys2Proof.Machine.execSetCotChopper s
  | .writeReg sel => Sys2Proof.Machine.execWriteReg sel s
  | .readReg sel => Sys2Proof.Machine.execReadReg sel s
  | .writeRegX addr => Sys2Proof.Machine.execWriteRegX addr s
  | .readRegX addr => Sys2Proof.Machine.execReadRegX addr s
  | .getRegPtr addr => Sys2Proof.Machine.execGetRegPtr addr s
  | .shadowRead sel => Sys2Proof.Machine.execShadowRead sel s
  | .shadowWrite sel => Sys2Proof.Machine.execShadowWrite sel s
  | .configRead sel => Sys2Proof.Machine.execConfigRead sel s
  | .configWrite sel => Sys2Proof.Machine.execConfigWrite sel s

end Sys2Proof.Machine
end

