-- ==== Sys2Proof/WellFormed.lean ====
section
/-! DEFINITION. The checks on an instruction's operands that the command word alone decides (30_encoding.md R87): a slot
selector is below `NSLOT`, a configuration id is at most 5. Every other operand may have every value of its field. -/

namespace Sys2Proof

/-- R87: the instruction's selector is in range. -/
def Instr.wellFormed (i : Instr) : Bool :=
  match i with
  | .writeReg sel | .readReg sel | .shadowRead sel | .shadowWrite sel => sel.toNat < Config.nslot
  | .configRead sel | .configWrite sel => sel.toNat ≤ 5
  | .loadDefaults | .ifInit | .hwInit | .setCurrent | .getCurrent | .mstepsValid _ | .setMsteps _
  | .setHybridThrs | .getTpwmthrs | .setTpwmthrs | .setCotChopper | .writeRegX _ | .readRegX _
  | .getRegPtr _ => true

end Sys2Proof
end

