-- ==== Sys2Proof/Decode.lean ====
section
/-! DEFINITION. The decoder of a command word (30_encoding.md R80 to R82, R84, R87, R89), total and rejecting by name, and
the encoder, written from the same tables. -/

namespace Sys2Proof

/-- The formats of R81; `addr` is format I with an address operand, whose `IMM[15:8]` must be 0. -/
inductive Format where
  | n
  | s
  | imm
  | addr
deriving DecidableEq, Repr

/-- R81: the mask of the bits a format fixes. -/
def formatMask (f : Format) : Word :=
  match f with
  | .n => 0xFFFFFFFF
  | .s => 0xFFFFE0FF
  | .imm => 0x0000FFFF
  | .addr => 0xFF00FFFF

/-- R80: `OP = CMD[7:0]`. -/
def opField (w : Word) : Byte := w.extractLsb' 0 8

/-- R80: `SEL = CMD[12:8]`. -/
def selField (w : Word) : BitVec 5 := w.extractLsb' 8 5

/-- R80: `RSV = CMD[15:13]`. -/
def rsvField (w : Word) : BitVec 3 := w.extractLsb' 13 3

/-- R80: `IMM = CMD[31:16]`. -/
def immField (w : Word) : Half := w.extractLsb' 16 16

/-- R85: the address operand, `CMD[23:16]`. -/
def addrField (w : Word) : Byte := w.extractLsb' 16 8

/-- A row of the opcode map R84: the opcode, the format, and the instruction with the word's operand fields. -/
structure OpRow where
  op : Byte
  fmt : Format
  build : Word → Instr

/-- The opcode map, R84. -/
def opcodeMap : List OpRow :=
  [ ⟨0x01, .n, fun _ => .loadDefaults⟩,
    ⟨0x02, .n, fun _ => .ifInit⟩,
    ⟨0x03, .n, fun _ => .hwInit⟩,
    ⟨0x10, .n, fun _ => .setCurrent⟩,
    ⟨0x11, .n, fun _ => .getCurrent⟩,
    ⟨0x20, .imm, fun w => .mstepsValid (immField w)⟩,
    ⟨0x21, .imm, fun w => .setMsteps (immField w)⟩,
    ⟨0x30, .n, fun _ => .setHybridThrs⟩,
    ⟨0x31, .n, fun _ => .getTpwmthrs⟩,
    ⟨0x32, .n, fun _ => .setTpwmthrs⟩,
    ⟨0x40, .n, fun _ => .setCotChopper⟩,
    ⟨0x50, .s, fun w => .writeReg (selField w)⟩,
    ⟨0x51, .s, fun w => .readReg (selField w)⟩,
    ⟨0x52, .addr, fun w => .writeRegX (addrField w)⟩,
    ⟨0x53, .addr, fun w => .readRegX (addrField w)⟩,
    ⟨0x54, .addr, fun w => .getRegPtr (addrField w)⟩,
    ⟨0x60, .s, fun w => .shadowRead (selField w)⟩,
    ⟨0x61, .s, fun w => .shadowWrite (selField w)⟩,
    ⟨0x62, .s, fun w => .configRead (selField w)⟩,
    ⟨0x63, .s, fun w => .configWrite (selField w)⟩ ]

/-- Why a word is no command: cases 1 to 3 of R90. -/
inductive DecodeError where
  /-- `OP` is reserved (R89). -/
  | reservedOpcode
  /-- A bit the format requires to be 0 is not 0 (R81). -/
  | mustBeZero
  /-- `SEL` is out of range (R87). -/
  | selectorRange
deriving DecidableEq, Repr

/-- R82: the row of the opcode, then the format's mask, then the selector range. -/
def decode (w : Word) : Except DecodeError Instr :=
  match opcodeMap.find? (fun r => r.op == opField w) with
  | none => .error .reservedOpcode
  | some r =>
    if w &&& formatMask r.fmt = r.op.setWidth 32 then
      if (r.build w).wellFormed then .ok (r.build w) else .error .selectorRange
    else .error .mustBeZero

/-- The instruction the decoder reads, if any. -/
def decode? (w : Word) : Option Instr :=
  match decode w with
  | .ok i => some i
  | .error _ => none

/-- The word with fields `IMM`, `RSV = 0`, `SEL` and `OP` (R80). -/
def cmdWord (imm : Half) (sel : BitVec 5) (op : Byte) : Word := imm ++ (0#3 ++ (sel ++ op))

/-- The instruction's opcode (R84). -/
def opcodeOf (i : Instr) : Byte :=
  match i with
  | .loadDefaults => 0x01
  | .ifInit => 0x02
  | .hwInit => 0x03
  | .setCurrent => 0x10
  | .getCurrent => 0x11
  | .mstepsValid _ => 0x20
  | .setMsteps _ => 0x21
  | .setHybridThrs => 0x30
  | .getTpwmthrs => 0x31
  | .setTpwmthrs => 0x32
  | .setCotChopper => 0x40
  | .writeReg _ => 0x50
  | .readReg _ => 0x51
  | .writeRegX _ => 0x52
  | .readRegX _ => 0x53
  | .getRegPtr _ => 0x54
  | .shadowRead _ => 0x60
  | .shadowWrite _ => 0x61
  | .configRead _ => 0x62
  | .configWrite _ => 0x63

/-- The command word of an instruction (R80, R81). -/
def encode (i : Instr) : Word :=
  match i with
  | .loadDefaults | .ifInit | .hwInit | .setCurrent | .getCurrent | .setHybridThrs | .getTpwmthrs
  | .setTpwmthrs | .setCotChopper => cmdWord 0 0 (opcodeOf i)
  | .mstepsValid n | .setMsteps n => cmdWord n 0 (opcodeOf i)
  | .writeRegX a | .readRegX a | .getRegPtr a => cmdWord (a.setWidth 16) 0 (opcodeOf i)
  | .writeReg sel | .readReg sel | .shadowRead sel | .shadowWrite sel | .configRead sel
  | .configWrite sel => cmdWord 0 sel (opcodeOf i)

/-- The instruction the decoder reads from the opcode table's number `w` of `nbits` bits. A command is one 32-bit word
(R91), so the table's bit 0 is the word's bit 0, and the bits above `nbits` are 0 (log 15). -/
def decodeTableWord (nbits w : Nat) : Option Instr := decode? (BitVec.ofNat 32 (w % 2 ^ nbits))

end Sys2Proof
end

