-- ==== Sys2Proof/Machine/Port.lean ====
section
/-! DEFINITION. The command port (10_state.md R40 to R42): what the host's writes and reads do. Running the command that a
write of `CMD` starts is Step.lean's. -/

namespace Sys2Proof.Machine

/-- The instance a host write names. -/
def HostWrite.inst (h : HostWrite) : Nat :=
  match h with
  | .arg0 k _ => k
  | .arg1 k _ => k
  | .cmd k _ => k

/-- Instance `k` changed by `g`. -/
def State.updInst (s : State) (k : Nat) (g : Instance → Instance) : State := { s with insts := s.insts.modify k g }

/-- The host writes `ARG0` of instance `k` (R42). -/
def State.writeArg0 (s : State) (k : Nat) (w : Word) : State := s.updInst k fun x => { x with arg0 := w }

/-- The host writes `ARG1` of instance `k` (R42). -/
def State.writeArg1 (s : State) (k : Nat) (w : Word) : State := s.updInst k fun x => { x with arg1 := w }

/-- The host writes `CMD` of instance `k` (R41, R270 `CMD <- w`): `k` is now the issuing instance. -/
def State.startCommand (s : State) (k : Nat) (w : Word) : State :=
  { s.updInst k (fun x => { x with cmd := w }) with cur := k }

/-- The registers of the command port (R40). -/
inductive PortReg where
  | cmd
  | arg0
  | arg1
  | result
  | cmdstat
  | busstat
deriving DecidableEq, Repr

/-- What the host reads from a register of instance `k`'s port (R40): `CMD` is write-only. A read has no effect. -/
def State.hostRead (s : State) (k : Nat) (r : PortReg) : Option Word :=
  match s.insts[k]?, r with
  | none, _ => none
  | some _, .cmd => none
  | some x, .arg0 => some x.arg0
  | some x, .arg1 => some x.arg1
  | some x, .result => some x.result
  | some x, .cmdstat => some (x.cmdstat.setWidth 32)
  | some x, .busstat => some (x.busstat.setWidth 32)

end Sys2Proof.Machine
end

