-- ==== Sys2Proof/Machine/Step.lean ====
section
/-! DEFINITION. One step of the machine: the next host write (00_scope.md R7, R8). A write of `CMD` decodes and runs one command
to its end (60_exceptions.md R270); with no host write pending the machine holds its state (R285). -/

namespace Sys2Proof.Machine

def step (s : State) : Host.Outcome State Fault Refusal :=
  match s.host with
  | [] => .next s
  | h :: rest =>
    if h.inst < s.insts.length then
      match h with
      | .arg0 k w => .next (State.writeArg0 { s with host := rest } k w)
      | .arg1 k w => .next (State.writeArg1 { s with host := rest } k w)
      | .cmd k w =>
        match decode w with
        | .ok i => exec i (State.startCommand { s with host := rest } k w)
        | .error _ => .next (State.startCommand { s with host := rest } k w).rejectIllegal
    else .refused (.noSuchInstance h.inst)

/-- The host's next action is to write the word to `CMD` of the current instance: MDRM fetches no instructions (20_memory.md
R73), so this is where its next command comes from (log 1). -/
def State.withFetchWord (s : State) (nbits w : Nat) : State :=
  { s with host := .cmd s.cur (BitVec.ofNat 32 (w % 2 ^ nbits)) :: s.host }

end Sys2Proof.Machine
end

