-- ==== Sys2Proof/Machine/Assembler.lean ====
section
/-! DEFINITION. The assembly language of 30_encoding.md R93 and R94: a program is a list of lines, and a line stands for host
writes. The text itself is not parsed (log 22). -/

namespace Sys2Proof.Machine

/-- One line of a program (R93, R94). -/
inductive AsmLine where
  /-- `@inst k`. -/
  | at (k : Nat)
  | wrArg0 (w : Word)
  | wrArg1 (w : Word)
  | wrCmd (w : Word)
  | loadDefaults
  | ifInit
  | hwInit
  | setCurrent (mA : Half) (pct : Byte)
  | getCurrent
  | mstepsValid (n : Half)
  | setMsteps (n : Half)
  | setHybridThrs (v s : Word)
  | getTpwmthrs (s : Word)
  | setTpwmthrs (v s : Word)
  | setCotChopper (toff tbl fd : Byte) (off : Int) (cc : Word)
  | writeReg (slot : BitVec 5)
  | readReg (slot : BitVec 5)
  | writeRegX (addr : Byte) (v : Word)
  | readRegX (addr : Byte)
  | getRegPtr (addr : Byte)
  | shadowRead (slot : BitVec 5)
  | shadowWrite (slot : BitVec 5) (v : Word)
  | configRead (id : BitVec 5)
  | configWrite (id : BitVec 5) (v : Word)
deriving DecidableEq, Repr

/-- R94: `(x << n) OR op`, the word of a mnemonic with one operand. -/
def asmWord (x n op : Nat) : Word := (BitVec.ofNat 32 x <<< n) ||| BitVec.ofNat 32 op

/-- R94: the `ARG0` word of SET_COT_CHOPPER. -/
def asmChopperArg0 (toff tbl fd : Byte) (off : Int) : Word :=
  (BitVec.ofInt 32 off &&& 0xFF) <<< 24 ||| fd.setWidth 32 <<< 16 ||| tbl.setWidth 32 <<< 8 ||| toff.setWidth 32

/-- R94: the host writes a line stands for, on instance `k`; `ARG0`, then `ARG1`, then `CMD`. -/
def expandLine (k : Nat) (l : AsmLine) : List HostWrite :=
  match l with
  | .at _ => []
  | .wrArg0 w => [.arg0 k w]
  | .wrArg1 w => [.arg1 k w]
  | .wrCmd w => [.cmd k w]
  | .loadDefaults => [.cmd k 0x00000001]
  | .ifInit => [.cmd k 0x00000002]
  | .hwInit => [.cmd k 0x00000003]
  | .setCurrent mA pct => [.arg0 k (pct.setWidth 32 <<< 16 ||| mA.setWidth 32), .cmd k 0x00000010]
  | .getCurrent => [.cmd k 0x00000011]
  | .mstepsValid n => [.cmd k (asmWord n.toNat 16 0x20)]
  | .setMsteps n => [.cmd k (asmWord n.toNat 16 0x21)]
  | .setHybridThrs v s => [.arg0 k v, .arg1 k s, .cmd k 0x00000030]
  | .getTpwmthrs s => [.arg1 k s, .cmd k 0x00000031]
  | .setTpwmthrs v s => [.arg0 k v, .arg1 k s, .cmd k 0x00000032]
  | .setCotChopper toff tbl fd off cc =>
    [.arg0 k (asmChopperArg0 toff tbl fd off), .arg1 k cc, .cmd k 0x00000040]
  | .writeReg slot => [.cmd k (asmWord slot.toNat 8 0x50)]
  | .readReg slot => [.cmd k (asmWord slot.toNat 8 0x51)]
  | .writeRegX addr v => [.arg1 k v, .cmd k (asmWord addr.toNat 16 0x52)]
  | .readRegX addr => [.cmd k (asmWord addr.toNat 16 0x53)]
  | .getRegPtr addr => [.cmd k (asmWord addr.toNat 16 0x54)]
  | .shadowRead slot => [.cmd k (asmWord slot.toNat 8 0x60)]
  | .shadowWrite slot v => [.arg1 k v, .cmd k (asmWord slot.toNat 8 0x61)]
  | .configRead id => [.cmd k (asmWord id.toNat 8 0x62)]
  | .configWrite id v => [.arg1 k v, .cmd k (asmWord id.toNat 8 0x63)]

/-- R93: the host writes of a program whose lines are directed to instance `k` until an `@inst` line. -/
def assemble (k : Nat) (p : List AsmLine) : List HostWrite :=
  match p with
  | [] => []
  | .at j :: p => assemble j p
  | l :: p => expandLine k l ++ assemble k p

/-- R94: `q(num / den)`, the Q16.16 word `floor(x * 65536)`. DESIGN CHOICE (log 23), safe: it stands for no word where the
floor is no u32 (`x ≥ 65536`, which D9 says cannot be stated) and where `den` is 0. -/
def asmQ (num den : Nat) : Option Word :=
  if den = 0 then none
  else if num * 65536 / den < 2 ^ 32 then some (BitVec.ofNat 32 (num * 65536 / den))
  else none

/-- R93: the register names that may stand for slot numbers, in slot order (R25). -/
def asmRegNames : List String :=
  ["GCONF", "GSTAT", "IOIN", "IHOLD_IRUN", "TPOWERDOWN", "TSTEP", "TPWMTHRS", "TCOOLTHRS", "THIGH", "VDCMIN",
   "MSCNT", "MSCURACT", "CHOPCONF", "COOLCONF", "DCCTRL", "DRV_STATUS", "PWMCONF", "PWM_SCALE", "LOST_STEPS",
   "XDIRECT", "MSLUT0", "MSLUT1", "MSLUT2", "MSLUT3", "MSLUT4", "MSLUT5", "MSLUT6", "MSLUT7", "MSLUTSEL",
   "MSLUTSTART", "ENCM_CTRL"]

/-- R93: the configuration names that may stand for ids, in id order (R34). -/
def asmCfgNames : List String := ["F_CLK", "R_SENSE", "COOLSTEP_EN", "CURRENT", "HOLD_PCT", "MICROSTEPS"]

/-- R93: the selector a name stands for. -/
def asmSelector (names : List String) (n : String) : Option (BitVec 5) :=
  (names.findIdx? (· == n)).map (BitVec.ofNat 5)

end Sys2Proof.Machine
end

