-- ==== Sys2Proof/Safety.lean ====
section
/-! DEFINITION. What counts as a sound state, and the terms in which claims are stated. -/

namespace Sys2Proof.Machine

/-! ## Outcomes -/

/-- The next state of an outcome, if it is one. -/
def nextOf (o : Out) : Option State :=
  match o with
  | .next t => some t
  | .fault _ => none
  | .refused _ => none

/-- The fault of an outcome, if it is one. -/
def faultOf (o : Out) : Option Fault :=
  match o with
  | .fault r => some r
  | .next _ => none
  | .refused _ => none

/-! ## When a command runs -/

/-- `x` is the instance that issues the command. -/
def Issues (s : State) (x : Instance) : Prop := s.insts[s.cur]? = some x

/-- The issuing instance `x` has `LOADED = 1` and register file `f`. -/
def Loaded (s : State) (x : Instance) (f : RegFile) : Prop := Issues s x ∧ x.file = some f

/-- The checks of a command of `IO_CMDS` pass (60_exceptions.md R270). -/
def Ready (s : State) (x : Instance) (f : RegFile) : Prop := Loaded s x f ∧ s.ioInstalled = true

/-- R270: the commands that need neither LOADED nor the transport. -/
def isExempt (i : Instr) : Bool :=
  match i with
  | .loadDefaults | .ifInit | .mstepsValid _ => true
  | .hwInit | .setCurrent | .getCurrent | .setMsteps _ | .setHybridThrs | .getTpwmthrs | .setTpwmthrs
  | .setCotChopper | .writeReg _ | .readReg _ | .writeRegX _ | .readRegX _ | .getRegPtr _ | .shadowRead _
  | .shadowWrite _ | .configRead _ | .configWrite _ => false

/-- R270: `IO_CMDS`, the commands that always make a transaction. -/
def isIoCmd (i : Instr) : Bool :=
  match i with
  | .setCurrent | .setMsteps _ | .setHybridThrs | .setTpwmthrs | .setCotChopper | .writeReg _ | .readReg _
  | .writeRegX _ | .readRegX _ => true
  | .loadDefaults | .ifInit | .hwInit | .getCurrent | .mstepsValid _ | .getTpwmthrs | .getRegPtr _
  | .shadowRead _ | .shadowWrite _ | .configRead _ | .configWrite _ => false

/-! ## What a command leaves -/

/-- `s` with the issuing instance replaced by `x` and nothing else changed. -/
def State.withMe (s : State) (x : Instance) : State := { s with insts := s.insts.set s.cur x }

/-- `s` after the transactions `evs`, the agent behind the bus being `c` afterwards, and nothing else changed. -/
def State.withTraffic (s : State) (evs : List BusEvent) (c : Chip) : State :=
  { s with history := s.history ++ evs, draws := s.draws + evs.length, chip := c }

/-- `x` after `complete(r)` (00_scope.md R14). -/
def Instance.completed (x : Instance) (r : Word) : Instance := { x with result := r, cmdstat := 0x00 }

/-- `f'` is `f` but for the values of the slots in `l`: address tags, other slots and configuration are the same. -/
def RegFile.SameBut (f f' : RegFile) (l : List Nat) : Prop :=
  f'.cfg = f.cfg ∧ (∀ i : Slot, f'.addr i = f.addr i) ∧ ∀ i : Slot, i.val ∉ l → f'.value i = f.value i

/-- Every instance but the issuing one is the same in `t` as in `s`, and so are their number, the issuer and the host's
pending writes. -/
def SameElsewhere (s t : State) : Prop :=
  t.cur = s.cur ∧ t.host = s.host ∧ t.insts.length = s.insts.length ∧
    ∀ k : Nat, k ≠ s.cur → t.insts[k]? = s.insts[k]?

/-- No transaction was made. -/
def NoTraffic (s t : State) : Prop := t.history = s.history ∧ t.chip = s.chip ∧ t.draws = s.draws

/-! ## Traffic and the agent behind the bus -/

/-- The request an event answers (20_memory.md R62 to R64): a read carries no data, a write the value written. -/
def eventReq (e : BusEvent) : BusReq :=
  match e.kind with
  | .R => ⟨e.inst, .R, e.addr, 0⟩
  | .W => ⟨e.inst, .W, e.addr, e.value⟩

/-- The event carries what the agent `c` answers to its request as the draw number `n` after the history `h`: the status,
and for a read the value. -/
def Chip.Answers (c : Chip) (n : Nat) (h : List BusEvent) (e : BusEvent) : Prop :=
  e.st = (c.answer n h (eventReq e)).status ∧ (e.kind = .R → e.value = (c.answer n h (eventReq e)).value)

/-- Every event of `evs` carries the answer of the agent at that point, starting with the agent `c`, the draw number `n` and
the history `h`. -/
def Chip.AnswersAll (c : Chip) (n : Nat) (h : List BusEvent) (evs : List BusEvent) : Prop :=
  match evs with
  | [] => True
  | e :: evs => c.Answers n h e ∧ Chip.AnswersAll (c.after (eventReq e)) (n + 1) (h ++ [e]) evs

/-- The agent `c` after the requests of `evs`, in order. -/
def Chip.afterAll (c : Chip) (evs : List BusEvent) : Chip := evs.foldl (fun c e => c.after (eventReq e)) c

/-- R330: whether `n` transactions is what the table gives a completed command. -/
def transactionCount (i : Instr) (n : Nat) : Prop :=
  match i with
  | .loadDefaults | .ifInit | .getCurrent | .mstepsValid _ | .getTpwmthrs | .getRegPtr _ | .shadowRead _
  | .shadowWrite _ | .configRead _ | .configWrite _ => n = 0
  | .setMsteps _ | .setCotChopper | .writeReg _ | .readReg _ | .writeRegX _ | .readRegX _ | .setHybridThrs
  | .setTpwmthrs => n = 1
  | .setCurrent => n = 2
  | .hwInit => n = 0 ∨ n = 1 ∨ n = 12

/-! ## HW_INIT in straight-line form -/

/-- The straight-line form of HW_INIT (40_init.md R120), for the issuing instance with register file `f`. -/
def hwInitStraight (s : State) (f : RegFile) : State :=
  if s.ioInstalled = false then (s.complete 0).goto .idle
  else
    let v := s.readValue (f.addr slotDrvStatus)
    let s := s.fetchSlot f slotDrvStatus
    let f := f.setValue slotDrvStatus v
    if v = 0x00000000 ∨ v = 0xFFFFFFFF then (s.complete 0).goto .idle
    else
      let v := s.readValue (f.addr slotGstat)
      let s := s.fetchSlot f slotGstat
      let f := f.setValue slotGstat v
      let f := f.setField slotChopconf chopMres (toMres f.cfg.microsteps.toNat)
      let s := s.setFile f
      let s := [slotGconf, slotChopconf, slotCoolconf, slotPwmconf, slotIholdIrun, slotTpowerdown,
        slotTpwmthrs].foldl (fun s i => s.sendSlot f i) s
      let c := currentScale f.cfg.rSense.toNat f.cfg.current.toNat f.cfg.holdPct.toNat
      let f := f.setField slotChopconf chopVsense c.vsense
      let f := f.setField slotIholdIrun ihIrun c.irun
      let f := f.setField slotIholdIrun ihIhold c.ihold
      let s := ((s.setFile f).sendSlot f slotChopconf).sendSlot f slotIholdIrun
      let saved := f.value slotChopconf
      let s := s.setSaved saved
      let v := s.readValue (f.addr slotChopconf)
      ((s.fetchSlot f slotChopconf).complete (flagWord (v == saved))).goto .idle

/-! ## Sound states -/

/-- What holds of a register file in every reachable state: the address tags are `REG_ADDR` (10_state.md R27),
`CFG.HOLD_PCT` is at most 100 (45_regaccess.md R249), `CFG.MICROSTEPS` is a power of two in [1, 256] (R35). -/
def RegFile.Sound (f : RegFile) : Prop :=
  (∀ i : Slot, f.addr i = regAddr[i]) ∧ f.cfg.holdPct.toNat ≤ 100 ∧
    ∃ k : Nat, k ≤ 8 ∧ f.cfg.microsteps.toNat = 2 ^ k

/-- `2^(8 - CHOPCONF.mres) = CFG.MICROSTEPS` (R35), with an mres in [0, 8]. -/
def RegFile.MresAgrees (f : RegFile) : Prop :=
  f.field slotChopconf chopMres ≤ 8 ∧ 2 ^ (8 - f.field slotChopconf chopMres) = f.cfg.microsteps.toNat

/-- What holds of an instance between commands: the FSM is IDLE (R47), `CMDSTAT` is OK or ILLEGAL (R44), the register file,
if there is one, is sound. -/
def Instance.Sound (x : Instance) : Prop :=
  x.initState = .idle ∧ (x.cmdstat = 0x00 ∨ x.cmdstat = 0x01) ∧ ∀ f, x.file = some f → f.Sound

/-- The simulator's map is in canonical form. -/
def Chip.Sound (c : Chip) : Prop :=
  match c with
  | .free => True
  | .scripted _ => True
  | .echo m => Memory.wf m = true
  | .stuck _ => True

/-- What holds of the machine between steps. -/
def State.Sound (s : State) : Prop :=
  s.cur < s.insts.length ∧ (∀ x ∈ s.insts, x.Sound) ∧ s.chip.Sound

end Sys2Proof.Machine
end

