-- ==== Sys2Proof/Certificates/Slice0/Obligations.lean ====
section
/-! DEFINITION. The statements for the provers, from the numbered rules of spec/. A next state is written
`(s.withMe x').withTraffic evs c`: the issuing instance is `x'`, the bus history has the events `evs` more, the agent behind
the bus is `c`, and everything else is as in `s`. An event's status and a read's value are the oracle's, so they are given by
an existential, or by `readValue` and `readStatus` where a hypothesis speaks of them. The host's queue, the issuer `cur`, the
agent `chip` and the count `draws` are the model's own (logs 1, 2, 5, 6). Register addresses, bit positions and default values
are the spec's, which marks them there as general knowledge or as its decisions (R25, R30 to R32, R36; logs 8 to 10). -/

open Sys2Proof Sys2Proof.Machine

/-! ## Encoding -/

/-- 30_encoding.md R84: the words the rule writes out for the commands without a word operand, and its three examples. -/
def Obligations.SpecWordsDecode : Prop :=
  decode 0x00000001 = .ok .loadDefaults ∧ decode 0x00000002 = .ok .ifInit ∧ decode 0x00000003 = .ok .hwInit ∧
  decode 0x00000010 = .ok .setCurrent ∧ decode 0x00000011 = .ok .getCurrent ∧
  decode 0x00000030 = .ok .setHybridThrs ∧ decode 0x00000031 = .ok .getTpwmthrs ∧
  decode 0x00000032 = .ok .setTpwmthrs ∧ decode 0x00000040 = .ok .setCotChopper ∧
  decode 0x00100021 = .ok (.setMsteps 16) ∧ decode 0x00000C51 = .ok (.readReg 12) ∧
  decode 0x00730054 = .ok (.getRegPtr 0x73)

/-- R80 to R82: the decoder reads every well-formed instruction from its word. -/
def Obligations.DecodeOfEncode : Prop := ∀ i : Instr, i.wellFormed = true → decode (encode i) = .ok i

/-- R82, R91: a word that decodes is the word of the instruction it decodes to, which is well-formed; so every instruction has
one word and every word at most one instruction. -/
def Obligations.EncodeOfDecode : Prop :=
  ∀ (w : Word) (i : Instr), decode w = .ok i → encode i = w ∧ i.wellFormed = true

/-- R84: the opcode map, row by row, with every legal value of the row's word operand. -/
def Obligations.OpcodeMapRows : Prop :=
  ∀ (n : Half) (sel : BitVec 5) (a : Byte),
    (decode 0x00000001 = .ok .loadDefaults ∧ decode 0x00000002 = .ok .ifInit ∧ decode 0x00000003 = .ok .hwInit) ∧
    (decode 0x00000010 = .ok .setCurrent ∧ decode 0x00000011 = .ok .getCurrent) ∧
    (decode (n ++ 0x0020#16) = .ok (.mstepsValid n) ∧ decode (n ++ 0x0021#16) = .ok (.setMsteps n)) ∧
    (decode 0x00000030 = .ok .setHybridThrs ∧ decode 0x00000031 = .ok .getTpwmthrs ∧
      decode 0x00000032 = .ok .setTpwmthrs) ∧
    decode 0x00000040 = .ok .setCotChopper ∧
    (sel.toNat < 31 →
      decode (0#19 ++ sel ++ 0x50#8) = .ok (.writeReg sel) ∧ decode (0#19 ++ sel ++ 0x51#8) = .ok (.readReg sel)) ∧
    (decode (0#8 ++ a ++ 0x0052#16) = .ok (.writeRegX a) ∧ decode (0#8 ++ a ++ 0x0053#16) = .ok (.readRegX a) ∧
      decode (0#8 ++ a ++ 0x0054#16) = .ok (.getRegPtr a)) ∧
    (sel.toNat < 31 →
      decode (0#19 ++ sel ++ 0x60#8) = .ok (.shadowRead sel) ∧
      decode (0#19 ++ sel ++ 0x61#8) = .ok (.shadowWrite sel)) ∧
    (sel.toNat ≤ 5 →
      decode (0#19 ++ sel ++ 0x62#8) = .ok (.configRead sel) ∧
      decode (0#19 ++ sel ++ 0x63#8) = .ok (.configWrite sel))

/-- R89: the reserved opcodes, and what writing a word with one to `CMD` does: the command is rejected (R90, R270), never a
no-op. That the write comes from a queue and that `cur` holds the issuer is the model's choice (logs 1, 2). -/
def Obligations.ReservedOpcodesRejected : Prop :=
  ∀ (s : State) (x : Instance) (k : Nat) (w : Word) (rest : List HostWrite),
    s.host = .cmd k w :: rest → s.insts[k]? = some x →
    (let o := w.toNat % 256
     o = 0x00 ∨ (0x04 ≤ o ∧ o ≤ 0x0F) ∨ (0x12 ≤ o ∧ o ≤ 0x1F) ∨ (0x22 ≤ o ∧ o ≤ 0x2F) ∨ (0x33 ≤ o ∧ o ≤ 0x3F) ∨
       (0x41 ≤ o ∧ o ≤ 0x4F) ∨ (0x55 ≤ o ∧ o ≤ 0x5F) ∨ (0x64 ≤ o ∧ o ≤ 0xFF)) →
    decode w = .error .reservedOpcode ∧
    step s = .next { s with host := rest, cur := k, insts := s.insts.set k { x with cmd := w, cmdstat := 0x01 } }

/-- R81: a word whose opcode is in the map is refused for its must-be-zero bits exactly when a bit its format requires to be 0
is not 0. -/
def Obligations.MustBeZeroBits : Prop :=
  ∀ w : Word,
    (w.toNat % 256 ∈ [0x01, 0x02, 0x03, 0x10, 0x11, 0x30, 0x31, 0x32, 0x40] →
      (decode w = .error .mustBeZero ↔ w.extractLsb' 8 24 ≠ 0)) ∧
    (w.toNat % 256 ∈ [0x50, 0x51, 0x60, 0x61, 0x62, 0x63] →
      (decode w = .error .mustBeZero ↔ w.extractLsb' 13 19 ≠ 0)) ∧
    (w.toNat % 256 ∈ [0x20, 0x21] → (decode w = .error .mustBeZero ↔ w.extractLsb' 8 8 ≠ 0)) ∧
    (w.toNat % 256 ∈ [0x52, 0x53, 0x54] →
      (decode w = .error .mustBeZero ↔ w.extractLsb' 8 8 ≠ 0 ∨ w.extractLsb' 24 8 ≠ 0))

/-- R87: the selector ranges, in words whose must-be-zero bits are 0: a selector in range decodes, one out of range is rejected,
and its write to `CMD` changes `CMD` and `CMDSTAT` only (R90, R270). That the write comes from a queue and that `cur` holds the
issuer is the model's choice (logs 1, 2). -/
def Obligations.SelectorRanges : Prop :=
  ∀ (s : State) (x : Instance) (k : Nat) (rest : List HostWrite) (sel : BitVec 5) (op : Byte),
    let w : Word := 0#19 ++ sel ++ op
    s.host = .cmd k w :: rest → s.insts[k]? = some x →
    ((op ∈ [0x50#8, 0x51, 0x60, 0x61] ∧ sel.toNat < 31) ∨ (op ∈ [0x62#8, 0x63] ∧ sel.toNat ≤ 5) →
      ∃ i, decode w = .ok i ∧ i.wellFormed = true) ∧
    ((op ∈ [0x50#8, 0x51, 0x60, 0x61] ∧ ¬ sel.toNat < 31) ∨ (op ∈ [0x62#8, 0x63] ∧ ¬ sel.toNat ≤ 5) →
      decode w = .error .selectorRange ∧
      step s = .next { s with host := rest, cur := k, insts := s.insts.set k { x with cmd := w, cmdstat := 0x01 } })

/-- R93, R94: the whole expansion of every line: the argument words the command uses, `ARG0` before `ARG1`, then a write to
`CMD` of the word of the command the line names. SET_CURRENT packs `{0, pct, mA}`, SET_COT_CHOPPER
`{off mod 2^8, fd, tbl, toff}`. -/
def Obligations.AssemblerMatchesEncoder : Prop :=
  ∀ (k : Nat) (n mA : Half) (pct toff tbl fd a : Byte) (off : Int) (v w cc : Word) (sel : BitVec 5),
    let line (l : AsmLine) (args : List HostWrite) (i : Instr) : Prop := expandLine k l = args ++ [.cmd k (encode i)]
    expandLine k (.wrArg0 v) = [.arg0 k v] ∧ expandLine k (.wrArg1 v) = [.arg1 k v] ∧ expandLine k (.wrCmd v) = [.cmd k v] ∧
    line .loadDefaults [] .loadDefaults ∧ line .ifInit [] .ifInit ∧ line .hwInit [] .hwInit ∧
    line (.setCurrent mA pct) [.arg0 k (0#8 ++ pct ++ mA)] .setCurrent ∧ line .getCurrent [] .getCurrent ∧
    line (.mstepsValid n) [] (.mstepsValid n) ∧ line (.setMsteps n) [] (.setMsteps n) ∧
    line (.setHybridThrs v w) [.arg0 k v, .arg1 k w] .setHybridThrs ∧ line (.getTpwmthrs w) [.arg1 k w] .getTpwmthrs ∧
    line (.setTpwmthrs v w) [.arg0 k v, .arg1 k w] .setTpwmthrs ∧
    line (.setCotChopper toff tbl fd off cc) [.arg0 k (BitVec.ofInt 8 off ++ fd ++ tbl ++ toff), .arg1 k cc]
      .setCotChopper ∧
    line (.writeReg sel) [] (.writeReg sel) ∧ line (.readReg sel) [] (.readReg sel) ∧
    line (.writeRegX a v) [.arg1 k v] (.writeRegX a) ∧ line (.readRegX a) [] (.readRegX a) ∧
    line (.getRegPtr a) [] (.getRegPtr a) ∧ line (.shadowRead sel) [] (.shadowRead sel) ∧
    line (.shadowWrite sel v) [.arg1 k v] (.shadowWrite sel) ∧ line (.configRead sel) [] (.configRead sel) ∧
    line (.configWrite sel v) [.arg1 k v] (.configWrite sel)

/-! ## Steps and checks -/

/-- R41, R270: a host write of a word that decodes to `i` runs `i`, with `CMD` holding the word and the written instance as
the issuer. That the write comes from a queue and that `cur` holds the issuer is the model's choice (logs 1, 2). -/
def Obligations.StepRunsDecodedCommand : Prop :=
  ∀ (s : State) (x : Instance) (k : Nat) (w : Word) (i : Instr) (rest : List HostWrite),
    s.host = .cmd k w :: rest → s.insts[k]? = some x → decode w = .ok i →
    step s = exec i { s with host := rest, cur := k, insts := s.insts.set k { x with cmd := w } }

/-- R82, R90 cases 1 to 3, R270: a host write of a word that does not decode changes `CMD` and `CMDSTAT` only (and the
model's queue and issuer, logs 1, 2). -/
def Obligations.UndecodableWordRejected : Prop :=
  ∀ (s : State) (x : Instance) (k : Nat) (w : Word) (e : DecodeError) (rest : List HostWrite),
    s.host = .cmd k w :: rest → s.insts[k]? = some x → decode w = .error e →
    step s = .next { s with host := rest, cur := k, insts := s.insts.set k { x with cmd := w, cmdstat := 0x01 } }

/-- R7, R285: with no host write pending, a step changes nothing; a host write of an argument word changes that word of that
instance (R42). R40, R41: what the host reads of an instance's command port. That a step takes one host write, that an idle
step is a step (log 1), and that a read of the write-only `CMD` has no value (log 21), is the model's choice. -/
def Obligations.IdleAndHostAccess : Prop :=
  ∀ s : State,
    (s.host = [] → step s = .next s) ∧
    ∀ (x : Instance) (k : Nat) (w : Word) (rest : List HostWrite), s.insts[k]? = some x →
      (s.host = .arg0 k w :: rest →
        step s = .next { s with host := rest, insts := s.insts.set k { x with arg0 := w } }) ∧
      (s.host = .arg1 k w :: rest →
        step s = .next { s with host := rest, insts := s.insts.set k { x with arg1 := w } }) ∧
      s.hostRead k .arg0 = some x.arg0 ∧ s.hostRead k .arg1 = some x.arg1 ∧ s.hostRead k .result = some x.result ∧
      s.hostRead k .cmdstat = some (0#24 ++ x.cmdstat) ∧ s.hostRead k .busstat = some (0#24 ++ x.busstat) ∧
      s.hostRead k .cmd = none

/-- R270, R262 code 1: a command that is not exempt faults with NOT_LOADED while `LOADED = 0`, whatever else holds. -/
def Obligations.NotLoadedFault : Prop :=
  ∀ (s : State) (x : Instance) (i : Instr), Issues s x → x.file = none → i.wellFormed = true → isExempt i = false →
    exec i s = .fault (.notLoaded s.cur x.cmd)

/-- R270, R262 code 2: a command of `IO_CMDS` faults with IO_NOT_INSTALLED while `IO_INSTALLED = 0`, after the LOADED check and
before its own checks. -/
def Obligations.IoNotInstalledFault : Prop :=
  ∀ (s : State) (x : Instance) (f : RegFile) (i : Instr), Loaded s x f → s.ioInstalled = false →
    i.wellFormed = true → isIoCmd i = true → exec i s = .fault (.ioNotInstalled s.cur x.cmd)

/-- R262: every fault is one of the table's rows: its commands, its condition, and a record of the issuing instance and its
command word. -/
def Obligations.FaultsAreTheTable : Prop :=
  ∀ (s : State) (i : Instr) (r : Fault), exec i s = .fault r →
    ∃ x, Issues s x ∧ r.record = (s.cur, r.code, x.cmd) ∧
      ((r.code = 1 ∧ isExempt i = false ∧ x.file = none) ∨
       (r.code = 2 ∧ isIoCmd i = true ∧ s.ioInstalled = false) ∨
       (r.code = 3 ∧ i = .ifInit ∧ s.ioInstalled = true) ∨
       (r.code = 4 ∧ i = .setCurrent ∧ (x.arg0.extractLsb' 16 8).toNat > 100) ∨
       (r.code = 5 ∧ (i = .setHybridThrs ∨ i = .setTpwmthrs) ∧ x.arg0 ≠ 0 ∧ x.arg1 = 0) ∨
       (r.code = 5 ∧ i = .getTpwmthrs ∧ x.arg1 = 0 ∧ ∃ f, x.file = some f ∧ f.field slotTpwmthrs tpTpwmthrs ≠ 0) ∨
       (r.code = 6 ∧ (i = .setHybridThrs ∨ i = .setTpwmthrs) ∧ x.arg0 ≠ 0 ∧ x.arg1 ≠ 0 ∧ ∃ f, x.file = some f ∧
         2 ^ 20 * (256 * x.arg0.toNat * x.arg1.toNat) ≤ f.cfg.fClk.toNat * f.cfg.microsteps.toNat * 2 ^ 32) ∨
       (r.code = 6 ∧ i = .getTpwmthrs ∧ x.arg1 ≠ 0 ∧ ∃ f, x.file = some f ∧
         f.field slotTpwmthrs tpTpwmthrs ≠ 0 ∧
         2 ^ 32 * (256 * f.field slotTpwmthrs tpTpwmthrs * x.arg1.toNat)
           ≤ f.cfg.fClk.toNat * f.cfg.microsteps.toNat * 2 ^ 32))

/-- R90, R43, R44: a command that answers a next state has either completed, and `CMDSTAT` is 0x00, or been rejected, and the
state is the one before it but for `CMDSTAT = 0x01`. -/
def Obligations.CompletedOrOnlyCmdstat : Prop :=
  ∀ (s t : State) (i : Instr), exec i s = .next t →
    ∃ x, Issues s x ∧ ((∃ y, Issues t y ∧ y.cmdstat = 0x00) ∨ t = s.withMe { x with cmdstat := 0x01 })

/-! ## Reset, defaults, interface install -/

/-- 70_reset_and_hazards.md R300: reset of a block of `n` instances; `State.reset` is such a block. -/
def Obligations.ResetValues : Prop :=
  (∀ (n : Nat) (c : Chip),
    (State.resetWith n c).ioInstalled = false ∧ (State.resetWith n c).history = [] ∧
    (State.resetWith n c).insts.length = n ∧
    ∀ x ∈ (State.resetWith n c).insts, x.loaded = false ∧ x.file = none ∧ x.cmd = 0 ∧ x.arg0 = 0 ∧ x.arg1 = 0 ∧
      x.result = 0 ∧ x.cmdstat = 0 ∧ x.busstat = 0 ∧ x.initState.code = 0 ∧ x.savedChopconf = 0) ∧
  ∃ n c, 1 ≤ n ∧ State.reset = State.resetWith n c

/-- 40_init.md R110, R111: LOAD_DEFAULTS, at any time, writes the tables of 10_state.md R25 and R36 and makes no transaction.
The addresses are "the TMC2130 register addresses" the spec takes from general knowledge (log 8), the values its decision D7
(log 10). -/
def Obligations.LoadDefaultsCompletes : Prop :=
  ∀ (s : State) (x : Instance), Issues s x →
    ∃ f : RegFile,
      exec .loadDefaults s = .next (s.withMe { x with file := some f, initState := .idle, result := 0, cmdstat := 0x00 }) ∧
      f.sh.toList.map Datagram.addr =
        [0x00, 0x01, 0x04, 0x10, 0x11, 0x12, 0x13, 0x14, 0x15, 0x33, 0x6A, 0x6B, 0x6C, 0x6D, 0x6E, 0x6F, 0x70, 0x71, 0x73,
         0x2D, 0x60, 0x61, 0x62, 0x63, 0x64, 0x65, 0x66, 0x67, 0x68, 0x69, 0x72] ∧
      f.sh.toList.map Datagram.value =
        [0x00000004, 0, 0, 0x00061008, 0x00000080, 0, 0, 0, 0, 0, 0, 0, 0x140100C3, 0, 0, 0, 0x00050480, 0, 0,
         0, 0, 0, 0, 0, 0, 0, 0, 0, 0, 0, 0] ∧
      f.cfg = ⟨12000000, 110, 0, 500, 50, 16⟩

/-- R115: IF_INIT installs the transport for every instance, and a second IF_INIT faults with IO_REINSTALL. -/
def Obligations.IfInitCompletesOnce : Prop :=
  ∀ (s : State) (x : Instance), Issues s x →
    (s.ioInstalled = false →
      exec .ifInit s = .next { s with ioInstalled := true, insts := s.insts.set s.cur (x.completed 0) }) ∧
    (s.ioInstalled = true → exec .ifInit s = .fault (.ioReinstall s.cur x.cmd))

/-! ## HW_INIT -/

/-- R120, R121: the FSM does what the straight-line form of R120 does, from every state in which HW_INIT runs. -/
def Obligations.HwInitFsmIsStraightLine : Prop :=
  ∀ (s : State) (x : Instance) (f : RegFile), Loaded s x f → exec .hwInit s = .next (hwInitStraight s f)

/-- R121 CHK_IO, R122, R128: the two early exits of HW_INIT. With no transport it completes with 0 and makes no transaction.
With one, the chip is taken as absent when DRV_STATUS reads all zeros or all ones, whatever the status: then one transaction,
the value kept in its slot, and 0. -/
def Obligations.HwInitEarlyExits : Prop :=
  ∀ (s : State) (x : Instance) (f : RegFile), Loaded s x f →
    let a := f.addr slotDrvStatus
    (s.ioInstalled = false →
      exec .hwInit s = .next (s.withMe { x with initState := .idle, result := 0, cmdstat := 0x00 })) ∧
    (s.ioInstalled = true → (s.readValue a = 0x00000000 ∨ s.readValue a = 0xFFFFFFFF) →
      ∃ c, exec .hwInit s = .next ((s.withMe { x with
          file := some (f.setValue slotDrvStatus (s.readValue a))
          busstat := s.readStatus a, initState := .idle, result := 0, cmdstat := 0x00 }).withTraffic
        [⟨s.cur, .R, a, s.readValue a, s.readStatus a⟩] c))

/-- R120, R128, R123 to R126: with the chip present HW_INIT makes the twelve transactions in the rule's order, sends each
register's shadow value with mres, vsense, irun and ihold recomputed, re-reads CHOPCONF into its slot, and completes with 1
exactly when the re-read equals what was written last. The addresses of R128 are the tags' (R27), a premise here. -/
def Obligations.HwInitChipPresent : Prop :=
  ∀ (s : State) (x : Instance) (f : RegFile), Ready s x f → (∀ i : Slot, f.addr i = regAddr[i]) →
    s.readValue 0x6F ≠ 0x00000000 → s.readValue 0x6F ≠ 0xFFFFFFFF →
    ∃ (g v : Word) (f' : RegFile) (c : Chip) (t1 t2 t3 t4 t5 t6 t7 t8 t9 t10 t11 t12 : Byte),
      let k := currentScale f.cfg.rSense.toNat f.cfg.current.toNat f.cfg.holdPct.toNat
      let chop := putField chopMres (f.value slotChopconf) (toMres f.cfg.microsteps.toNat)
      let chop' := putField chopVsense chop k.vsense
      let ih := f.value slotIholdIrun
      let ih' := putField ihIhold (putField ihIrun ih k.irun) k.ihold
      exec .hwInit s = .next ((s.withMe { x with
          file := some f', savedChopconf := chop', busstat := t12, initState := .idle
          result := if v = chop' then 1 else 0, cmdstat := 0x00 }).withTraffic
        [⟨s.cur, .R, 0x6F, s.readValue 0x6F, t1⟩, ⟨s.cur, .R, 0x01, g, t2⟩,
         ⟨s.cur, .W, 0x00, f.value slotGconf, t3⟩, ⟨s.cur, .W, 0x6C, chop, t4⟩,
         ⟨s.cur, .W, 0x6D, f.value slotCoolconf, t5⟩, ⟨s.cur, .W, 0x70, f.value slotPwmconf, t6⟩,
         ⟨s.cur, .W, 0x10, ih, t7⟩, ⟨s.cur, .W, 0x11, f.value slotTpowerdown, t8⟩,
         ⟨s.cur, .W, 0x13, f.value slotTpwmthrs, t9⟩, ⟨s.cur, .W, 0x6C, chop', t10⟩,
         ⟨s.cur, .W, 0x10, ih', t11⟩, ⟨s.cur, .R, 0x6C, v, t12⟩] c) ∧
      f.SameBut f' [1, 3, 12, 15] ∧ f'.value slotDrvStatus = s.readValue 0x6F ∧ f'.value slotGstat = g ∧
      f'.value slotIholdIrun = ih' ∧ f'.value slotChopconf = v

/-- R311: after a HW_INIT with `RESULT = 1`, the chip has been sent GCONF, CHOPCONF, COOLCONF, PWMCONF, IHOLD_IRUN, TPOWERDOWN
and TPWMTHRS, then CHOPCONF and IHOLD_IRUN again; the shadow CHOPCONF holds the value last written and last read; its mres
agrees with `CFG.MICROSTEPS`, which was a power of two in [1, 256] before (10_state.md R35, part of State.Sound). -/
def Obligations.HwInitSuccess : Prop :=
  ∀ (s t : State) (x y : Instance) (f g : RegFile), Loaded s x f → f.Sound → exec .hwInit s = .next t →
    Loaded t y g → y.result = 1 →
    g.value slotChopconf = y.savedChopconf ∧ g.MresAgrees ∧
    ∃ (evs : List BusEvent) (e1 e2 e3 : BusEvent), t.history = s.history ++ evs ++ [e1, e2, e3] ∧
      (evs.filter (fun e => e.kind == .W)).map BusEvent.addr = [0x00, 0x6C, 0x6D, 0x70, 0x10, 0x11, 0x13] ∧
      e1.kind = .W ∧ e1.addr = 0x6C ∧ e1.value = g.value slotChopconf ∧ e2.kind = .W ∧ e2.addr = 0x10 ∧
      e2.value = g.value slotIholdIrun ∧ e3.kind = .R ∧ e3.addr = 0x6C ∧ e3.value = g.value slotChopconf

/-! ## Current scaling -/

/-- 41_current.md R141: the scale is exact. With `K = (R + 20) * 32 * mA`, so that `1000 * maxV = K * sqrt 2`, let
`n = floor(maxV / 325)` and `m = floor(maxV / 180)`, given by their squares. -/
def Obligations.CurrentScaleExact : Prop :=
  ∀ r mA pct n m : Nat,
    let k := (r + 20) * 32 * mA
    (325000 * n) ^ 2 ≤ 2 * k ^ 2 → 2 * k ^ 2 < (325000 * (n + 1)) ^ 2 →
    (180000 * m) ^ 2 ≤ 2 * k ^ 2 → 2 * k ^ 2 < (180000 * (m + 1)) ^ 2 →
    currentScale r mA pct =
      if n < 17 then ⟨1, min (m - 1) 31, min (m - 1) 31 * pct / 100⟩
      else ⟨0, min (n - 1) 31, min (n - 1) 31 * pct / 100⟩

/-- R149: the vsense boundary is at `S = 5525000`, and with 110 mOhm between 939 and 940 mA. -/
def Obligations.VsenseBoundary : Prop :=
  (∀ r mA pct : Nat, ((currentScale r mA pct).vsense = 0 ↔ scaleOn (scaleRoot r mA) 325000 ≥ 16) ∧
    ((currentScale r mA pct).vsense = 0 ↔ scaleRoot r mA ≥ 5525000)) ∧
  (∀ pct : Nat, scaleRoot 110 939 = 5524257 ∧ (currentScale 110 939 pct).vsense = 1 ∧
    (currentScale 110 939 pct).irun = 29 ∧ scaleRoot 110 940 = 5530140 ∧ (currentScale 110 940 pct).vsense = 0 ∧
    (currentScale 110 940 pct).irun = 16)

/-- R148: with vsense set the scale never needs the upper clamp, with vsense clear never the lower. -/
def Obligations.ClampsNotNeeded : Prop :=
  ∀ r mA pct : Nat,
    ((currentScale r mA pct).vsense = 1 → scaleChosen (scaleRoot r mA) ≤ 29) ∧
    ((currentScale r mA pct).vsense = 0 → scaleChosen (scaleRoot r mA) ≥ 16)

/-- R140, R142: SET_CURRENT with a hold percentage up to 100 stores its operands, writes vsense, irun and ihold and nothing
else of the shadow, and sends CHOPCONF, then IHOLD_IRUN. -/
def Obligations.SetCurrentCompletes : Prop :=
  ∀ (s : State) (x : Instance) (f : RegFile), Ready s x f → (x.arg0.extractLsb' 16 8).toNat ≤ 100 →
    ∃ (f' : RegFile) (c : Chip) (t1 t2 : Byte),
      let mA := x.arg0.extractLsb' 0 16
      let pct := x.arg0.extractLsb' 16 8
      let k := currentScale f.cfg.rSense.toNat mA.toNat pct.toNat
      exec .setCurrent s = .next ((s.withMe { x with
          file := some f', busstat := t2, result := 0, cmdstat := 0x00 }).withTraffic
        [⟨s.cur, .W, f.addr slotChopconf, f'.value slotChopconf, t1⟩,
         ⟨s.cur, .W, f.addr slotIholdIrun, f'.value slotIholdIrun, t2⟩] c) ∧
      f'.cfg = { f.cfg with current := mA, holdPct := pct } ∧
      f'.value slotChopconf = putField chopVsense (f.value slotChopconf) k.vsense ∧
      f'.value slotIholdIrun = putField ihIhold (putField ihIrun (f.value slotIholdIrun) k.irun) k.ihold ∧
      (∀ i : Slot, f'.addr i = f.addr i) ∧ ∀ i : Slot, i.val ≠ 3 → i.val ≠ 12 → f'.value i = f.value i

/-- R144: SET_CURRENT with a hold percentage above 100 faults. -/
def Obligations.SetCurrentHoldRange : Prop :=
  ∀ (s : State) (x : Instance) (f : RegFile), Ready s x f → (x.arg0.extractLsb' 16 8).toNat > 100 →
    exec .setCurrent s = .fault (.holdPctRange s.cur x.cmd)

/-- R145, R146: GET_CURRENT returns `g = floor(N / (D * sqrt 2))`, given by its square, which fits 16 bits, and changes
nothing but `RESULT` and `CMDSTAT`. -/
def Obligations.GetCurrentCompletes : Prop :=
  ∀ (s : State) (x : Instance) (f : RegFile), Loaded s x f →
    ∃ g : Nat,
      let vfs := if f.field slotChopconf chopVsense = 1 then 180 else 325
      let n := (f.field slotIholdIrun ihIrun + 1) * vfs * 1000
      let d := 32 * (f.cfg.rSense.toNat + 20)
      exec .getCurrent s = .next (s.withMe (x.completed (BitVec.ofNat 32 g))) ∧
      (2 * d * g) ^ 2 ≤ 2 * n ^ 2 ∧ 2 * n ^ 2 < (2 * d * (g + 1)) ^ 2 ∧ g ≤ 11490

/-- R147: GET_CURRENT right after SET_CURRENT with an unclamped scale returns `g` with `mA - ceil(c) ≤ g ≤ mA`, where `c` is
one irun step: every `n` with `n ≥ c`, that is `(Vfs * 1000)^2 ≤ 2 * (32 * (R + 20) * n)^2`, has `mA ≤ g + n`. -/
def Obligations.CurrentRoundTrip : Prop :=
  ∀ (s t u : State) (x z : Instance) (f : RegFile),
    Loaded s x f → exec .setCurrent s = .next t → exec .getCurrent t = .next u → Issues u z →
    let r := f.cfg.rSense.toNat
    let mA := (x.arg0.extractLsb' 0 16).toNat
    let scale := scaleChosen (scaleRoot r mA)
    let vfs := if scaleOn (scaleRoot r mA) 325000 < 16 then 180 else 325
    0 ≤ scale → scale ≤ 31 →
    z.result.toNat ≤ mA ∧ ∀ n : Nat, (vfs * 1000) ^ 2 ≤ 2 * (32 * (r + 20) * n) ^ 2 → mA ≤ z.result.toNat + n

/-! ## Microstepping -/

/-- 42_microstep.md R160, R161: MSTEPS_VALID, in every state, is 1 exactly for a power of two in [1, 256]. -/
def Obligations.MstepsValidCompletes : Prop :=
  ∀ (s : State) (x : Instance) (n : Half), Issues s x →
    ((∃ k, k ≤ 8 ∧ n.toNat = 2 ^ k) → exec (.mstepsValid n) s = .next (s.withMe (x.completed 1))) ∧
    ((¬ ∃ k, k ≤ 8 ∧ n.toNat = 2 ^ k) → exec (.mstepsValid n) s = .next (s.withMe (x.completed 0)))

/-- R165, R166: SET_MSTEPS stores the largest power of two that divides its operand, capped at 256 (and 1 for 0), its mres,
and nothing else, and sends CHOPCONF. -/
def Obligations.SetMstepsCompletes : Prop :=
  ∀ (s : State) (x : Instance) (f : RegFile) (n : Half), Ready s x f →
    ∃ (k : Nat) (f' : RegFile) (c : Chip) (t : Byte),
      exec (.setMsteps n) s = .next ((s.withMe { x with
          file := some f', busstat := t, result := 0, cmdstat := 0x00 }).withTraffic
        [⟨s.cur, .W, f.addr slotChopconf, f'.value slotChopconf, t⟩] c) ∧
      k ≤ 8 ∧ (n = 0 → k = 0) ∧ (n ≠ 0 → 2 ^ k ∣ n.toNat ∧ (k < 8 → ¬ 2 ^ (k + 1) ∣ n.toNat)) ∧
      f'.cfg = { f.cfg with microsteps := BitVec.ofNat 16 (2 ^ k) } ∧
      f'.value slotChopconf = putField chopMres (f.value slotChopconf) (8 - k) ∧
      (∀ i : Slot, f'.addr i = f.addr i) ∧ ∀ i : Slot, i.val ≠ 12 → f'.value i = f.value i

/-- R168: for every power of two in [1, 256], `2^(8 - to_mres(n)) = n`, and SET_MSTEPS followed by CONFIG_READ of MICROSTEPS
returns `n`. -/
def Obligations.PowerOfTwoMstepsReadBack : Prop :=
  ∀ k : Nat, k ≤ 8 →
    2 ^ (8 - toMres (2 ^ k)) = 2 ^ k ∧
    ∀ (s t : State) (x : Instance) (f : RegFile), Ready s x f → exec (.setMsteps (BitVec.ofNat 16 (2 ^ k))) s = .next t →
      ∃ y g, Loaded t y g ∧ g.cfg.microsteps.toNat = 2 ^ k ∧
        exec (.configRead 5) t = .next (t.withMe (y.completed (BitVec.ofNat 32 (2 ^ k))))

/-! ## Velocity thresholds -/

/-- 43_threshold.md R180, R181, R187: SET_HYBRID_THRS and SET_TPWMTHRS, for a zero velocity or a threshold `q` that fits 20 bits,
store it in `tpwmthrs` and nothing else, and send TPWMTHRS. `q` is the floor of `F * ms * 2^32 / (256 * V * S)`. -/
def Obligations.SetThresholdCompletes : Prop :=
  ∀ (s : State) (x : Instance) (f : RegFile) (i : Instr) (q : Nat), Ready s x f →
    (i = .setHybridThrs ∨ i = .setTpwmthrs) →
    (let p := f.cfg.fClk.toNat * f.cfg.microsteps.toNat * 2 ^ 32
     let d := 256 * x.arg0.toNat * x.arg1.toNat
     (x.arg0 = 0 ∧ q = 0) ∨
       (x.arg0 ≠ 0 ∧ x.arg1 ≠ 0 ∧ q * d ≤ p ∧ p < (q + 1) * d ∧ q ≤ 0xFFFFF)) →
    ∃ (f' : RegFile) (c : Chip) (t : Byte),
      exec i s = .next ((s.withMe { x with
          file := some f', busstat := t, result := 0, cmdstat := 0x00 }).withTraffic
        [⟨s.cur, .W, f.addr slotTpwmthrs, f'.value slotTpwmthrs, t⟩] c) ∧
      f.SameBut f' [6] ∧ f'.value slotTpwmthrs = putField tpTpwmthrs (f.value slotTpwmthrs) q

/-- R180, R271: with a non-zero velocity, zero steps per mm fault with DIV_ZERO, and a threshold above 0xFFFFF with RANGE. -/
def Obligations.SetThresholdFaults : Prop :=
  ∀ (s : State) (x : Instance) (f : RegFile) (i : Instr), Ready s x f → (i = .setHybridThrs ∨ i = .setTpwmthrs) →
    x.arg0 ≠ 0 →
    (x.arg1 = 0 → exec i s = .fault (.divZero s.cur x.cmd)) ∧
    (x.arg1 ≠ 0 →
      0x100000 * (256 * x.arg0.toNat * x.arg1.toNat) ≤ f.cfg.fClk.toNat * f.cfg.microsteps.toNat * 2 ^ 32 →
      exec i s = .fault (.range s.cur x.cmd))

/-- R182: doubling the velocity halves the threshold, when neither conversion faults. -/
def Obligations.ThresholdHalves : Prop :=
  ∀ fClk ms v steps t t' : Nat, v ≠ 0 → steps ≠ 0 → velToThr fClk ms v steps = .value t →
    velToThr fClk ms (2 * v) steps = .value t' → t' = t / 2

/-- R184: GET_TPWMTHRS with a stored threshold `T` returns 0 for `T = 0`, else the floor of
`F * ms * 2^32 / (256 * T * ARG1)` if it fits 32 bits, and changes nothing but `RESULT` and `CMDSTAT`; else it faults, with
DIV_ZERO for zero steps per mm and RANGE for a velocity of 2^32 or more. -/
def Obligations.GetTpwmthrsOutcomes : Prop :=
  ∀ (s : State) (x : Instance) (f : RegFile), Loaded s x f →
    let p := f.cfg.fClk.toNat * f.cfg.microsteps.toNat * 2 ^ 32
    let d := 256 * f.field slotTpwmthrs tpTpwmthrs * x.arg1.toNat
    (f.field slotTpwmthrs tpTpwmthrs = 0 → exec .getTpwmthrs s = .next (s.withMe (x.completed 0))) ∧
    (f.field slotTpwmthrs tpTpwmthrs ≠ 0 →
      (x.arg1 = 0 → exec .getTpwmthrs s = .fault (.divZero s.cur x.cmd)) ∧
      (x.arg1 ≠ 0 →
        (∀ w : Nat, w * d ≤ p → p < (w + 1) * d → w < 2 ^ 32 →
          exec .getTpwmthrs s = .next (s.withMe (x.completed (BitVec.ofNat 32 w)))) ∧
        (2 ^ 32 * d ≤ p → exec .getTpwmthrs s = .fault (.range s.cur x.cmd))))

/-- R185: GET_TPWMTHRS right after a SET_HYBRID_THRS that stored a non-zero threshold for a non-zero velocity returns at least
that velocity. -/
def Obligations.ThresholdRoundTrip : Prop :=
  ∀ (s t u : State) (x y z : Instance) (g : RegFile), Issues s x → x.arg0 ≠ 0 → exec .setHybridThrs s = .next t →
    Loaded t y g → g.field slotTpwmthrs tpTpwmthrs ≥ 1 → exec .getTpwmthrs t = .next u → Issues u z →
    x.arg0.toNat ≤ z.result.toNat

/-! ## Chopper -/

/-- 44_chopper.md R200 to R206: SET_COT_CHOPPER writes the clamped and quantised fields into CHOPCONF and sends it. -/
def Obligations.SetCotChopperCompletes : Prop :=
  ∀ (s : State) (x : Instance) (f : RegFile), Ready s x f →
    ∃ (v : Word) (c : Chip) (t : Byte),
      let off := (x.arg0.extractLsb' 0 8).toNat
      let blank := (x.arg0.extractLsb' 8 8).toNat
      let fd := min (x.arg0.extractLsb' 16 8).toNat 15
      let sw := (x.arg0.extractLsb' 24 8).toInt
      exec .setCotChopper s = .next ((s.withMe { x with
          file := some (f.setValue slotChopconf v), busstat := t, result := 0, cmdstat := 0x00 }).withTraffic
        [⟨s.cur, .W, f.addr slotChopconf, v, t⟩] c) ∧
      getField chopChm v = 1 ∧
      (54 ≤ blank → getField chopTbl v = 3) ∧ (36 ≤ blank → blank ≤ 53 → getField chopTbl v = 2) ∧
      (24 ≤ blank → blank ≤ 35 → getField chopTbl v = 1) ∧ (blank ≤ 23 → getField chopTbl v = 0) ∧
      getField chopToff v = min (max off 2) 15 ∧
      getField chopFd3 v = fd / 8 ∧ getField chopHstrt v = fd % 8 ∧
      (getField chopHend v : Int) = min (max sw (-3)) 12 + 3 ∧
      getField chopRndtf v = 1 - (x.arg1.extractLsb' 0 1).toNat

/-- R207: SET_COT_CHOPPER leaves every other CHOPCONF field, and every other register, unchanged. -/
def Obligations.SetCotChopperKeepsOtherFields : Prop :=
  ∀ (s t : State) (x y : Instance) (f g : RegFile), Loaded s x f → exec .setCotChopper s = .next t → Loaded t y g →
    f.SameBut g [12] ∧
    ∀ b ∈ [chopDisfdcc, chopVsense, chopVhighfs, chopVhighchm, chopSync, chopMres, chopIntpol, chopDedge, chopDiss2g,
        chopReserved], g.field slotChopconf b = f.field slotChopconf b

/-! ## Register access, shadow, configuration -/

/-- 45_regaccess.md R220, R221: WRITE_REG of every slot. -/
def Obligations.WriteRegCompletes : Prop :=
  ∀ (s : State) (x : Instance) (f : RegFile) (sel : BitVec 5) (i : Slot), Ready s x f → sel.toNat = i.val →
    ∃ (t : Byte) (c : Chip),
      exec (.writeReg sel) s = .next ((s.withMe { x with
          busstat := t, result := t.setWidth 32, cmdstat := 0x00 }).withTraffic
        [⟨s.cur, .W, f.addr i, f.value i, t⟩] c)

/-- R221, R222: READ_REG of every slot: the value read goes into the slot whatever the status is. -/
def Obligations.ReadRegCompletes : Prop :=
  ∀ (s : State) (x : Instance) (f : RegFile) (sel : BitVec 5) (i : Slot), Ready s x f → sel.toNat = i.val →
    ∃ (v : Word) (t : Byte) (c : Chip) (f' : RegFile),
      exec (.readReg sel) s = .next ((s.withMe { x with
          file := some f', busstat := t, result := t.setWidth 32, cmdstat := 0x00 }).withTraffic
        [⟨s.cur, .R, f.addr i, v, t⟩] c) ∧
      f.SameBut f' [i.val] ∧ f'.value i = v

/-- R226 to R229: WRITE_REG_X and READ_REG_X of every address; the shadow is not touched. -/
def Obligations.RegXCompletes : Prop :=
  ∀ (s : State) (x : Instance) (f : RegFile) (a : Byte), Ready s x f →
    (∃ (t : Byte) (c : Chip),
      exec (.writeRegX a) s = .next ((s.withMe { x with
          busstat := t, result := t.setWidth 32, cmdstat := 0x00 }).withTraffic [⟨s.cur, .W, a, x.arg1, t⟩] c)) ∧
    ∃ (v : Word) (t : Byte) (c : Chip),
      exec (.readRegX a) s = .next ((s.withMe { x with
          busstat := t, result := v, cmdstat := 0x00 }).withTraffic [⟨s.cur, .R, a, v, t⟩] c)

/-- R235, R236, R237: GET_REG_PTR returns the first of slots 0 to 18 whose tag is the address, with bit 31 set, or 0. -/
def Obligations.GetRegPtrScans : Prop :=
  ∀ (s : State) (x : Instance) (f : RegFile) (a : Byte), Loaded s x f →
    (∀ i : Slot, i.val ≤ 18 → f.addr i = a → (∀ j : Slot, j.val < i.val → f.addr j ≠ a) →
      exec (.getRegPtr a) s = .next (s.withMe (x.completed (0x80000000 + BitVec.ofNat 32 i.val)))) ∧
    ((∀ i : Slot, i.val ≤ 18 → f.addr i ≠ a) →
      exec (.getRegPtr a) s = .next (s.withMe (x.completed 0)))

/-- R239, R238: with the address tags of R27, GET_REG_PTR finds exactly the nineteen addresses up to LOST_STEPS, each at its
slot, and no optional register. -/
def Obligations.GetRegPtrTable : Prop :=
  ∀ (s : State) (x : Instance) (f : RegFile) (a : Byte), Loaded s x f → (∀ i : Slot, f.addr i = regAddr[i]) →
    exec (.getRegPtr a) s = .next (s.withMe (x.completed
      (match [0x00#8, 0x01, 0x04, 0x10, 0x11, 0x12, 0x13, 0x14, 0x15, 0x33, 0x6A, 0x6B, 0x6C, 0x6D, 0x6E, 0x6F, 0x70, 0x71,
          0x73].idxOf? a with
       | some i => 0x80000000 + BitVec.ofNat 32 i
       | none => 0)))

/-- R240, R246: SHADOW_READ of every slot and CONFIG_READ of every id return the value, zero-extended, and change nothing but
`RESULT` and `CMDSTAT`. -/
def Obligations.ShadowAndConfigReadComplete : Prop :=
  ∀ (s : State) (x : Instance) (f : RegFile), Loaded s x f →
    (∀ (sel : BitVec 5) (i : Slot), sel.toNat = i.val →
      exec (.shadowRead sel) s = .next (s.withMe (x.completed (f.value i)))) ∧
    exec (.configRead 0) s = .next (s.withMe (x.completed f.cfg.fClk)) ∧
    exec (.configRead 1) s = .next (s.withMe (x.completed (f.cfg.rSense.setWidth 32))) ∧
    exec (.configRead 2) s = .next (s.withMe (x.completed (f.cfg.coolstepEn.setWidth 32))) ∧
    exec (.configRead 3) s = .next (s.withMe (x.completed (f.cfg.current.setWidth 32))) ∧
    exec (.configRead 4) s = .next (s.withMe (x.completed (f.cfg.holdPct.setWidth 32))) ∧
    exec (.configRead 5) s = .next (s.withMe (x.completed (f.cfg.microsteps.setWidth 32)))

/-- R242, R243: SHADOW_WRITE stores `ARG1` in the slot without a transaction; into CHOPCONF only with the mres of
`CFG.MICROSTEPS`, else it is rejected. -/
def Obligations.ShadowWriteOutcomes : Prop :=
  ∀ (s : State) (x : Instance) (f : RegFile) (sel : BitVec 5) (i : Slot), Loaded s x f → sel.toNat = i.val →
    (i.val ≠ 12 ∨ (x.arg1.extractLsb' 24 4).toNat = toMres f.cfg.microsteps.toNat →
      ∃ f', exec (.shadowWrite sel) s = .next (s.withMe { x with file := some f', result := 0, cmdstat := 0x00 }) ∧
        f.SameBut f' [i.val] ∧ f'.value i = x.arg1) ∧
    (i.val = 12 ∧ (x.arg1.extractLsb' 24 4).toNat ≠ toMres f.cfg.microsteps.toNat →
      exec (.shadowWrite sel) s = .next (s.withMe { x with cmdstat := 0x01 }))

/-- R248: CONFIG_WRITE stores a value its scalar can hold and rejects every other, and rejects id 5. -/
def Obligations.ConfigWriteOutcomes : Prop :=
  ∀ (s : State) (x : Instance) (f : RegFile), Loaded s x f →
    let stored (c : Cfg) : Out :=
      .next (s.withMe { x with file := some { f with cfg := c }, result := 0, cmdstat := 0x00 })
    let rejected : Out := .next (s.withMe { x with cmdstat := 0x01 })
    let v := x.arg1.toNat
    exec (.configWrite 0) s = stored { f.cfg with fClk := x.arg1 } ∧
    (v ≤ 0xFFFF → exec (.configWrite 1) s = stored { f.cfg with rSense := BitVec.ofNat 16 v }) ∧
    (v > 0xFFFF → exec (.configWrite 1) s = rejected) ∧
    (v ≤ 1 → exec (.configWrite 2) s = stored { f.cfg with coolstepEn := BitVec.ofNat 1 v }) ∧
    (v > 1 → exec (.configWrite 2) s = rejected) ∧
    (v ≤ 0xFFFF → exec (.configWrite 3) s = stored { f.cfg with current := BitVec.ofNat 16 v }) ∧
    (v > 0xFFFF → exec (.configWrite 3) s = rejected) ∧
    (v ≤ 100 → exec (.configWrite 4) s = stored { f.cfg with holdPct := BitVec.ofNat 8 v }) ∧
    (v > 100 → exec (.configWrite 4) s = rejected) ∧
    exec (.configWrite 5) s = rejected

/-- R87, R90 case 3: the meaning of an instruction with an out-of-range selector is the rejection too. No word decodes to one:
that `exec` answers so is the model's choice (log 18). -/
def Obligations.IllFormedRejected : Prop :=
  ∀ (s : State) (x : Instance) (i : Instr), Issues s x → i.wellFormed = false →
    exec i s = .next (s.withMe { x with cmdstat := 0x01 })

/-! ## Frames -/

/-- 10_state.md R21, R41, 60_exceptions.md R283: no command changes another instance, the number of instances, or the issuer's
`CMD`, `ARG0` and `ARG1`. -/
def Obligations.CommandsStayInTheirInstance : Prop :=
  ∀ (s t : State) (i : Instr), exec i s = .next t →
    SameElsewhere s t ∧ ∃ x y, Issues s x ∧ Issues t y ∧ y.cmd = x.cmd ∧ y.arg0 = x.arg0 ∧ y.arg1 = x.arg1

/-- R45, R330: the commands that make no transaction leave the bus history, the agent behind the bus and `BUSSTAT` unchanged. -/
def Obligations.SilentCommandsFrame : Prop :=
  ∀ (s t : State) (i : Instr), exec i s = .next t → transactionCount i 0 → i ≠ .hwInit →
    NoTraffic s t ∧ ∃ x y, Issues s x ∧ Issues t y ∧ y.busstat = x.busstat

/-- R330, R63, R64, R70: a command's transactions are added at the end of the history, all by the issuing instance, as many as
the table gives (none when it is rejected), and `BUSSTAT` holds the last one's status (R45). R62, R65, R66: each event carries
the status, and for a read the value, that the agent behind the bus answers at that point, given all transactions before it,
and the agent after the command is the one these requests leave. Together with the history in the completion statements this
fixes their statuses, read values and final agent. The agent and the draw count are the model's own (logs 5, 6). -/
def Obligations.TransactionCounts : Prop :=
  ∀ (s t : State) (i : Instr), exec i s = .next t →
    ∃ (x y : Instance) (evs : List BusEvent), Issues s x ∧ Issues t y ∧ t.history = s.history ++ evs ∧
      (∀ e ∈ evs, e.inst = s.cur) ∧ (transactionCount i evs.length ∨ (evs = [] ∧ y.cmdstat = 0x01)) ∧
      y.busstat = (evs.getLast?.map BusEvent.st).getD x.busstat ∧
      s.chip.AnswersAll s.draws s.history evs ∧ t.chip = s.chip.afterAll evs ∧ t.draws = s.draws + evs.length

/-- Frame of the commands that only report (R115, R145, R160, R184, R220, R226, R228, R235, R240, R246): IF_INIT, GET_CURRENT,
MSTEPS_VALID, GET_TPWMTHRS, WRITE_REG, WRITE_REG_X, READ_REG_X, GET_REG_PTR, SHADOW_READ and CONFIG_READ leave the shadow file,
the configuration and the hidden registers unchanged. -/
def Obligations.ReportingCommandsFrame : Prop :=
  ∀ (s t : State) (i : Instr),
    (match i with
     | .ifInit | .getCurrent | .mstepsValid _ | .getTpwmthrs | .writeReg _ | .writeRegX _ | .readRegX _ | .getRegPtr _
     | .shadowRead _ | .configRead _ => True
     | _ => False) →
    exec i s = .next t →
    ∃ x y, Issues s x ∧ Issues t y ∧ y.file = x.file ∧ y.initState = x.initState ∧ y.savedChopconf = x.savedChopconf

/-- Frame of the commands that write the shadow or the configuration (R140, R165, R181, R187, R200, R222, R242, R248): all leave
the hidden registers, and what each leaves of shadow and configuration. -/
def Obligations.WritingCommandsFrame : Prop :=
  ∀ (s t : State) (i : Instr) (x y : Instance) (f g : RegFile), Loaded s x f → exec i s = .next t → Loaded t y g →
    (match i with
     | .setCurrent | .setMsteps _ | .setHybridThrs | .setTpwmthrs | .setCotChopper | .readReg _ | .shadowWrite _
     | .configWrite _ => True
     | _ => False) →
    y.initState = x.initState ∧ y.savedChopconf = x.savedChopconf ∧
    match i with
    | .setCurrent => f.cfg = { g.cfg with current := f.cfg.current, holdPct := f.cfg.holdPct } ∧
        f.SameBut { g with cfg := f.cfg } [3, 12] ∧
        (∀ b : BitField, b.lo + b.width ≤ 17 ∨ (18 ≤ b.lo ∧ b.lo + b.width ≤ 32) →
          g.field slotChopconf b = f.field slotChopconf b) ∧
        (∀ b : BitField, (5 ≤ b.lo ∧ b.lo + b.width ≤ 8) ∨ (13 ≤ b.lo ∧ b.lo + b.width ≤ 32) →
          g.field slotIholdIrun b = f.field slotIholdIrun b)
    | .setMsteps _ => f.cfg = { g.cfg with microsteps := f.cfg.microsteps } ∧
        f.SameBut { g with cfg := f.cfg } [12] ∧
        (∀ b : BitField, b.lo + b.width ≤ 24 ∨ (28 ≤ b.lo ∧ b.lo + b.width ≤ 32) →
          g.field slotChopconf b = f.field slotChopconf b)
    | .setHybridThrs | .setTpwmthrs => f.SameBut g [6] ∧
        (∀ b : BitField, 20 ≤ b.lo → b.lo + b.width ≤ 32 → g.field slotTpwmthrs b = f.field slotTpwmthrs b)
    | .setCotChopper => f.SameBut g [12] ∧
        (∀ b : BitField, (b.lo = 12 ∧ b.width = 1) ∨ (17 ≤ b.lo ∧ b.lo + b.width ≤ 32) →
          g.field slotChopconf b = f.field slotChopconf b)
    | .readReg sel | .shadowWrite sel => f.SameBut g [sel.toNat]
    | .configWrite sel => g.sh = f.sh ∧ g.cfg.microsteps = f.cfg.microsteps ∧
        ∀ id : CfgId, cfgIdOfSel sel ≠ some id → g.cfg.read id = f.cfg.read id
    | _ => True

/-- R47, R110, R121: no command but LOAD_DEFAULTS and HW_INIT writes `INIT_STATE`, and none but HW_INIT writes
`SAVED_CHOPCONF`. -/
def Obligations.HiddenRegistersFrame : Prop :=
  ∀ (s t : State) (i : Instr), exec i s = .next t →
    ∃ x y, Issues s x ∧ Issues t y ∧ (i ≠ .hwInit → y.savedChopconf = x.savedChopconf) ∧
      (i ≠ .hwInit → i ≠ .loadDefaults → y.initState = x.initState) ∧
      (i = .hwInit ∨ i = .loadDefaults → y.initState = .idle)

/-- Frame of HW_INIT (R120, R124): the configuration, the address tags and every slot but GSTAT, IHOLD_IRUN, CHOPCONF and
DRV_STATUS are unchanged. -/
def Obligations.HwInitFrame : Prop :=
  ∀ (s t : State) (x : Instance) (f : RegFile), Loaded s x f → exec .hwInit s = .next t →
    ∃ y g, Loaded t y g ∧ f.SameBut g [1, 3, 12, 15] ∧
      (∀ b : BitField, 13 ≤ b.lo → b.lo + b.width ≤ 32 → g.field slotIholdIrun b = f.field slotIholdIrun b)

/-- R20, R22, R303: no step returns `IO_INSTALLED` or an instance's `LOADED` to 0, no command but IF_INIT changes
`IO_INSTALLED`, and none but LOAD_DEFAULTS changes a `LOADED`. -/
def Obligations.NothingUnloadsOrUninstalls : Prop :=
  (∀ s t : State, step s = .next t →
    (s.ioInstalled = true → t.ioInstalled = true) ∧
    ∀ (k : Nat) (x : Instance), s.insts[k]? = some x → ∃ y, t.insts[k]? = some y ∧ (x.loaded = true → y.loaded = true)) ∧
  ∀ (s t : State) (i : Instr), exec i s = .next t →
    (i ≠ .ifInit → t.ioInstalled = s.ioInstalled) ∧
    ∃ x y, Issues s x ∧ Issues t y ∧ (i ≠ .loadDefaults → y.loaded = x.loaded)

/-! ## Invariants -/

/-- R27, R34, R35, R44, R47, R249 and the canonical form of the simulator's map: every step keeps a sound state sound. -/
def Obligations.StepKeepsSound : Prop := ∀ s t : State, s.Sound → step s = .next t → t.Sound

/-- Reset of a block with at least one instance is sound. How many `State.reset` has is the model's choice (log 4). -/
def Obligations.ResetIsSound : Prop :=
  State.reset.Sound ∧ ∀ (n : Nat) (c : Chip), 1 ≤ n → c.Sound → (State.resetWith n c).Sound

/-- R35: `2^(8 - CHOPCONF.mres) = CFG.MICROSTEPS` after LOAD_DEFAULTS, after every SET_MSTEPS and after every accepted
SHADOW_WRITE of CHOPCONF from a sound register file; and a READ_REG of CHOPCONF may break it. (After a successful HW_INIT:
HwInitSuccess.) -/
def Obligations.MresAgreement : Prop :=
  (∀ (s t : State) (i : Instr) (x y : Instance) (g : RegFile), Issues s x → (∀ f, x.file = some f → f.Sound) →
    (i = .loadDefaults ∨ (∃ n, i = .setMsteps n) ∨ i = .shadowWrite 12) → exec i s = .next t → Loaded t y g →
    y.cmdstat = 0x00 → g.MresAgrees) ∧
  ∃ (s t : State) (x y : Instance) (f g : RegFile), s.Sound ∧ Ready s x f ∧ f.MresAgrees ∧
    exec (.readReg 12) s = .next t ∧ Loaded t y g ∧ ¬ g.MresAgrees

/-! ## The simulator of the test vectors -/

/-- 20_memory.md R68: ECHO_CHIP on a canonical map: a read returns `M[a]` with status 0x00 and changes nothing, but that a read
of 0x01 sets `M[0x01]` to 0; a write sets `M[a]` and returns 0x00. ECHO_CHIP(drv) starts with `M[0x6F] = drv`, `M[0x01] = 1` and 0
elsewhere. ECHO_CHIP_STUCK(k) answers every read with `k` and status 0x00, every write with 0x00, and stays as it is. -/
def Obligations.EchoChipAnswers : Prop :=
  (∀ (m : Memory) (n k : Nat) (h : List BusEvent) (a b : Byte) (v : Word), Memory.wf m = true →
    (Chip.echo m).answer n h ⟨k, .R, a, 0⟩ = ⟨Memory.read m a.toNat, 0x00⟩ ∧
    ((Chip.echo m).answer n h ⟨k, .W, a, v⟩).status = 0x00 ∧
    (∃ m', (Chip.echo m).after ⟨k, .R, a, 0⟩ = .echo m' ∧ Memory.wf m' = true ∧
      Memory.read m' b.toNat = if a = 0x01 ∧ b = 0x01 then 0 else Memory.read m b.toNat) ∧
    ∃ m', (Chip.echo m).after ⟨k, .W, a, v⟩ = .echo m' ∧ Memory.wf m' = true ∧
      Memory.read m' b.toNat = if b = a then v else Memory.read m b.toNat) ∧
  (∀ drv : Word, ∃ m, Chip.echoChip drv = .echo m ∧ Memory.wf m = true ∧
    ∀ a : Byte, Memory.read m a.toNat = if a = 0x6F then drv else if a = 0x01 then 0x00000001 else 0) ∧
  ∀ (u : Word) (n k : Nat) (h : List BusEvent) (a : Byte) (v : Word),
    (Chip.stuck u).answer n h ⟨k, .R, a, 0⟩ = ⟨u, 0x00⟩ ∧
    ((Chip.stuck u).answer n h ⟨k, .W, a, v⟩).status = 0x00 ∧
    (Chip.stuck u).after ⟨k, .R, a, 0⟩ = .stuck u ∧ (Chip.stuck u).after ⟨k, .W, a, v⟩ = .stuck u
end

