-- ==== Sys2Proof/Laws/Arith.lean ====
section
/-! SUPPORT. The integer square root (00_scope.md R11) and the shift count of to_mres (42_microstep.md R167). -/

namespace Sys2Proof.Machine

theorem isqrtDigits_bounds (d x : Nat) (h : x < 4 ^ d) :
    isqrtDigits d x * isqrtDigits d x ≤ x ∧ x < (isqrtDigits d x + 1) * (isqrtDigits d x + 1) := by
  induction d generalizing x with
  | zero => simp at h; simp [isqrtDigits, h]
  | succ d ih =>
    have h4 : x / 4 < 4 ^ d := by rw [pow_succ] at h; omega
    obtain ⟨h1, h2⟩ := ih (x / 4) h4
    simp only [isqrtDigits]
    generalize isqrtDigits d (x / 4) = q at h1 h2
    have hlo : 4 * (q * q) ≤ x := by omega
    have hhi : x < 4 * ((q + 1) * (q + 1)) := by omega
    split
    · next hc => exact ⟨hc, by nlinarith⟩
    · next hc => exact ⟨by nlinarith, by omega⟩

/-- R11: `isqrt(x)` is the largest `r` with `r * r ≤ x`. -/
theorem isqrt_bounds (x : Nat) : isqrt x * isqrt x ≤ x ∧ x < (isqrt x + 1) * (isqrt x + 1) := by
  apply isqrtDigits_bounds
  have h : x < 2 ^ (x.log2 + 1) := Nat.lt_log2_self
  calc x < 2 ^ (x.log2 + 1) := h
    _ ≤ 2 ^ (2 * (x.log2 / 2 + 1)) := Nat.pow_le_pow_right (by decide) (by omega)
    _ = 4 ^ (x.log2 / 2 + 1) := by rw [pow_mul]; norm_num

theorem isqrt_unique {x r : Nat} (h1 : r * r ≤ x) (h2 : x < (r + 1) * (r + 1)) : isqrt x = r := by
  obtain ⟨h3, h4⟩ := isqrt_bounds x
  have : r < isqrt x + 1 := Nat.mul_self_lt_mul_self_iff.mp (lt_of_le_of_lt h1 h4)
  have : isqrt x < r + 1 := Nat.mul_self_lt_mul_self_iff.mp (lt_of_le_of_lt h3 h2)
  omega

theorem le_isqrt {x r : Nat} : r ≤ isqrt x ↔ r * r ≤ x := by
  obtain ⟨h3, h4⟩ := isqrt_bounds x
  constructor
  · intro h
    exact le_trans (Nat.mul_self_le_mul_self h) h3
  · intro h
    have : r < isqrt x + 1 := Nat.mul_self_lt_mul_self_iff.mp (lt_of_le_of_lt h h4)
    omega

/-- The shift count's power of two divides the number, and no larger one does unless the fuel is used up. -/
theorem shiftCount_spec (fuel n : Nat) :
    shiftCount fuel n ≤ fuel ∧ 2 ^ shiftCount fuel n ∣ n ∧
      (shiftCount fuel n < fuel → ¬ 2 ^ (shiftCount fuel n + 1) ∣ n) := by
  induction fuel generalizing n with
  | zero => simp [shiftCount]
  | succ k ih =>
    unfold shiftCount
    split
    · next hn =>
      obtain ⟨h1, h2, h3⟩ := ih (n / 2)
      obtain ⟨m, rfl⟩ : 2 ∣ n := Nat.dvd_of_mod_eq_zero hn
      rw [Nat.mul_div_cancel_left m (by decide)] at h1 h2 h3 ⊢
      refine ⟨by omega, ?_, fun hlt hdiv => h3 (by omega) ?_⟩
      · rw [pow_succ, mul_comm]
        exact Nat.mul_dvd_mul_left 2 h2
      · rw [pow_succ, mul_comm] at hdiv
        exact (Nat.mul_dvd_mul_iff_left (by decide : 0 < 2)).mp hdiv
    · next hn => exact ⟨by omega, by simp, fun _ hdiv => hn (by simpa using Nat.mod_eq_zero_of_dvd hdiv)⟩

theorem toMres_le (n : Nat) : toMres n ≤ 8 := Nat.sub_le ..

/-- R167: `to_mres` is 8 minus the exponent of the largest power of two that divides its operand, at most 8. -/
theorem toMres_spec (n : Half) : ∃ k, k ≤ 8 ∧ toMres n.toNat = 8 - k ∧ (n = 0 → k = 0) ∧
    (n ≠ 0 → 2 ^ k ∣ n.toNat ∧ (k < 8 → ¬ 2 ^ (k + 1) ∣ n.toNat)) := by
  refine ⟨min (shiftCount 15 (if n.toNat = 0 then 1 else n.toNat)) 8, by omega, rfl, ?_, ?_⟩
  · rintro rfl; decide
  · intro hn
    have hn' : n.toNat ≠ 0 := fun h => hn (BitVec.eq_of_toNat_eq (by simpa using h))
    rw [if_neg hn']
    obtain ⟨h1, h2, h3⟩ := shiftCount_spec 15 n.toNat
    generalize shiftCount 15 n.toNat = c at h1 h2 h3 ⊢
    refine ⟨(pow_dvd_pow 2 (by omega)).trans h2, fun hlt => ?_⟩
    have : min c 8 = c := by omega
    rw [this]; exact h3 (by omega)

end Sys2Proof.Machine
end

