-- ==== Sys2Proof/Laws/Encoding.lean ====
section
/-! SUPPORT. The fields of an encoded command word (30_encoding.md R80, R81). -/

namespace Sys2Proof

/-- Every bit of a word built from its fields. -/
theorem cmdWord_bit (imm : Half) (sel : BitVec 5) (op : Byte) (i : Nat) :
    (cmdWord imm sel op).getLsbD i =
      if i < 8 then op.getLsbD i
      else if i < 13 then sel.getLsbD (i - 8)
      else if i < 16 then false
      else imm.getLsbD (i - 16) := by
  simp only [cmdWord, BitVec.getLsbD_append]
  by_cases h1 : i < 8
  · simp [h1, show i < 16 by omega, show i < 13 by omega]
  · by_cases h2 : i < 13
    · simp [h1, h2, show i < 16 by omega]
    · by_cases h3 : i < 16
      · simp [h1, h2, h3]
      · simp [h1, h2, h3]

@[simp] theorem opField_cmdWord (imm : Half) (sel : BitVec 5) (op : Byte) : opField (cmdWord imm sel op) = op := by
  apply BitVec.eq_of_getLsbD_eq
  intro i hi
  simp [opField, cmdWord_bit, hi]

@[simp] theorem selField_cmdWord (imm : Half) (sel : BitVec 5) (op : Byte) : selField (cmdWord imm sel op) = sel := by
  apply BitVec.eq_of_getLsbD_eq
  intro i hi
  simp [selField, cmdWord_bit, hi, show 8 + i < 13 by omega]

@[simp] theorem rsvField_cmdWord (imm : Half) (sel : BitVec 5) (op : Byte) : rsvField (cmdWord imm sel op) = 0 := by
  apply BitVec.eq_of_getLsbD_eq
  intro i hi
  simp [rsvField, cmdWord_bit, show ¬ 13 + i < 8 by omega, show 13 + i < 16 by omega]

@[simp] theorem immField_cmdWord (imm : Half) (sel : BitVec 5) (op : Byte) : immField (cmdWord imm sel op) = imm := by
  apply BitVec.eq_of_getLsbD_eq
  intro i hi
  simp [immField, cmdWord_bit, hi, show ¬ 16 + i < 8 by omega,
    show ¬ 16 + i < 13 by omega]

@[simp] theorem addrField_cmdWord (imm : Half) (sel : BitVec 5) (op : Byte) :
    addrField (cmdWord imm sel op) = imm.setWidth 8 := by
  apply BitVec.eq_of_getLsbD_eq
  intro i hi
  simp [addrField, cmdWord_bit, hi, show ¬ 16 + i < 8 by omega,
    show ¬ 16 + i < 13 by omega]

/-- A word with `RSV = 0` is built from its fields. -/
theorem cmdWord_fields (w : Word) (h : rsvField w = 0) : cmdWord (immField w) (selField w) (opField w) = w := by
  apply BitVec.eq_of_getLsbD_eq
  intro i hi
  rw [cmdWord_bit]
  split
  · simp [opField, *]
  · split
    · simp [selField, show i - 8 < 5 by omega, show 8 + (i - 8) = i by omega]
    · split
      · have h' : (rsvField w).getLsbD (i - 13) = false := by rw [h]; simp
        simpa [rsvField, show i - 13 < 3 by omega, show 13 + (i - 13) = i by omega]
          using h'.symm
      · simp [immField, show i - 16 < 16 by omega, show 16 + (i - 16) = i by omega]

/-- A part of a word is 0 when its bits are. -/
theorem part_zero_iff (w : Word) (lo n : Nat) :
    w.extractLsb' lo n = 0 ↔ ∀ i, lo ≤ i → i < lo + n → w.getLsbD i = false := by
  constructor
  · intro h i h1 h2
    have h' := congrArg (BitVec.getLsbD · (i - lo)) h
    simpa [show i - lo < n by omega, show lo + (i - lo) = i by omega] using h'
  · intro h
    apply BitVec.eq_of_getLsbD_eq
    intro i hi
    simp [hi, h (lo + i) (by omega) (by omega)]

/-- The address operand's high half, `IMM[15:8]`, is `CMD[31:24]`. -/
theorem immField_high (w : Word) : (immField w).extractLsb' 8 8 = w.extractLsb' 24 8 := by
  apply BitVec.eq_of_getLsbD_eq
  intro i hi
  simp [immField, hi, show 8 + i < 16 by omega, show 16 + (8 + i) = 24 + i by omega]

/-- The bits a format fixes beyond the opcode's. -/
def mustBeZero (f : Format) (i : Nat) : Bool :=
  match f with
  | .n => decide (8 ≤ i)
  | .s => decide (13 ≤ i)
  | .imm => decide (8 ≤ i) && decide (i < 16)
  | .addr => decide (8 ≤ i) && (decide (i < 16) || decide (24 ≤ i))

theorem formatMask_bit (f : Format) : ∀ i < 32, (formatMask f).getLsbD i = (decide (i < 8) || mustBeZero f i) := by
  cases f <;> decide

/-- R82's mask check says that the must-be-zero bits are 0. -/
theorem mask_iff_bits (f : Format) (w : Word) :
    w &&& formatMask f = (opField w).setWidth 32 ↔
      ∀ i, 8 ≤ i → i < 32 → mustBeZero f i = true → w.getLsbD i = false := by
  constructor
  · intro h i h1 h2 h3
    have h' := congrArg (BitVec.getLsbD · i) h
    simp only [BitVec.getLsbD_and, formatMask_bit f i h2, h3, Bool.or_true, Bool.and_true] at h'
    simpa [opField, show ¬ i < 8 by omega] using h'
  · intro h
    apply BitVec.eq_of_getLsbD_eq
    intro i hi
    by_cases h1 : i < 8
    · rw [BitVec.getLsbD_and, formatMask_bit f i hi]
      simp [opField, hi, h1]
    · rw [BitVec.getLsbD_and, formatMask_bit f i hi]
      by_cases h2 : mustBeZero f i = true
      · rw [h i (by omega) hi h2]
        simp [opField, h1]
      · simp [opField, h1, h2]

/-- R82's mask check in terms of the word's fields (R81). -/
theorem mask_iff (f : Format) (w : Word) :
    w &&& formatMask f = (opField w).setWidth 32 ↔
      match f with
      | .n => immField w = 0 ∧ rsvField w = 0 ∧ selField w = 0
      | .s => immField w = 0 ∧ rsvField w = 0
      | .imm => rsvField w = 0 ∧ selField w = 0
      | .addr => (immField w).extractLsb' 8 8 = 0 ∧ rsvField w = 0 ∧ selField w = 0 := by
  rw [mask_iff_bits]
  have high := immField_high w
  simp only [immField] at high
  cases f <;>
    simp only [high, part_zero_iff, immField, rsvField, selField, mustBeZero, Bool.and_eq_true,
      Bool.or_eq_true, decide_eq_true_eq]
  · exact ⟨fun h => ⟨fun i _ _ => h i (by omega) (by omega) (by omega), fun i _ _ => h i (by omega) (by omega) (by omega),
      fun i _ _ => h i (by omega) (by omega) (by omega)⟩, fun h i _ _ _ => by
        rcases Nat.lt_or_ge i 13 with h1 | h1
        · exact h.2.2 i (by omega) (by omega)
        · rcases Nat.lt_or_ge i 16 with h2 | h2
          · exact h.2.1 i (by omega) (by omega)
          · exact h.1 i (by omega) (by omega)⟩
  · exact ⟨fun h => ⟨fun i _ _ => h i (by omega) (by omega) (by omega),
      fun i _ _ => h i (by omega) (by omega) (by omega)⟩, fun h i _ _ _ => by
        rcases Nat.lt_or_ge i 16 with h2 | h2
        · exact h.2 i (by omega) (by omega)
        · exact h.1 i (by omega) (by omega)⟩
  · exact ⟨fun h => ⟨fun i _ _ => h i (by omega) (by omega) (by omega),
      fun i _ _ => h i (by omega) (by omega) (by omega)⟩, fun h i _ _ _ => by
        rcases Nat.lt_or_ge i 13 with h2 | h2
        · exact h.2 i (by omega) (by omega)
        · exact h.1 i (by omega) (by omega)⟩
  · exact ⟨fun h => ⟨fun i _ _ => h i (by omega) (by omega) (by omega), fun i _ _ => h i (by omega) (by omega) (by omega),
      fun i _ _ => h i (by omega) (by omega) (by omega)⟩, fun h i _ _ _ => by
        rcases Nat.lt_or_ge i 13 with h1 | h1
        · exact h.2.2 i (by omega) (by omega)
        · rcases Nat.lt_or_ge i 16 with h2 | h2
          · exact h.2.1 i (by omega) (by omega)
          · exact h.1 i (by omega) (by omega)⟩

end Sys2Proof
end

