-- ==== Sys2Proof/Laws/Fields.lean ====
section
/-! SUPPORT. Reading and replacing bit fields (00_scope.md R10). -/

namespace Sys2Proof.Machine

theorem getField_lt (b : BitField) (v : Word) : getField b v < 2 ^ b.width :=
  Nat.mod_lt _ (Nat.two_pow_pos _)

theorem testBit_getField (b : BitField) (v : Word) (j : Nat) :
    (getField b v).testBit j = (decide (j < b.width) && v.getLsbD (b.lo + j)) := by
  simp [getField, Nat.testBit_mod_two_pow, Nat.testBit_shiftRight, BitVec.getLsbD]

theorem fieldMask_bit (b : BitField) {i : Nat} (hi : i < 32) :
    (fieldMask b).getLsbD i = (decide (b.lo ≤ i) && decide (i < b.lo + b.width)) := by
  simp only [fieldMask, BitVec.getLsbD_ofNat, hi, decide_true, Bool.true_and, Nat.testBit_shiftLeft,
    Nat.testBit_two_pow_sub_one, ge_iff_le]
  by_cases h : b.lo ≤ i
  · simp only [h, decide_true, Bool.true_and]
    congr 1
    apply propext
    omega
  · simp [h]

/-- Every bit of a word after a field is replaced. -/
theorem putField_bit (b : BitField) (v : Word) (x : Nat) {i : Nat} (hi : i < 32) :
    (putField b v x).getLsbD i =
      if b.lo ≤ i ∧ i < b.lo + b.width then x.testBit (i - b.lo) else v.getLsbD i := by
  simp only [putField, BitVec.getLsbD_or, BitVec.getLsbD_and, BitVec.getLsbD_not, fieldMask_bit b hi,
    BitVec.getLsbD_ofNat, hi, decide_true, Bool.true_and, Nat.testBit_shiftLeft, Nat.testBit_mod_two_pow, ge_iff_le]
  by_cases h : b.lo ≤ i
  · by_cases h' : i < b.lo + b.width
    · have : i - b.lo < b.width := by omega
      simp [h, h', this]
    · have : ¬ i - b.lo < b.width := by omega
      simp [h, h', this]
  · simp [h]

/-- A replaced field reads as the value it was given, modulo its width. -/
theorem getField_putField_self (b : BitField) (v : Word) (x : Nat) (hb : b.lo + b.width ≤ 32) :
    getField b (putField b v x) = x % 2 ^ b.width := by
  apply Nat.eq_of_testBit_eq
  intro j
  rw [testBit_getField, Nat.testBit_mod_two_pow]
  by_cases hj : j < b.width
  · rw [putField_bit b v x (by omega)]
    simp [hj]
  · simp [hj]

/-- A field that does not overlap the replaced one keeps its value. -/
theorem getField_putField_disjoint (b c : BitField) (v : Word) (x : Nat) (hc : c.lo + c.width ≤ 32)
    (h : c.lo + c.width ≤ b.lo ∨ b.lo + b.width ≤ c.lo) : getField c (putField b v x) = getField c v := by
  apply Nat.eq_of_testBit_eq
  intro j
  rw [testBit_getField, testBit_getField]
  by_cases hj : j < c.width
  · rw [putField_bit b v x (by omega), if_neg (by omega)]
  · simp [hj]

end Sys2Proof.Machine
end

