-- ==== Sys2Proof/Laws/Memory.lean ====
section
/-! SUPPORT. The simulator's map (20_memory.md R68): reads after writes, and the canonical form, kept by every operation. -/

namespace Sys2Proof.Machine

theorem risingAbove_mono {lo lo' : Nat} (h : lo' ≤ lo) {m : Memory} (hm : Memory.risingAbove lo m = true) :
    Memory.risingAbove lo' m = true := by
  cases m with
  | nil => rfl
  | cons p m =>
    simp only [Memory.risingAbove, Bool.and_eq_true, decide_eq_true_eq] at hm ⊢
    exact ⟨⟨by omega, hm.1.2⟩, hm.2⟩

theorem risingAbove_wf {lo : Nat} {m : Memory} (hm : Memory.risingAbove lo m = true) : Memory.wf m = true := by
  cases m with
  | nil => rfl
  | cons p m =>
    simp only [Memory.risingAbove, Memory.wf, Bool.and_eq_true] at hm ⊢
    exact ⟨hm.1.2, hm.2⟩

/-- In a rising map an address not above the bound is unlisted. -/
theorem read_of_risingAbove {lo : Nat} {m : Memory} (hm : Memory.risingAbove lo m = true) {a : Nat} (h : a ≤ lo) :
    Memory.read m a = 0 := by
  induction m generalizing lo with
  | nil => rfl
  | cons p m ih =>
    simp only [Memory.risingAbove, Bool.and_eq_true, decide_eq_true_eq] at hm
    rw [Memory.read, if_neg (by omega)]
    exact ih hm.2 (by omega)

theorem cons_risingAbove {lo a : Nat} {v : Word} {m : Memory} (ha : lo < a) (hm : Memory.risingAbove a m = true) :
    Memory.risingAbove lo (Memory.cons a v m) = true := by
  unfold Memory.cons
  split
  · exact risingAbove_mono (by omega) hm
  · next hv => simp only [Memory.risingAbove, ha, bne_iff_ne.mpr hv, hm, decide_true, Bool.and_self]

theorem write_risingAbove {lo a : Nat} (v : Word) {m : Memory} (ha : lo < a)
    (hm : Memory.risingAbove lo m = true) : Memory.risingAbove lo (Memory.write m a v) = true := by
  induction m generalizing lo with
  | nil => exact cons_risingAbove ha rfl
  | cons p m ih =>
    obtain ⟨k, u⟩ := p
    simp only [Memory.risingAbove, Bool.and_eq_true, decide_eq_true_eq] at hm
    obtain ⟨⟨hk, hu⟩, hm⟩ := hm
    unfold Memory.write
    split
    · next h => exact cons_risingAbove ha (by simp only [Memory.risingAbove, h, hu, hm, decide_true, Bool.and_self])
    · split
      · next h => exact cons_risingAbove ha (h ▸ hm)
      · simp only [Memory.risingAbove, hk, hu, ih (lo := k) (by omega) hm, decide_true, Bool.and_self]

theorem cons_wf {a : Nat} {v : Word} {m : Memory} (hm : Memory.risingAbove a m = true) :
    Memory.wf (Memory.cons a v m) = true := by
  unfold Memory.cons
  split
  · exact risingAbove_wf hm
  · next hv => simp only [Memory.wf, bne_iff_ne.mpr hv, hm, Bool.and_self]

/-- A write keeps the canonical form. -/
theorem write_wf {m : Memory} (hm : Memory.wf m = true) (a : Nat) (v : Word) :
    Memory.wf (Memory.write m a v) = true := by
  cases m with
  | nil => exact cons_wf rfl
  | cons p m =>
    obtain ⟨k, u⟩ := p
    simp only [Memory.wf, Bool.and_eq_true] at hm
    unfold Memory.write
    split
    · next h => exact cons_wf (by simp only [Memory.risingAbove, h, hm, decide_true, Bool.and_self])
    · split
      · next h => exact cons_wf (h ▸ hm.2)
      · simp only [Memory.wf, hm.1, write_risingAbove v (lo := k) (a := a) (by omega) hm.2, Bool.and_self]

/-- The simulators' maps stay canonical whatever is asked of them. -/
theorem chip_after_sound {c : Chip} (hc : c.Sound) (q : BusReq) : (c.after q).Sound := by
  cases c with
  | free => trivial
  | scripted l => trivial
  | stuck k => trivial
  | echo m =>
    obtain ⟨_, kind, addr, _⟩ := q
    have hc : Memory.wf m = true := hc
    cases kind
    · simp only [Chip.after, Chip.Sound]
      split
      · exact write_wf hc ..
      · exact hc
    · exact write_wf hc ..

theorem chip_afterAll_sound {c : Chip} (hc : c.Sound) (evs : List BusEvent) : (c.afterAll evs).Sound := by
  induction evs generalizing c with
  | nil => exact hc
  | cons e evs ih => exact ih (chip_after_sound hc _)

theorem echoChip_sound (drv : Word) : (Chip.echoChip drv).Sound := write_wf (write_wf rfl ..) ..

/-- The agent behind the bus at reset is in canonical form. -/
theorem reset_chip_sound : State.reset.chip.Sound := trivial

theorem read_cons_self {a : Nat} {v : Word} {m : Memory} (hm : Memory.risingAbove a m = true) :
    Memory.read (Memory.cons a v m) a = v := by
  unfold Memory.cons
  split
  · next hv => rw [read_of_risingAbove hm le_rfl, hv]
  · simp [Memory.read]

theorem read_cons_ne {a b : Nat} {v : Word} {m : Memory} (h : a ≠ b) :
    Memory.read (Memory.cons a v m) b = Memory.read m b := by
  unfold Memory.cons
  split
  · rfl
  · simp [Memory.read, h]

/-- A read after a write: the value at the address written, the old one elsewhere. -/
theorem read_write {m : Memory} (hm : Memory.wf m = true) (a b : Nat) (v : Word) :
    Memory.read (Memory.write m a v) b = if b = a then v else Memory.read m b := by
  have gen : ∀ (m : Memory) (lo : Nat), Memory.risingAbove lo m = true →
      Memory.read (Memory.write m a v) b = if b = a then v else Memory.read m b := by
    intro m
    induction m with
    | nil =>
      intro lo _
      by_cases h : b = a
      · subst h; rw [if_pos rfl, Memory.write, read_cons_self rfl]
      · rw [if_neg h, Memory.write, read_cons_ne (Ne.symm h)]
    | cons p m ih =>
      intro lo hm
      obtain ⟨k, u⟩ := p
      simp only [Memory.risingAbove, Bool.and_eq_true, decide_eq_true_eq] at hm
      unfold Memory.write
      split
      · next h =>
        by_cases hb : b = a
        · subst hb; rw [if_pos rfl, read_cons_self]
          simp only [Memory.risingAbove, h, hm.1.2, hm.2, decide_true, Bool.and_self]
        · rw [if_neg hb, read_cons_ne (Ne.symm hb)]
      · split
        · next h =>
          subst h
          by_cases hb : b = a
          · subst hb; rw [if_pos rfl, read_cons_self hm.2]
          · rw [if_neg hb, read_cons_ne (Ne.symm hb), Memory.read, if_neg (Ne.symm hb)]
        · next h1 h2 =>
          rw [Memory.read, ih k hm.2, Memory.read]
          by_cases hb : b = a
          · subst hb; rw [if_pos rfl, if_pos rfl, if_neg (Ne.symm h2)]
          · rw [if_neg hb, if_neg hb]
  cases m with
  | nil => exact gen [] 0 rfl
  | cons p m =>
    obtain ⟨k, u⟩ := p
    simp only [Memory.wf, Bool.and_eq_true] at hm
    unfold Memory.write
    split
    · next h =>
      by_cases hb : b = a
      · subst hb; rw [if_pos rfl, read_cons_self]
        simp only [Memory.risingAbove, h, hm.1, hm.2, decide_true, Bool.and_self]
      · rw [if_neg hb, read_cons_ne (Ne.symm hb)]
    · split
      · next h =>
        subst h
        by_cases hb : b = a
        · subst hb; rw [if_pos rfl, read_cons_self hm.2]
        · rw [if_neg hb, read_cons_ne (Ne.symm hb), Memory.read, if_neg (Ne.symm hb)]
      · next h1 h2 =>
        rw [Memory.read, gen m k hm.2, Memory.read]
        by_cases hb : b = a
        · subst hb; rw [if_pos rfl, if_pos rfl, if_neg (Ne.symm h2)]
        · rw [if_neg hb, if_neg hb]

end Sys2Proof.Machine
end

