-- ==== Sys2Proof/Laws/State.lean ====
section
/-! SUPPORT. What each update of the state does to each field, one lemma per field per update. -/

namespace Sys2Proof.Machine

@[simp] theorem State.updMe_ioInstalled (s : State) (g : Instance → Instance) : (s.updMe g).ioInstalled = s.ioInstalled := rfl
@[simp] theorem State.updMe_insts (s : State) (g : Instance → Instance) : (s.updMe g).insts = s.insts.set s.cur (g s.me) := rfl
@[simp] theorem State.updMe_cur (s : State) (g : Instance → Instance) : (s.updMe g).cur = s.cur := rfl
@[simp] theorem State.updMe_history (s : State) (g : Instance → Instance) : (s.updMe g).history = s.history := rfl
@[simp] theorem State.updMe_chip (s : State) (g : Instance → Instance) : (s.updMe g).chip = s.chip := rfl
@[simp] theorem State.updMe_draws (s : State) (g : Instance → Instance) : (s.updMe g).draws = s.draws := rfl
@[simp] theorem State.updMe_host (s : State) (g : Instance → Instance) : (s.updMe g).host = s.host := rfl

@[simp] theorem State.setFile_ioInstalled (s : State) (f : RegFile) : (s.setFile f).ioInstalled = s.ioInstalled := rfl
@[simp] theorem State.setFile_insts (s : State) (f : RegFile) : (s.setFile f).insts = s.insts.set s.cur { s.me with file := some f } := rfl
@[simp] theorem State.setFile_cur (s : State) (f : RegFile) : (s.setFile f).cur = s.cur := rfl
@[simp] theorem State.setFile_history (s : State) (f : RegFile) : (s.setFile f).history = s.history := rfl
@[simp] theorem State.setFile_chip (s : State) (f : RegFile) : (s.setFile f).chip = s.chip := rfl
@[simp] theorem State.setFile_draws (s : State) (f : RegFile) : (s.setFile f).draws = s.draws := rfl
@[simp] theorem State.setFile_host (s : State) (f : RegFile) : (s.setFile f).host = s.host := rfl

@[simp] theorem State.goto_ioInstalled (s : State) (c : InitState) : (s.goto c).ioInstalled = s.ioInstalled := rfl
@[simp] theorem State.goto_insts (s : State) (c : InitState) : (s.goto c).insts = s.insts.set s.cur { s.me with initState := c } := rfl
@[simp] theorem State.goto_cur (s : State) (c : InitState) : (s.goto c).cur = s.cur := rfl
@[simp] theorem State.goto_history (s : State) (c : InitState) : (s.goto c).history = s.history := rfl
@[simp] theorem State.goto_chip (s : State) (c : InitState) : (s.goto c).chip = s.chip := rfl
@[simp] theorem State.goto_draws (s : State) (c : InitState) : (s.goto c).draws = s.draws := rfl
@[simp] theorem State.goto_host (s : State) (c : InitState) : (s.goto c).host = s.host := rfl

@[simp] theorem State.complete_ioInstalled (s : State) (r : Word) : (s.complete r).ioInstalled = s.ioInstalled := rfl
@[simp] theorem State.complete_insts (s : State) (r : Word) : (s.complete r).insts = s.insts.set s.cur { s.me with result := r, cmdstat := cmdstatOk } := rfl
@[simp] theorem State.complete_cur (s : State) (r : Word) : (s.complete r).cur = s.cur := rfl
@[simp] theorem State.complete_history (s : State) (r : Word) : (s.complete r).history = s.history := rfl
@[simp] theorem State.complete_chip (s : State) (r : Word) : (s.complete r).chip = s.chip := rfl
@[simp] theorem State.complete_draws (s : State) (r : Word) : (s.complete r).draws = s.draws := rfl
@[simp] theorem State.complete_host (s : State) (r : Word) : (s.complete r).host = s.host := rfl

@[simp] theorem State.rejectIllegal_ioInstalled (s : State) : s.rejectIllegal.ioInstalled = s.ioInstalled := rfl
@[simp] theorem State.rejectIllegal_insts (s : State) : s.rejectIllegal.insts = s.insts.set s.cur { s.me with cmdstat := cmdstatIllegal } := rfl
@[simp] theorem State.rejectIllegal_cur (s : State) : s.rejectIllegal.cur = s.cur := rfl
@[simp] theorem State.rejectIllegal_history (s : State) : s.rejectIllegal.history = s.history := rfl
@[simp] theorem State.rejectIllegal_chip (s : State) : s.rejectIllegal.chip = s.chip := rfl
@[simp] theorem State.rejectIllegal_draws (s : State) : s.rejectIllegal.draws = s.draws := rfl
@[simp] theorem State.rejectIllegal_host (s : State) : s.rejectIllegal.host = s.host := rfl

@[simp] theorem State.setSaved_ioInstalled (s : State) (v : Word) : (s.setSaved v).ioInstalled = s.ioInstalled := rfl
@[simp] theorem State.setSaved_insts (s : State) (v : Word) : (s.setSaved v).insts = s.insts.set s.cur { s.me with savedChopconf := v } := rfl
@[simp] theorem State.setSaved_cur (s : State) (v : Word) : (s.setSaved v).cur = s.cur := rfl
@[simp] theorem State.setSaved_history (s : State) (v : Word) : (s.setSaved v).history = s.history := rfl
@[simp] theorem State.setSaved_chip (s : State) (v : Word) : (s.setSaved v).chip = s.chip := rfl
@[simp] theorem State.setSaved_draws (s : State) (v : Word) : (s.setSaved v).draws = s.draws := rfl
@[simp] theorem State.setSaved_host (s : State) (v : Word) : (s.setSaved v).host = s.host := rfl

@[simp] theorem State.afterBus_ioInstalled (s : State) (kind : BusKind) (a : Byte) (data v : Word) :
    (s.afterBus kind a data v).ioInstalled = s.ioInstalled := rfl
@[simp] theorem State.afterBus_insts (s : State) (kind : BusKind) (a : Byte) (data v : Word) :
    (s.afterBus kind a data v).insts = s.insts.set s.cur { s.me with busstat := (s.answer kind a data).status } := rfl
@[simp] theorem State.afterBus_cur (s : State) (kind : BusKind) (a : Byte) (data v : Word) :
    (s.afterBus kind a data v).cur = s.cur := rfl
@[simp] theorem State.afterBus_history (s : State) (kind : BusKind) (a : Byte) (data v : Word) :
    (s.afterBus kind a data v).history = s.history ++ [⟨s.cur, kind, a, v, (s.answer kind a data).status⟩] := rfl
@[simp] theorem State.afterBus_chip (s : State) (kind : BusKind) (a : Byte) (data v : Word) :
    (s.afterBus kind a data v).chip = s.chip.after ⟨s.cur, kind, a, data⟩ := rfl
@[simp] theorem State.afterBus_draws (s : State) (kind : BusKind) (a : Byte) (data v : Word) :
    (s.afterBus kind a data v).draws = s.draws + 1 := rfl
@[simp] theorem State.afterBus_host (s : State) (kind : BusKind) (a : Byte) (data v : Word) :
    (s.afterBus kind a data v).host = s.host := rfl

@[simp] theorem State.afterRead_ioInstalled (s : State) (a : Byte) :
    (s.afterRead a).ioInstalled = s.ioInstalled := rfl
@[simp] theorem State.afterRead_insts (s : State) (a : Byte) :
    (s.afterRead a).insts = s.insts.set s.cur { s.me with busstat := s.readStatus a } := rfl
@[simp] theorem State.afterRead_cur (s : State) (a : Byte) :
    (s.afterRead a).cur = s.cur := rfl
@[simp] theorem State.afterRead_history (s : State) (a : Byte) :
    (s.afterRead a).history = s.history ++ [⟨s.cur, .R, a, s.readValue a, s.readStatus a⟩] := rfl
@[simp] theorem State.afterRead_chip (s : State) (a : Byte) :
    (s.afterRead a).chip = s.chip.after ⟨s.cur, .R, a, 0⟩ := rfl
@[simp] theorem State.afterRead_draws (s : State) (a : Byte) :
    (s.afterRead a).draws = s.draws + 1 := rfl
@[simp] theorem State.afterRead_host (s : State) (a : Byte) :
    (s.afterRead a).host = s.host := rfl

@[simp] theorem State.afterWrite_ioInstalled (s : State) (a : Byte) (v : Word) :
    (s.afterWrite a v).ioInstalled = s.ioInstalled := rfl
@[simp] theorem State.afterWrite_insts (s : State) (a : Byte) (v : Word) :
    (s.afterWrite a v).insts = s.insts.set s.cur { s.me with busstat := s.writeStatus a v } := rfl
@[simp] theorem State.afterWrite_cur (s : State) (a : Byte) (v : Word) :
    (s.afterWrite a v).cur = s.cur := rfl
@[simp] theorem State.afterWrite_history (s : State) (a : Byte) (v : Word) :
    (s.afterWrite a v).history = s.history ++ [⟨s.cur, .W, a, v, s.writeStatus a v⟩] := rfl
@[simp] theorem State.afterWrite_chip (s : State) (a : Byte) (v : Word) :
    (s.afterWrite a v).chip = s.chip.after ⟨s.cur, .W, a, v⟩ := rfl
@[simp] theorem State.afterWrite_draws (s : State) (a : Byte) (v : Word) :
    (s.afterWrite a v).draws = s.draws + 1 := rfl
@[simp] theorem State.afterWrite_host (s : State) (a : Byte) (v : Word) :
    (s.afterWrite a v).host = s.host := rfl

@[simp] theorem State.sendSlot_ioInstalled (s : State) (f : RegFile) (i : Slot) :
    (s.sendSlot f i).ioInstalled = s.ioInstalled := rfl
@[simp] theorem State.sendSlot_insts (s : State) (f : RegFile) (i : Slot) :
    (s.sendSlot f i).insts = s.insts.set s.cur { s.me with busstat := s.writeStatus (f.addr i) (f.value i) } := rfl
@[simp] theorem State.sendSlot_cur (s : State) (f : RegFile) (i : Slot) :
    (s.sendSlot f i).cur = s.cur := rfl
@[simp] theorem State.sendSlot_history (s : State) (f : RegFile) (i : Slot) :
    (s.sendSlot f i).history = s.history ++ [⟨s.cur, .W, f.addr i, f.value i, s.writeStatus (f.addr i) (f.value i)⟩] := rfl
@[simp] theorem State.sendSlot_chip (s : State) (f : RegFile) (i : Slot) :
    (s.sendSlot f i).chip = s.chip.after ⟨s.cur, .W, f.addr i, f.value i⟩ := rfl
@[simp] theorem State.sendSlot_draws (s : State) (f : RegFile) (i : Slot) :
    (s.sendSlot f i).draws = s.draws + 1 := rfl
@[simp] theorem State.sendSlot_host (s : State) (f : RegFile) (i : Slot) :
    (s.sendSlot f i).host = s.host := rfl

@[simp] theorem State.fetchSlot_ioInstalled (s : State) (f : RegFile) (i : Slot) :
    (s.fetchSlot f i).ioInstalled = s.ioInstalled := rfl
@[simp] theorem State.fetchSlot_cur (s : State) (f : RegFile) (i : Slot) :
    (s.fetchSlot f i).cur = s.cur := rfl
@[simp] theorem State.fetchSlot_history (s : State) (f : RegFile) (i : Slot) :
    (s.fetchSlot f i).history = s.history ++ [⟨s.cur, .R, f.addr i, s.readValue (f.addr i), s.readStatus (f.addr i)⟩] := rfl
@[simp] theorem State.fetchSlot_chip (s : State) (f : RegFile) (i : Slot) :
    (s.fetchSlot f i).chip = s.chip.after ⟨s.cur, .R, f.addr i, 0⟩ := rfl
@[simp] theorem State.fetchSlot_draws (s : State) (f : RegFile) (i : Slot) :
    (s.fetchSlot f i).draws = s.draws + 1 := rfl
@[simp] theorem State.fetchSlot_host (s : State) (f : RegFile) (i : Slot) :
    (s.fetchSlot f i).host = s.host := rfl

@[simp] theorem State.writeArg0_ioInstalled (s : State) (k : Nat) (w : Word) : (s.writeArg0 k w).ioInstalled = s.ioInstalled := rfl
@[simp] theorem State.writeArg0_insts (s : State) (k : Nat) (w : Word) : (s.writeArg0 k w).insts = s.insts.modify k fun x => { x with arg0 := w } := rfl
@[simp] theorem State.writeArg0_cur (s : State) (k : Nat) (w : Word) : (s.writeArg0 k w).cur = s.cur := rfl
@[simp] theorem State.writeArg0_history (s : State) (k : Nat) (w : Word) : (s.writeArg0 k w).history = s.history := rfl
@[simp] theorem State.writeArg0_chip (s : State) (k : Nat) (w : Word) : (s.writeArg0 k w).chip = s.chip := rfl
@[simp] theorem State.writeArg0_draws (s : State) (k : Nat) (w : Word) : (s.writeArg0 k w).draws = s.draws := rfl
@[simp] theorem State.writeArg0_host (s : State) (k : Nat) (w : Word) : (s.writeArg0 k w).host = s.host := rfl

@[simp] theorem State.writeArg1_ioInstalled (s : State) (k : Nat) (w : Word) : (s.writeArg1 k w).ioInstalled = s.ioInstalled := rfl
@[simp] theorem State.writeArg1_insts (s : State) (k : Nat) (w : Word) : (s.writeArg1 k w).insts = s.insts.modify k fun x => { x with arg1 := w } := rfl
@[simp] theorem State.writeArg1_cur (s : State) (k : Nat) (w : Word) : (s.writeArg1 k w).cur = s.cur := rfl
@[simp] theorem State.writeArg1_history (s : State) (k : Nat) (w : Word) : (s.writeArg1 k w).history = s.history := rfl
@[simp] theorem State.writeArg1_chip (s : State) (k : Nat) (w : Word) : (s.writeArg1 k w).chip = s.chip := rfl
@[simp] theorem State.writeArg1_draws (s : State) (k : Nat) (w : Word) : (s.writeArg1 k w).draws = s.draws := rfl
@[simp] theorem State.writeArg1_host (s : State) (k : Nat) (w : Word) : (s.writeArg1 k w).host = s.host := rfl

@[simp] theorem State.startCommand_ioInstalled (s : State) (k : Nat) (w : Word) : (s.startCommand k w).ioInstalled = s.ioInstalled := rfl
@[simp] theorem State.startCommand_insts (s : State) (k : Nat) (w : Word) : (s.startCommand k w).insts = s.insts.modify k fun x => { x with cmd := w } := rfl
@[simp] theorem State.startCommand_cur (s : State) (k : Nat) (w : Word) : (s.startCommand k w).cur = k := rfl
@[simp] theorem State.startCommand_history (s : State) (k : Nat) (w : Word) : (s.startCommand k w).history = s.history := rfl
@[simp] theorem State.startCommand_chip (s : State) (k : Nat) (w : Word) : (s.startCommand k w).chip = s.chip := rfl
@[simp] theorem State.startCommand_draws (s : State) (k : Nat) (w : Word) : (s.startCommand k w).draws = s.draws := rfl
@[simp] theorem State.startCommand_host (s : State) (k : Nat) (w : Word) : (s.startCommand k w).host = s.host := rfl

/-! A register file's updates. -/

@[simp] theorem RegFile.setValue_cfg (f : RegFile) (i : Slot) (v : Word) : (f.setValue i v).cfg = f.cfg := rfl
@[simp] theorem RegFile.setField_cfg (f : RegFile) (i : Slot) (b : BitField) (x : Nat) :
    (f.setField i b x).cfg = f.cfg := rfl

theorem RegFile.value_setValue (f : RegFile) (i j : Slot) (v : Word) :
    (f.setValue i v).value j = if i = j then v else f.value j := by
  simp only [RegFile.value, RegFile.setValue, Fin.getElem_fin, Vector.getElem_set, Fin.ext_iff]
  split <;> simp_all

@[simp] theorem RegFile.value_setValue_self (f : RegFile) (i : Slot) (v : Word) : (f.setValue i v).value i = v := by
  simp [RegFile.value_setValue]

theorem RegFile.value_setValue_ne (f : RegFile) {i j : Slot} (v : Word) (h : i ≠ j) :
    (f.setValue i v).value j = f.value j := by
  simp [RegFile.value_setValue, h]

@[simp] theorem RegFile.addr_setValue (f : RegFile) (i j : Slot) (v : Word) : (f.setValue i v).addr j = f.addr j := by
  simp only [RegFile.addr, RegFile.setValue, Fin.getElem_fin, Vector.getElem_set]
  split
  · next h => simp [h]
  · rfl

@[simp] theorem RegFile.addr_setField (f : RegFile) (i j : Slot) (b : BitField) (x : Nat) :
    (f.setField i b x).addr j = f.addr j := RegFile.addr_setValue ..

@[simp] theorem RegFile.value_setField_self (f : RegFile) (i : Slot) (b : BitField) (x : Nat) :
    (f.setField i b x).value i = putField b (f.value i) x := by
  simp [RegFile.setField]

theorem RegFile.value_setField_ne (f : RegFile) {i j : Slot} (b : BitField) (x : Nat) (h : i ≠ j) :
    (f.setField i b x).value j = f.value j := by
  simp [RegFile.setField, RegFile.value_setValue_ne _ _ h]

end Sys2Proof.Machine
end

