-- ==== Sys2Proof/Laws/Ops.lean ====
section
/-! SUPPORT. What each shared operation can do, said once. Every state a command reaches is written as
`(s.withMe x').withTraffic evs c`: the issuing instance replaced, transactions added, the rest of `s` kept. -/

namespace Sys2Proof.Machine

/-! ## The issuing instance -/

theorem Issues.lt {s : State} {x : Instance} (h : Issues s x) : s.cur < s.insts.length :=
  (List.getElem?_eq_some_iff.mp h).1

theorem Issues.me_eq {s : State} {x : Instance} (h : Issues s x) : s.me = x := by
  have h' : s.insts[s.cur]? = some x := h
  simp [State.me, h']

theorem Issues.unique {s : State} {x y : Instance} (h : Issues s x) (h' : Issues s y) : x = y := by
  rw [← h.me_eq, h'.me_eq]

theorem issues_of_lt {s : State} (h : s.cur < s.insts.length) : Issues s s.me := by
  simp [Issues, State.me, h]

theorem updMe_eq {s : State} {x : Instance} (h : Issues s x) (g : Instance → Instance) :
    s.updMe g = s.withMe (g x) := by
  simp [State.updMe, State.withMe, h.me_eq]

theorem withMe_issues {s : State} {x : Instance} (h : Issues s x) (y : Instance) : Issues (s.withMe y) y := by
  simp [Issues, State.withMe, h.lt]

theorem withMe_self {s : State} {x : Instance} (h : Issues s x) : s.withMe x = s := by
  obtain ⟨hlt, hx⟩ := List.getElem?_eq_some_iff.mp h
  simp [State.withMe, ← hx]

@[simp] theorem withMe_withMe (s : State) (x y : Instance) : (s.withMe x).withMe y = s.withMe y := by
  simp [State.withMe]

@[simp] theorem withMe_cur (s : State) (x : Instance) : (s.withMe x).cur = s.cur := rfl
@[simp] theorem withMe_ioInstalled (s : State) (x : Instance) : (s.withMe x).ioInstalled = s.ioInstalled := rfl
@[simp] theorem withMe_history (s : State) (x : Instance) : (s.withMe x).history = s.history := rfl
@[simp] theorem withMe_chip (s : State) (x : Instance) : (s.withMe x).chip = s.chip := rfl
@[simp] theorem withMe_draws (s : State) (x : Instance) : (s.withMe x).draws = s.draws := rfl
@[simp] theorem withMe_host (s : State) (x : Instance) : (s.withMe x).host = s.host := rfl
@[simp] theorem withMe_insts (s : State) (x : Instance) : (s.withMe x).insts = s.insts.set s.cur x := rfl

/-! ## Traffic -/

theorem withTraffic_issues {s : State} {x : Instance} (h : Issues s x) (evs : List BusEvent) (c : Chip) :
    Issues (s.withTraffic evs c) x := h

@[simp] theorem withTraffic_withMe (s : State) (evs : List BusEvent) (c : Chip) (x : Instance) :
    (s.withTraffic evs c).withMe x = (s.withMe x).withTraffic evs c := rfl

@[simp] theorem withTraffic_withTraffic (s : State) (evs evs' : List BusEvent) (c c' : Chip) :
    (s.withTraffic evs c).withTraffic evs' c' = s.withTraffic (evs ++ evs') c' := by
  simp [State.withTraffic, Nat.add_assoc]

theorem withTraffic_nil (s : State) : s.withTraffic [] s.chip = s := by
  simp [State.withTraffic]

@[simp] theorem withTraffic_cur (s : State) (evs : List BusEvent) (c : Chip) : (s.withTraffic evs c).cur = s.cur := rfl
@[simp] theorem withTraffic_insts (s : State) (evs : List BusEvent) (c : Chip) :
    (s.withTraffic evs c).insts = s.insts := rfl
@[simp] theorem withTraffic_ioInstalled (s : State) (evs : List BusEvent) (c : Chip) :
    (s.withTraffic evs c).ioInstalled = s.ioInstalled := rfl
@[simp] theorem withTraffic_history (s : State) (evs : List BusEvent) (c : Chip) :
    (s.withTraffic evs c).history = s.history ++ evs := rfl
@[simp] theorem withTraffic_host (s : State) (evs : List BusEvent) (c : Chip) :
    (s.withTraffic evs c).host = s.host := rfl
@[simp] theorem withTraffic_chip (s : State) (evs : List BusEvent) (c : Chip) : (s.withTraffic evs c).chip = c := rfl

/-- A state with replaced instance and traffic has the replaced instance as its issuer. -/
theorem reached_issues {s : State} {x : Instance} (h : Issues s x) (y : Instance) (evs : List BusEvent) (c : Chip) :
    Issues ((s.withMe y).withTraffic evs c) y := withTraffic_issues (withMe_issues h y) evs c

/-! ## Updates of the issuing instance and transactions, in that form -/

theorem complete_eq {s : State} {x : Instance} (h : Issues s x) (r : Word) :
    s.complete r = s.withMe (x.completed r) := updMe_eq h _

theorem setFile_eq {s : State} {x : Instance} (h : Issues s x) (f : RegFile) :
    s.setFile f = s.withMe { x with file := some f } := updMe_eq h _

theorem goto_eq {s : State} {x : Instance} (h : Issues s x) (c : InitState) :
    s.goto c = s.withMe { x with initState := c } := updMe_eq h _

theorem setSaved_eq {s : State} {x : Instance} (h : Issues s x) (v : Word) :
    s.setSaved v = s.withMe { x with savedChopconf := v } := updMe_eq h _

theorem rejectIllegal_eq {s : State} {x : Instance} (h : Issues s x) :
    s.rejectIllegal = s.withMe { x with cmdstat := 0x01 } := updMe_eq h _

theorem raise_eq {s : State} {x : Instance} (h : Issues s x) (r : Nat → Word → Fault) :
    s.raise r = .fault (r s.cur x.cmd) := by
  simp [State.raise, h.me_eq]

theorem afterBus_eq {s : State} {x : Instance} (h : Issues s x) (kind : BusKind) (a : Byte) (data v : Word) :
    s.afterBus kind a data v =
      (s.withMe { x with busstat := (s.answer kind a data).status }).withTraffic
        [⟨s.cur, kind, a, v, (s.answer kind a data).status⟩] (s.chip.after ⟨s.cur, kind, a, data⟩) := by
  have h' : s.insts[s.cur]? = some x := h
  simp [State.afterBus, State.updMe, State.withMe, State.withTraffic, State.me, h']

theorem afterRead_eq {s : State} {x : Instance} (h : Issues s x) (a : Byte) :
    s.afterRead a = (s.withMe { x with busstat := s.readStatus a }).withTraffic
      [⟨s.cur, .R, a, s.readValue a, s.readStatus a⟩] (s.chip.after ⟨s.cur, .R, a, 0⟩) := afterBus_eq h ..

theorem afterWrite_eq {s : State} {x : Instance} (h : Issues s x) (a : Byte) (v : Word) :
    s.afterWrite a v = (s.withMe { x with busstat := s.writeStatus a v }).withTraffic
      [⟨s.cur, .W, a, v, s.writeStatus a v⟩] (s.chip.after ⟨s.cur, .W, a, v⟩) := afterBus_eq h ..

theorem sendSlot_eq {s : State} {x : Instance} (h : Issues s x) (f : RegFile) (i : Slot) :
    s.sendSlot f i = (s.withMe { x with busstat := s.writeStatus (f.addr i) (f.value i) }).withTraffic
      [⟨s.cur, .W, f.addr i, f.value i, s.writeStatus (f.addr i) (f.value i)⟩]
      (s.chip.after ⟨s.cur, .W, f.addr i, f.value i⟩) := afterWrite_eq h ..

theorem fetchSlot_eq {s : State} {x : Instance} (h : Issues s x) (f : RegFile) (i : Slot) :
    s.fetchSlot f i =
      (s.withMe { x with
        file := some (f.setValue i (s.readValue (f.addr i)))
        busstat := s.readStatus (f.addr i) }).withTraffic
      [⟨s.cur, .R, f.addr i, s.readValue (f.addr i), s.readStatus (f.addr i)⟩]
      (s.chip.after ⟨s.cur, .R, f.addr i, 0⟩) := by
  rw [State.fetchSlot, afterRead_eq h, setFile_eq (reached_issues h ..)]
  simp

/-! ## The common checks, forwards -/

theorem withInst_of {s : State} {x : Instance} (h : Issues s x) (k : Instance → Out) : s.withInst k = k x := by
  have h' : s.insts[s.cur]? = some x := h
  simp [State.withInst, h']

theorem withFile_of {s : State} {x : Instance} {f : RegFile} (h : Loaded s x f) (k : RegFile → Out) :
    s.withFile k = k f := by
  simp [State.withFile, withInst_of h.1, h.2]

theorem withFile_unloaded {s : State} {x : Instance} (h : Issues s x) (hx : x.file = none) (k : RegFile → Out) :
    s.withFile k = .fault (.notLoaded s.cur x.cmd) := by
  simp [State.withFile, withInst_of h, hx, raise_eq h]

theorem withFileIo_of {s : State} {x : Instance} {f : RegFile} (h : Ready s x f) (k : RegFile → Out) :
    s.withFileIo k = k f := by
  simp [State.withFileIo, withFile_of h.1, State.withIo, h.2]

theorem withSlot_of {s : State} {x : Instance} (h : Issues s x) {sel : BitVec 5} (hs : sel.toNat < Config.nslot)
    (k : Slot → Out) : s.withSlot sel k = k ⟨sel.toNat, hs⟩ := by
  simp [State.withSlot, withInst_of h, slotOfSel, hs]

theorem withCfgId_of {s : State} {x : Instance} (h : Issues s x) {sel : BitVec 5} {id : CfgId}
    (hs : cfgIdOfSel sel = some id) (k : CfgId → Out) : s.withCfgId sel k = k id := by
  simp [State.withCfgId, withInst_of h, hs]

/-! ## The common checks, backwards -/

theorem withInst_next {s t : State} {k : Instance → Out} (h : s.withInst k = .next t) :
    ∃ x, Issues s x ∧ k x = .next t := by
  unfold State.withInst at h
  split at h
  · cases h
  · next x hx => exact ⟨x, hx, h⟩

theorem withFile_next {s t : State} {k : RegFile → Out} (h : s.withFile k = .next t) :
    ∃ x f, Loaded s x f ∧ k f = .next t := by
  obtain ⟨x, hx, h⟩ := withInst_next h
  split at h
  · cases h
  · next f hf => exact ⟨x, f, ⟨hx, hf⟩, h⟩

theorem withFileIo_next {s t : State} {k : RegFile → Out} (h : s.withFileIo k = .next t) :
    ∃ x f, Ready s x f ∧ k f = .next t := by
  obtain ⟨x, f, hl, h⟩ := withFile_next h
  unfold State.withIo at h
  split at h
  · next hio => exact ⟨x, f, ⟨hl, hio⟩, h⟩
  · cases h

theorem withSlot_next {s t : State} {sel : BitVec 5} {k : Slot → Out} (h : s.withSlot sel k = .next t) :
    ∃ x, Issues s x ∧ (t = s.rejectIllegal ∨ ∃ hs : sel.toNat < Config.nslot, k ⟨sel.toNat, hs⟩ = .next t) := by
  obtain ⟨x, hx, h⟩ := withInst_next h
  refine ⟨x, hx, ?_⟩
  unfold slotOfSel at h
  by_cases hs : sel.toNat < Config.nslot
  · simp only [hs, dite_true] at h
    exact .inr ⟨hs, h⟩
  · simp only [hs, dite_false] at h
    cases h
    exact .inl rfl

theorem withCfgId_next {s t : State} {sel : BitVec 5} {k : CfgId → Out} (h : s.withCfgId sel k = .next t) :
    ∃ x, Issues s x ∧ (t = s.rejectIllegal ∨ ∃ id, cfgIdOfSel sel = some id ∧ k id = .next t) := by
  obtain ⟨x, hx, h⟩ := withInst_next h
  refine ⟨x, hx, ?_⟩
  split at h
  · cases h
    exact .inl rfl
  · next id hid => exact .inr ⟨id, hid, h⟩

theorem withInst_fault {s : State} {r : Fault} {k : Instance → Out} (h : s.withInst k = .fault r) :
    ∃ x, Issues s x ∧ k x = .fault r := by
  unfold State.withInst at h
  split at h
  · cases h
  · next x hx => exact ⟨x, hx, h⟩

theorem withFile_fault {s : State} {r : Fault} {k : RegFile → Out} (h : s.withFile k = .fault r) :
    ∃ x, Issues s x ∧
      ((x.file = none ∧ r = .notLoaded s.cur x.cmd) ∨ ∃ f, x.file = some f ∧ k f = .fault r) := by
  obtain ⟨x, hx, h⟩ := withInst_fault h
  refine ⟨x, hx, ?_⟩
  split at h
  · next hf =>
    rw [raise_eq hx] at h
    cases h
    exact .inl ⟨hf, rfl⟩
  · next f hf => exact .inr ⟨f, hf, h⟩

theorem withFileIo_fault {s : State} {r : Fault} {k : RegFile → Out} (h : s.withFileIo k = .fault r) :
    ∃ x, Issues s x ∧
      ((x.file = none ∧ r = .notLoaded s.cur x.cmd) ∨
        ∃ f, x.file = some f ∧
          ((s.ioInstalled = false ∧ r = .ioNotInstalled s.cur x.cmd) ∨ (s.ioInstalled = true ∧ k f = .fault r))) := by
  obtain ⟨x, hx, h | ⟨f, hf, h⟩⟩ := withFile_fault h
  · exact ⟨x, hx, .inl h⟩
  · refine ⟨x, hx, .inr ⟨f, hf, ?_⟩⟩
    unfold State.withIo at h
    split at h
    · next hio => exact .inr ⟨hio, h⟩
    · next hio =>
      rw [raise_eq hx] at h
      cases h
      exact .inl ⟨by simpa using hio, rfl⟩

theorem withConversion_next {s t : State} {c : Conversion} {k : Nat → Out} (h : s.withConversion c k = .next t) :
    ∃ v, c = .value v ∧ k v = .next t := by
  cases c with
  | value v => exact ⟨v, rfl, h⟩
  | divZero => cases h
  | range => cases h

/-! ## Traffic and the agent behind the bus -/

theorem afterAll_snoc (c : Chip) (evs : List BusEvent) (e : BusEvent) :
    c.afterAll (evs ++ [e]) = (c.afterAll evs).after (eventReq e) := by
  simp [Chip.afterAll]

theorem answersAll_snoc {c : Chip} {n : Nat} {h evs : List BusEvent} {e : BusEvent} (ha : c.AnswersAll n h evs)
    (he : (c.afterAll evs).Answers (n + evs.length) (h ++ evs) e) : c.AnswersAll n h (evs ++ [e]) := by
  induction evs generalizing c n h with
  | nil => simpa [Chip.AnswersAll, Chip.afterAll] using he
  | cons d evs ih =>
    refine ⟨ha.1, ih ha.2 ?_⟩
    simpa [Chip.afterAll, Nat.add_assoc, Nat.add_comm 1] using he

/-- `t` follows from `s` by the transactions `evs`, each answered by the agent behind the bus, and updates of instances. -/
def BusTrace (s t : State) (evs : List BusEvent) : Prop :=
  s.chip.AnswersAll s.draws s.history evs ∧ t.history = s.history ++ evs ∧ t.chip = s.chip.afterAll evs ∧
    t.draws = s.draws + evs.length

theorem BusTrace.refl (s : State) : BusTrace s s [] := ⟨trivial, by simp, rfl, rfl⟩

theorem BusTrace.updMe {s t : State} {evs : List BusEvent} (h : BusTrace s t evs) (g : Instance → Instance) :
    BusTrace s (t.updMe g) evs := h

theorem BusTrace.afterRead {s t : State} {evs : List BusEvent} (h : BusTrace s t evs) (a : Byte) :
    BusTrace s (t.afterRead a) (evs ++ [⟨t.cur, .R, a, t.readValue a, t.readStatus a⟩]) := by
  obtain ⟨ha, hh, hc, hd⟩ := h
  refine ⟨answersAll_snoc ha ?_, ?_, ?_, ?_⟩
  · rw [← hc, ← hd, ← hh]
    exact ⟨rfl, fun _ => rfl⟩
  · rw [← List.append_assoc, ← hh]
    rfl
  · rw [afterAll_snoc, ← hc]
    rfl
  · rw [List.length_append, ← Nat.add_assoc, ← hd]
    rfl

theorem BusTrace.afterWrite {s t : State} {evs : List BusEvent} (h : BusTrace s t evs) (a : Byte) (v : Word) :
    BusTrace s (t.afterWrite a v) (evs ++ [⟨t.cur, .W, a, v, t.writeStatus a v⟩]) := by
  obtain ⟨ha, hh, hc, hd⟩ := h
  refine ⟨answersAll_snoc ha ?_, ?_, ?_, ?_⟩
  · rw [← hc, ← hd, ← hh]
    exact ⟨rfl, fun h => by cases h⟩
  · rw [← List.append_assoc, ← hh]
    rfl
  · rw [afterAll_snoc, ← hc]
    rfl
  · rw [List.length_append, ← Nat.add_assoc, ← hd]
    rfl

/-! ## Frames of the shared forms -/

theorem set_other {l : List Instance} {n k : Nat} (x : Instance) (h : k ≠ n) : (l.set n x)[k]? = l[k]? := by
  rw [List.getElem?_set]
  simp [Ne.symm h]

theorem reached_sameElsewhere (s : State) (x : Instance) (evs : List BusEvent) (c : Chip) :
    SameElsewhere s ((s.withMe x).withTraffic evs c) :=
  ⟨rfl, rfl, by simp, fun _ h => set_other x h⟩

/-! ## Faults of the checks -/

theorem withConversion_fault {s : State} {x} (hx : Issues s x) {c : Conversion} {k r}
    (h : s.withConversion c k = .fault r) :
    (c = .divZero ∧ r = .divZero s.cur x.cmd) ∨ (c = .range ∧ r = .range s.cur x.cmd) ∨ ∃ v, c = .value v ∧ k v = .fault r := by
  cases c with
  | value v => exact .inr (.inr ⟨v, rfl, h⟩)
  | divZero => simp only [State.withConversion, raise_eq hx] at h; cases h; exact .inl ⟨rfl, rfl⟩
  | range => simp only [State.withConversion, raise_eq hx] at h; cases h; exact .inr (.inl ⟨rfl, rfl⟩)

theorem withSlot_fault {s : State} {r : Fault} {sel : BitVec 5} {k : Slot → Out} (h : s.withSlot sel k = .fault r) :
    ∃ i, k i = .fault r := by
  obtain ⟨x, hx, h⟩ := withInst_fault h
  split at h
  · cases h
  · exact ⟨_, h⟩

theorem withCfgId_fault {s : State} {r : Fault} {sel : BitVec 5} {k : CfgId → Out} (h : s.withCfgId sel k = .fault r) :
    ∃ i, k i = .fault r := by
  obtain ⟨x, hx, h⟩ := withInst_fault h
  split at h
  · cases h
  · exact ⟨_, h⟩

/-! ## Frames of the register file -/

theorem sameBut_setField (f : RegFile) (i : Slot) (b : BitField) (v : Nat) :
    f.SameBut (f.setField i b v) [i.val] := by
  refine ⟨rfl, by simp, fun j hj => RegFile.value_setField_ne _ _ _ (fun h => hj (by simp [h]))⟩

theorem sameBut_setValue (f : RegFile) (i : Slot) (v : Word) : f.SameBut (f.setValue i v) [i.val] := by
  refine ⟨rfl, by simp, fun j hj => RegFile.value_setValue_ne _ _ (fun h => hj (by simp [h]))⟩

theorem modify_set {l : List Instance} {k : Nat} {x : Instance} (h : l[k]? = some x) (g : Instance → Instance) :
    l.modify k g = l.set k (g x) := by
  obtain ⟨hlt, hx⟩ := List.getElem?_eq_some_iff.mp h
  rw [List.modify_eq_set_getElem?]; simp [h]

end Sys2Proof.Machine
end

