-- ==== Sys2Proof/Laws/Init.lean ====
section
/-! SUPPORT. The init/verify FSM (40_init.md R121): its rows one at a time, `INIT_STATE` writes pushed past the other updates,
the states reached inside one command, and what LOAD_DEFAULTS leaves. -/

namespace Sys2Proof.Machine

/-! ## A write of `INIT_STATE` commutes with the other updates -/

theorem goto_goto {s : State} {x : Instance} (h : Issues s x) (c d : InitState) : (s.goto c).goto d = s.goto d := by
  rw [goto_eq h, goto_eq h, goto_eq (withMe_issues h _)]; simp

theorem goto_send {s : State} {x : Instance} (h : Issues s x) (c : InitState) (f : RegFile) (i : Slot) :
    (s.goto c).sendSlot f i = (s.sendSlot f i).goto c := by
  rw [goto_eq h, sendSlot_eq (withMe_issues h _), sendSlot_eq h, goto_eq (reached_issues h _ _ _)]; simp; rfl

theorem goto_fetch {s : State} {x : Instance} (h : Issues s x) (c : InitState) (f : RegFile) (i : Slot) :
    (s.goto c).fetchSlot f i = (s.fetchSlot f i).goto c := by
  rw [goto_eq h, fetchSlot_eq (withMe_issues h _), fetchSlot_eq h, goto_eq (reached_issues h _ _ _)]; simp; rfl

theorem goto_setFile {s : State} {x : Instance} (h : Issues s x) (c : InitState) (f : RegFile) :
    (s.goto c).setFile f = (s.setFile f).goto c := by
  rw [goto_eq h, setFile_eq (withMe_issues h _), setFile_eq h, goto_eq (withMe_issues h _)]; simp

theorem goto_setSaved {s : State} {x : Instance} (h : Issues s x) (c : InitState) (v : Word) :
    (s.goto c).setSaved v = (s.setSaved v).goto c := by
  rw [goto_eq h, setSaved_eq (withMe_issues h _), setSaved_eq h, goto_eq (withMe_issues h _)]; simp

theorem goto_complete {s : State} {x : Instance} (h : Issues s x) (c : InitState) (v : Word) :
    (s.goto c).complete v = (s.complete v).goto c := by
  rw [goto_eq h, complete_eq (withMe_issues h _), complete_eq h, goto_eq (withMe_issues h _)]; simp [Instance.completed]

theorem goto_issues {s : State} {x : Instance} (h : Issues s x) (c : InitState) :
    Issues (s.goto c) { x with initState := c } := by
  rw [goto_eq h]; exact withMe_issues h _

/-! ## The register file after an update -/

theorem loaded_send {s x f} (h : Loaded s x f) (g : RegFile) (i) :
    ∃ y, Loaded (s.sendSlot g i) y f ∧ y.savedChopconf = x.savedChopconf := by
  rw [sendSlot_eq h.1]; exact ⟨_, ⟨reached_issues h.1 _ _ _, h.2⟩, rfl⟩

theorem loaded_fetch {s x f} (h : Loaded s x f) (g : RegFile) (i) :
    ∃ y, Loaded (s.fetchSlot g i) y (g.setValue i (s.readValue (g.addr i))) ∧
      y.savedChopconf = x.savedChopconf := by
  rw [fetchSlot_eq h.1]; exact ⟨_, ⟨reached_issues h.1 _ _ _, rfl⟩, rfl⟩

theorem loaded_setFile {s x f} (h : Loaded s x f) (g : RegFile) : ∃ y, Loaded (s.setFile g) y g := by
  rw [setFile_eq h.1]; exact ⟨_, ⟨withMe_issues h.1 _, rfl⟩⟩

theorem loaded_setSaved {s x f} (h : Loaded s x f) (v) : ∃ y, Loaded (s.setSaved v) y f ∧ y.savedChopconf = v := by
  rw [setSaved_eq h.1]; exact ⟨_, ⟨withMe_issues h.1 _, h.2⟩, rfl⟩

/-! ## One row of the FSM -/

theorem run_row {s x f} (h : Loaded s x f) {c : InitState} (hc : c ≠ .idle) (k : Nat) :
    State.initRun (k+1) (s.goto c) = State.initRun k ((s.goto c).initRow f c) := by
  have hi := goto_issues h.1 c
  rw [State.initRun]
  simp [hi.me_eq, hc, State.initStep, h.2]

theorem run_idle {s x} (h : Issues s x) (k : Nat) : State.initRun k (s.goto .idle) = s.goto .idle := by
  cases k with
  | zero => rfl
  | succ k => simp [State.initRun, (goto_issues h _).me_eq]

theorem run_send {s x f} (h : Loaded s x f) {c d : InitState} {i : Slot} (hc : c ≠ .idle)
    (hr : ∀ s : State, s.initRow f c = (s.sendSlot f i).goto d) (k : Nat) :
    State.initRun (k+1) (s.goto c) = State.initRun k ((s.sendSlot f i).goto d) := by
  rw [run_row h hc, hr, goto_send h.1, goto_goto (loaded_send h f i).choose_spec.1.1]

/-! ## States reached inside one command -/

/-- `t` is reached from `s` inside one command: the issuing instance is `y`, the events are `evs`. -/
def Reached (s : State) (y : Instance) (evs : List BusEvent) (t : State) : Prop :=
  ∃ c, (s.chip.Sound → c.Sound) ∧ t = (s.withMe y).withTraffic evs c

section
variable {s t : State} {x y : Instance} {evs : List BusEvent}

theorem Reached.refl (h : Issues s x) : Reached s x [] s := ⟨s.chip, id, by rw [withMe_self h, withTraffic_nil]⟩

theorem Reached.issues (hx : Issues s x) (h : Reached s y evs t) : Issues t y := by
  obtain ⟨c, -, rfl⟩ := h; exact reached_issues hx _ _ _

theorem Reached.goto (hx : Issues s x) (h : Reached s y evs t) (c : InitState) :
    Reached s { y with initState := c } evs (t.goto c) := by
  obtain ⟨c', hc, rfl⟩ := h
  exact ⟨c', hc, by rw [goto_eq (reached_issues hx _ _ _)]; simp⟩

theorem Reached.setFile (hx : Issues s x) (h : Reached s y evs t) (f : RegFile) :
    Reached s { y with file := some f } evs (t.setFile f) := by
  obtain ⟨c', hc, rfl⟩ := h
  exact ⟨c', hc, by rw [setFile_eq (reached_issues hx _ _ _)]; simp⟩

theorem Reached.setSaved (hx : Issues s x) (h : Reached s y evs t) (v : Word) :
    Reached s { y with savedChopconf := v } evs (t.setSaved v) := by
  obtain ⟨c', hc, rfl⟩ := h
  exact ⟨c', hc, by rw [setSaved_eq (reached_issues hx _ _ _)]; simp⟩

theorem Reached.complete (hx : Issues s x) (h : Reached s y evs t) (v : Word) :
    Reached s (y.completed v) evs (t.complete v) := by
  obtain ⟨c', hc, rfl⟩ := h
  exact ⟨c', hc, by rw [complete_eq (reached_issues hx _ _ _)]; simp⟩

theorem Reached.send (hx : Issues s x) (h : Reached s y evs t) (f : RegFile) (i : Slot) :
    ∃ st, Reached s { y with busstat := st } (evs ++ [⟨s.cur, .W, f.addr i, f.value i, st⟩]) (t.sendSlot f i) := by
  obtain ⟨c', hc, rfl⟩ := h
  exact ⟨_, _, fun h => chip_after_sound (hc h) _, by rw [sendSlot_eq (reached_issues hx _ _ _)]; simp; rfl⟩

theorem Reached.fetch (hx : Issues s x) (h : Reached s y evs t) (f : RegFile) (i : Slot) :
    ∃ st, Reached s { y with file := some (f.setValue i (t.readValue (f.addr i))), busstat := st }
      (evs ++ [⟨s.cur, .R, f.addr i, t.readValue (f.addr i), st⟩]) (t.fetchSlot f i) := by
  obtain ⟨c', hc, rfl⟩ := h
  exact ⟨_, _, fun h => chip_after_sound (hc h) _, by rw [fetchSlot_eq (reached_issues hx _ _ _)]; simp; rfl⟩
end

/-! ## Sound register files -/

theorem defaultFile_sound : defaultFile.Sound := by
  refine ⟨?_, by decide, 4, by decide, by decide⟩
  decide +kernel

theorem sameBut_sound {f g : RegFile} {l} (h : f.SameBut g l) (hf : f.Sound) : g.Sound := by
  obtain ⟨a, b, -⟩ := h
  exact ⟨fun i => by rw [b, hf.1], by rw [a]; exact hf.2.1, by rw [a]; exact hf.2.2⟩

end Sys2Proof.Machine
end

