-- ==== Sys2Proof/Laws/PerInstr.lean ====
section
/-! SUPPORT. Statements about every instruction as syntax, one lemma per constructor. Family `EncodedFields`: the word an
instruction is encoded as carries its opcode in `OP`, 0 in `RSV`, and passes the mask check of its row (30_encoding.md R80 to
R82), so that the decoder reaches its row. -/

namespace Sys2Proof.Laws.EncodedFields

/-- The format of an instruction (R84). -/
def formatOf (i : Instr) : Format :=
  match i with
  | .loadDefaults | .ifInit | .hwInit | .setCurrent | .getCurrent | .setHybridThrs | .getTpwmthrs
  | .setTpwmthrs | .setCotChopper => .n
  | .mstepsValid _ | .setMsteps _ => .imm
  | .writeRegX _ | .readRegX _ | .getRegPtr _ => .addr
  | .writeReg _ | .readReg _ | .shadowRead _ | .shadowWrite _ | .configRead _ | .configWrite _ => .s

def Statement (i : Instr) : Prop :=
  opField (encode i) = opcodeOf i ∧ rsvField (encode i) = 0 ∧
    encode i &&& formatMask (formatOf i) = (opcodeOf i).setWidth 32

/-- An address operand leaves the immediate's high half 0. -/
theorem addr_high (a : Byte) : (a.setWidth 16 : Half).extractLsb' 8 8 = 0 := by
  apply BitVec.eq_of_getLsbD_eq
  intro i hi
  simp [hi]

theorem of_n (op : Byte) : cmdWord 0 0 op &&& formatMask .n = op.setWidth 32 := by
  simpa using (mask_iff .n (cmdWord 0 0 op)).mpr ⟨by simp, by simp, by simp⟩

theorem of_s (sel : BitVec 5) (op : Byte) : cmdWord 0 sel op &&& formatMask .s = op.setWidth 32 := by
  simpa using (mask_iff .s (cmdWord 0 sel op)).mpr ⟨by simp, by simp⟩

theorem of_imm (n : Half) (op : Byte) : cmdWord n 0 op &&& formatMask .imm = op.setWidth 32 := by
  simpa using (mask_iff .imm (cmdWord n 0 op)).mpr ⟨by simp, by simp⟩

theorem of_addr (a : Byte) (op : Byte) : cmdWord (a.setWidth 16) 0 op &&& formatMask .addr = op.setWidth 32 := by
  simpa using (mask_iff .addr (cmdWord (a.setWidth 16) 0 op)).mpr ⟨by simp [addr_high], by simp, by simp⟩

theorem loadDefaults : Statement .loadDefaults :=
  ⟨opField_cmdWord .., rsvField_cmdWord .., of_n _⟩

theorem ifInit : Statement .ifInit :=
  ⟨opField_cmdWord .., rsvField_cmdWord .., of_n _⟩

theorem hwInit : Statement .hwInit :=
  ⟨opField_cmdWord .., rsvField_cmdWord .., of_n _⟩

theorem setCurrent : Statement .setCurrent :=
  ⟨opField_cmdWord .., rsvField_cmdWord .., of_n _⟩

theorem getCurrent : Statement .getCurrent :=
  ⟨opField_cmdWord .., rsvField_cmdWord .., of_n _⟩

theorem mstepsValid (n : Half) : Statement (.mstepsValid n) :=
  ⟨opField_cmdWord .., rsvField_cmdWord .., of_imm ..⟩

theorem setMsteps (n : Half) : Statement (.setMsteps n) :=
  ⟨opField_cmdWord .., rsvField_cmdWord .., of_imm ..⟩

theorem setHybridThrs : Statement .setHybridThrs :=
  ⟨opField_cmdWord .., rsvField_cmdWord .., of_n _⟩

theorem getTpwmthrs : Statement .getTpwmthrs :=
  ⟨opField_cmdWord .., rsvField_cmdWord .., of_n _⟩

theorem setTpwmthrs : Statement .setTpwmthrs :=
  ⟨opField_cmdWord .., rsvField_cmdWord .., of_n _⟩

theorem setCotChopper : Statement .setCotChopper :=
  ⟨opField_cmdWord .., rsvField_cmdWord .., of_n _⟩

theorem writeReg (sel : BitVec 5) : Statement (.writeReg sel) :=
  ⟨opField_cmdWord .., rsvField_cmdWord .., of_s ..⟩

theorem readReg (sel : BitVec 5) : Statement (.readReg sel) :=
  ⟨opField_cmdWord .., rsvField_cmdWord .., of_s ..⟩

theorem writeRegX (addr : Byte) : Statement (.writeRegX addr) :=
  ⟨opField_cmdWord .., rsvField_cmdWord .., of_addr ..⟩

theorem readRegX (addr : Byte) : Statement (.readRegX addr) :=
  ⟨opField_cmdWord .., rsvField_cmdWord .., of_addr ..⟩

theorem getRegPtr (addr : Byte) : Statement (.getRegPtr addr) :=
  ⟨opField_cmdWord .., rsvField_cmdWord .., of_addr ..⟩

theorem shadowRead (sel : BitVec 5) : Statement (.shadowRead sel) :=
  ⟨opField_cmdWord .., rsvField_cmdWord .., of_s ..⟩

theorem shadowWrite (sel : BitVec 5) : Statement (.shadowWrite sel) :=
  ⟨opField_cmdWord .., rsvField_cmdWord .., of_s ..⟩

theorem configRead (sel : BitVec 5) : Statement (.configRead sel) :=
  ⟨opField_cmdWord .., rsvField_cmdWord .., of_s ..⟩

theorem configWrite (sel : BitVec 5) : Statement (.configWrite sel) :=
  ⟨opField_cmdWord .., rsvField_cmdWord .., of_s ..⟩

end Sys2Proof.Laws.EncodedFields
end

