-- ==== Sys2Proof/Laws/RegAccess.lean ====
section
/-! SUPPORT. The scan of 45_regaccess.md R236. -/

namespace Sys2Proof.Machine

theorem scanSlots_none (a : Byte) (l : List Datagram) (n : Nat) (h : ∀ d ∈ l, d.addr ≠ a) : scanSlots a l n = 0 := by
  induction l generalizing n with
  | nil => rfl
  | cons d l ih => simp only [scanSlots]; rw [if_neg (h d (by simp)), ih _ (fun d hd => h d (by simp [hd]))]

theorem scanSlots_some (a : Byte) (l : List Datagram) (n i : Nat) (hi : i < l.length)
    (he : l[i].addr = a) (hj : ∀ j (hj : j < i), l[j].addr ≠ a) :
    scanSlots a l n = 0x80000000 ||| BitVec.ofNat 32 (n + i) := by
  induction l generalizing n i with
  | nil => simp at hi
  | cons d l ih =>
    simp only [scanSlots]
    cases i with
    | zero => simp at he; simp [he]
    | succ i =>
      have := hj 0 (by omega)
      simp at this
      rw [if_neg this, ih (n+1) i (by simpa using hi) (by simpa using he) (fun j hj' => by simpa using hj (j+1) (by omega))]
      congr 2; omega

end Sys2Proof.Machine
end

