-- ==== Sys2Proof/Laws/Threshold.lean ====
section
/-! SUPPORT. The conversions of 43_threshold.md R180 and R184: when each of their three results comes out. -/

namespace Sys2Proof.Machine

theorem thrConvert_cases (lim F ms x st : Nat) :
    (∃ t, thrConvert lim F ms x st = .value t) ∨
    (thrConvert lim F ms x st = .divZero ∧ x ≠ 0 ∧ st = 0) ∨
    (thrConvert lim F ms x st = .range ∧ x ≠ 0 ∧ st ≠ 0 ∧ (lim + 1) * (256 * x * st) ≤ F * ms * 2 ^ 32) := by
  unfold thrConvert
  split
  · simp
  · split
    · simp_all
    · next h1 h2 =>
      split
      · next h3 =>
        refine .inr (.inr ⟨rfl, h1, h2, ?_⟩)
        unfold thrQuotient at h3
        rw [← Nat.le_div_iff_mul_le (by positivity)]
        exact h3
      · simp

theorem thrConvert_eq_value {lim F ms x st q : Nat}
    (h : (x = 0 ∧ q = 0) ∨ (x ≠ 0 ∧ st ≠ 0 ∧ q * (256 * x * st) ≤ F * ms * 2 ^ 32 ∧
      F * ms * 2 ^ 32 < (q + 1) * (256 * x * st) ∧ q ≤ lim)) :
    thrConvert lim F ms x st = .value q := by
  unfold thrConvert
  rcases h with ⟨h, rfl⟩ | ⟨hx, hs, h1, h2, h3⟩
  · simp [h]
  · have : thrQuotient F ms x st = q := by
      unfold thrQuotient
      exact Nat.div_eq_of_lt_le h1 h2
    rw [if_neg hx, if_neg hs, this, if_neg (by omega)]

theorem thrConvert_value {lim F ms x st t : Nat} (h : thrConvert lim F ms x st = .value t) :
    (x = 0 ∧ t = 0) ∨ (x ≠ 0 ∧ st ≠ 0 ∧ t = F * ms * 2 ^ 32 / (256 * x * st) ∧ t ≤ lim) := by
  unfold thrConvert at h
  split at h
  · cases h; exact .inl ⟨‹_›, rfl⟩
  · split at h
    · cases h
    · split at h
      · cases h
      · cases h; exact .inr ⟨‹_›, ‹_›, rfl, by omega⟩

end Sys2Proof.Machine
end

