-- ==== Sys2Proof/Tests/Slice0.lean ====
section
/-! SUPPORT. Tests: the checks of WellFormed, the decoder on words written from the spec's encodings, vectors of
spec/95_test_vectors.md as single steps, and for every obligation with hypotheses a state and operands that meet them. -/

namespace Sys2Proof.Tests

open Sys2Proof.Machine

set_option Elab.async false

/-! ## Well-formedness (R87) -/

theorem test_wf_slot_30 : (Instr.writeReg 30).wellFormed = true := by decide
theorem test_wf_refuses_write_slot_31 : (Instr.writeReg 31).wellFormed = false := by decide
theorem test_wf_refuses_read_slot_31 : (Instr.readReg 31).wellFormed = false := by decide
theorem test_wf_refuses_shadow_read_31 : (Instr.shadowRead 31).wellFormed = false := by decide
theorem test_wf_refuses_shadow_write_31 : (Instr.shadowWrite 31).wellFormed = false := by decide
theorem test_wf_config_5 : (Instr.configRead 5).wellFormed = true := by decide
theorem test_wf_refuses_config_read_6 : (Instr.configRead 6).wellFormed = false := by decide
theorem test_wf_refuses_config_write_6 : (Instr.configWrite 6).wellFormed = false := by decide

/-- R9: `NSLOT` is the one for `HAS_EXT`. -/
theorem test_nslot : Config.nslot = if Config.hasExt then 31 else 19 := by decide

/-! ## Decoding: IMM, RSV, SEL and OP written out bit by bit (R80, R84) -/

theorem test_decode_load_defaults : decode 0b0000000000000000_000_00000_00000001 = .ok .loadDefaults := by decide
theorem test_decode_if_init : decode 0b0000000000000000_000_00000_00000010 = .ok .ifInit := by decide
theorem test_decode_hw_init : decode 0b0000000000000000_000_00000_00000011 = .ok .hwInit := by decide
theorem test_decode_set_current : decode 0b0000000000000000_000_00000_00010000 = .ok .setCurrent := by decide
theorem test_decode_get_current : decode 0b0000000000000000_000_00000_00010001 = .ok .getCurrent := by decide
theorem test_decode_msteps_valid : decode 0b0000000100101100_000_00000_00100000 = .ok (.mstepsValid 300) := by decide
theorem test_decode_set_msteps : decode 0b1000000000000001_000_00000_00100001 = .ok (.setMsteps 0x8001) := by decide
theorem test_decode_set_hybrid_thrs : decode 0b0000000000000000_000_00000_00110000 = .ok .setHybridThrs := by decide
theorem test_decode_get_tpwmthrs : decode 0b0000000000000000_000_00000_00110001 = .ok .getTpwmthrs := by decide
theorem test_decode_set_tpwmthrs : decode 0b0000000000000000_000_00000_00110010 = .ok .setTpwmthrs := by decide
theorem test_decode_set_cot_chopper : decode 0b0000000000000000_000_00000_01000000 = .ok .setCotChopper := by decide
theorem test_decode_write_reg : decode 0b0000000000000000_000_11110_01010000 = .ok (.writeReg 30) := by decide
theorem test_decode_read_reg : decode 0b0000000000000000_000_01100_01010001 = .ok (.readReg 12) := by decide
theorem test_decode_write_reg_x : decode 0b0000000000101101_000_00000_01010010 = .ok (.writeRegX 0x2D) := by decide
theorem test_decode_read_reg_x : decode 0b0000000011111111_000_00000_01010011 = .ok (.readRegX 0xFF) := by decide
theorem test_decode_get_reg_ptr : decode 0b0000000001110011_000_00000_01010100 = .ok (.getRegPtr 0x73) := by decide
theorem test_decode_shadow_read : decode 0b0000000000000000_000_10011_01100000 = .ok (.shadowRead 19) := by decide
theorem test_decode_shadow_write : decode 0b0000000000000000_000_00011_01100001 = .ok (.shadowWrite 3) := by decide
theorem test_decode_config_read : decode 0b0000000000000000_000_00101_01100010 = .ok (.configRead 5) := by decide
theorem test_decode_config_write : decode 0b0000000000000000_000_00100_01100011 = .ok (.configWrite 4) := by decide

/-- V-ENC-1 to V-ENC-9, V-ENC-14, V-ENC-15, V-ENC-17 and V-ENC-19. -/
theorem test_decode_refuses :
    [0x00000000, 0x00000004, 0x000000FF, 0x00000101, 0x00010001, 0x80000003, 0x00010011, 0x00002050, 0x00001F50,
      0x00000120, 0x01000052, 0x00000662, 0x00008000].map decode =
    [.error .reservedOpcode, .error .reservedOpcode, .error .reservedOpcode, .error .mustBeZero, .error .mustBeZero,
      .error .mustBeZero, .error .mustBeZero, .error .mustBeZero, .error .selectorRange, .error .mustBeZero,
      .error .mustBeZero, .error .selectorRange, .error .reservedOpcode] := by decide

theorem test_decode_table_word : decodeTableWord 32 0x00000C51 = some (.readReg 12) := by decide

/-- R94: `SET_CURRENT 500, 50` and `SET_COT_CHOPPER 5, 24, 13, 12, 1` with the argument words of V-CUR-1 and R200. -/
theorem test_assemble :
    assemble 0 [.at 1, .setCurrent 500 50, .setCotChopper 5 24 13 12 1] =
      [.arg0 1 0x003201F4, .cmd 1 0x00000010, .arg0 1 0x0C0D1805, .arg1 1 1, .cmd 1 0x00000040] := by decide

/-- R94: a negative offset is masked to its byte (V-SRC-5). -/
theorem test_assemble_negative : asmChopperArg0 5 24 0 (-10) = 0xF6001805 := by decide

theorem test_assemble_names : asmSelector asmRegNames "CHOPCONF" = some 12 ∧ asmSelector asmRegNames "ENCM_CTRL" = some 30 ∧
    asmSelector asmCfgNames "MICROSTEPS" = some 5 ∧ asmQ 50 1 = some 0x00320000 := by decide

/-- Log 23: the largest x with a word, x = 65536, and a zero denominator. -/
theorem test_assemble_q_edges : asmQ 0xFFFFFFFF 65536 = some 0xFFFFFFFF ∧ asmQ 65536 1 = none ∧ asmQ 1 0 = none := by decide

/-! ## Start states and what a step shows -/

/-- An instance right after LOAD_DEFAULTS. -/
def freshInst : Instance := { Instance.reset with file := some defaultFile }

/-- `SD` of 95_test_vectors.md for instance 0, beside an instance 1 that is still in reset. -/
def booted (c : Chip) : State :=
  { State.resetWith 2 c with ioInstalled := true, insts := [freshInst, Instance.reset] }

/-- `SD-IO`: loaded, with no transport. -/
def offline : State := { booted (.stuck 0) with ioInstalled := false }

/-- The argument words of the issuing instance set. -/
def args (a0 a1 : Word) (s : State) : State := s.updMe fun x => { x with arg0 := a0, arg1 := a1 }

/-- A slot of the issuing instance set. -/
def poke (i : Slot) (v : Word) (s : State) : State := s.setFile ((s.me.file.getD defaultFile).setValue i v)

def sd : State := booted (Chip.echoChip 0x80000000)

/-- The issuing instance's register file. -/
def fileOf (s : State) : RegFile := s.me.file.getD defaultFile

/-- The state after a command, where there is one. -/
def after (i : Instr) (s : State) : State := (nextOf (exec i s)).getD s

/-- A host write of the word to instance 0, as one step. -/
def write (w : Word) (s : State) : Out := step { s with host := [.cmd 0 w] }

/-- What the host and the bus see after a command. -/
structure Seen where
  result : Word
  cmdstat : Byte
  busstat : Byte
  bus : List (BusKind × Byte × Word)
deriving DecidableEq, Repr

def seen (o : Out) : Option Seen :=
  (nextOf o).map fun t => ⟨t.me.result, t.me.cmdstat, t.me.busstat, t.history.map fun e => (e.kind, e.addr, e.value)⟩

theorem next_after {i : Instr} {s : State} (h : (nextOf (exec i s)).isSome = true) :
    exec i s = .next (after i s) := by
  unfold after
  cases he : exec i s <;> simp_all [nextOf]

theorem next_step {s : State} (h : (nextOf (step s)).isSome = true) : ∃ t, step s = .next t := by
  cases he : step s <;> simp_all [nextOf]

theorem fault_eq {o : Out} {r : Fault} (h : faultOf o = some r) : o = .fault r := by
  cases o <;> simp_all [faultOf]

/-! ## Vectors, one step each -/

/-- V-INIT: LOAD_DEFAULTS from reset, as the machine's first command. -/
theorem test_load_defaults :
    (nextOf (step (State.reset.withFetchWord 32 0x00000001))).map (fun t => (t.me.loaded, (fileOf t).value slotChopconf,
      (fileOf t).addr slotDrvStatus, (fileOf t).cfg.fClk, t.history)) =
      some (true, 0x140100C3, 0x6F, 12000000, []) := by decide +kernel

/-- R310: IF_INIT from reset. -/
theorem test_if_init :
    (nextOf (write 0x00000002 (State.resetWith 2 .free))).map (fun t => (t.ioInstalled, t.me.loaded)) =
      some (true, false) := by decide +kernel

/-- V-CHK-13. -/
theorem test_if_init_twice : faultOf (write 0x00000002 sd) = some (.ioReinstall 0 0x00000002) := by decide +kernel

/-- V-INIT-1. -/
theorem test_hw_init :
    seen (write 0x00000003 sd) = some ⟨1, 0x00, 0x00,
      [(.R, 0x6F, 0x80000000), (.R, 0x01, 1), (.W, 0x00, 4), (.W, 0x6C, 0x140100C3), (.W, 0x6D, 0), (.W, 0x70, 0x00050480),
       (.W, 0x10, 0x00061008), (.W, 0x11, 0x80), (.W, 0x13, 0), (.W, 0x6C, 0x140300C3), (.W, 0x10, 0x00060F07),
       (.R, 0x6C, 0x140300C3)]⟩ := by decide +kernel

/-- V-INIT-4: the end state of a failed verify. -/
theorem test_hw_init_verify_fails :
    (nextOf (write 0x00000003 (booted (.stuck 0x12345678)))).map (fun t => (t.me.result, (fileOf t).value slotDrvStatus,
      (fileOf t).value slotGstat, (fileOf t).value slotChopconf, t.me.savedChopconf, t.me.initState.code)) =
      some (0, 0x12345678, 0x12345678, 0x12345678, 0x140300C3, 0) := by decide +kernel

/-- V-CUR-1. -/
theorem test_set_current : seen (write 0x00000010 (args 0x003201F4 0 sd)) =
    some ⟨0, 0x00, 0x00, [(.W, 0x6C, 0x140300C3), (.W, 0x10, 0x00060F07)]⟩ := by decide +kernel

/-- V-CUR-4: one milliamp above the vsense boundary. -/
theorem test_set_current_boundary : seen (write 0x00000010 (args 0x003203AC 0 sd)) =
    some ⟨0, 0x00, 0x00, [(.W, 0x6C, 0x140100C3), (.W, 0x10, 0x00061008)]⟩ := by decide +kernel

/-- V-CUR-1: the read back, from the fields SET_CURRENT leaves. -/
theorem test_get_current : (nextOf (write 0x00000011 (poke slotIholdIrun 0x00060F07 (poke slotChopconf 0x140300C3 sd)))).map
    (fun t => t.me.result) = some 489 := by decide +kernel

/-- V-SRC-2. -/
theorem test_msteps_valid : [0x01000020#32, 0x00000020, 0x00030020, 0x01010020].map (fun w =>
    (nextOf (write w State.reset)).map fun t => t.me.result) = [some 1, some 0, some 0, some 0] := by decide +kernel

/-- R165's example: 12 gives 4 microsteps. -/
theorem test_set_msteps : seen (write 0x000C0021 (poke slotChopconf 0x140300C3 sd)) =
    some ⟨0, 0x00, 0x00, [(.W, 0x6C, 0x160300C3)]⟩ := by decide +kernel

/-- R181's example. -/
theorem test_set_hybrid_thrs : seen (write 0x00000030 (args 0x00320000 0x00500000 sd)) =
    some ⟨0, 0x00, 0x00, [(.W, 0x13, 0x000000BB)]⟩ := by decide +kernel

/-- V-CHK-16. -/
theorem test_set_hybrid_thrs_range : faultOf (write 0x00000030 (args 1 1 sd)) = some (.range 0 0x00000030) := by
  decide +kernel

/-- R184's example. -/
theorem test_get_tpwmthrs : (nextOf (write 0x00000031 (args 0 0x00500000 (poke slotTpwmthrs 187 sd)))).map
    (fun t => t.me.result) = some 0x00322239 := by decide +kernel

/-- V-CHK-17: the stored 0 is tested first. -/
theorem test_get_tpwmthrs_disabled : seen (write 0x00000031 sd) = some ⟨0, 0x00, 0x00, []⟩ := by decide +kernel

/-- R187's example, with 4 microsteps. -/
theorem test_set_tpwmthrs : seen (write 0x00000032 (args 0x00320000 0x00500000
    (sd.setFile { defaultFile with cfg := { defaultCfg with microsteps := 4 } }))) =
    some ⟨0, 0x00, 0x00, [(.W, 0x13, 0x0000002E)]⟩ := by decide +kernel

/-- R200's example. -/
theorem test_set_cot_chopper : seen (write 0x00000040 (args 0x0C0D1805 1 (poke slotChopconf 0x140300C3 sd))) =
    some ⟨0, 0x00, 0x00, [(.W, 0x6C, 0x1402CFD5)]⟩ := by decide +kernel

/-- V-SRC-5, sineWaveOffset -10. -/
theorem test_set_cot_chopper_negative : seen (write 0x00000040 (args 0xF6001805 0 sd)) =
    some ⟨0, 0x00, 0x00, [(.W, 0x6C, 0x1400E005)]⟩ := by decide +kernel

/-- R220's example. -/
theorem test_write_reg : seen (write 0x00000450 sd) = some ⟨0, 0x00, 0x00, [(.W, 0x11, 0x80)]⟩ := by decide +kernel

/-- R222's example, and the status of the transport in `RESULT` and `BUSSTAT`. -/
theorem test_read_reg :
    (nextOf (write 0x00000151 sd)).map (fun t => ((fileOf t).value slotGstat, t.me.result)) = some (1, 0) ∧
    (nextOf (write 0x00000151 (booted (.scripted [⟨7, 0xA5⟩])))).map (fun t =>
      ((fileOf t).value slotGstat, t.me.result, t.me.busstat)) = some (7, 0xA5, 0xA5) := by decide +kernel

/-- R226's example. -/
theorem test_write_reg_x : seen (write 0x002D0052 (args 0 0x00012345 sd)) =
    some ⟨0, 0x00, 0x00, [(.W, 0x2D, 0x00012345)]⟩ := by decide +kernel

/-- R228's example. -/
theorem test_read_reg_x : seen (write 0x006F0053 sd) =
    some ⟨0x80000000, 0x00, 0x00, [(.R, 0x6F, 0x80000000)]⟩ := by decide +kernel

/-- V-SRC-7: the sentinel is found, XDIRECT is not. -/
theorem test_get_reg_ptr : seen (write 0x00730054 sd) = some ⟨0x80000012, 0x00, 0x00, []⟩ ∧
    seen (write 0x002D0054 sd) = some ⟨0, 0x00, 0x00, []⟩ := by decide +kernel

/-- R240's example. -/
theorem test_shadow_read : seen (write 0x00000C60 sd) = some ⟨0x140100C3, 0x00, 0x00, []⟩ := by decide +kernel

/-- R242's examples. -/
theorem test_shadow_write :
    (nextOf (write 0x00000361 (args 0 0x00061F1F sd))).map (fun t => (fileOf t).value slotIholdIrun) = some 0x00061F1F ∧
    (nextOf (write 0x00000C61 (args 0 0x100100C3 sd))).map (fun t => (t.me.cmdstat, (fileOf t).value slotChopconf)) =
      some (0x01, 0x140100C3) := by decide +kernel

/-- R246's example. -/
theorem test_config_read : seen (write 0x00000062 sd) = some ⟨12000000, 0x00, 0x00, []⟩ := by decide +kernel

/-- R248's examples. -/
theorem test_config_write :
    (nextOf (write 0x00000163 (args 0 75 sd))).map (fun t => (fileOf t).cfg.rSense) = some 75 ∧
    (nextOf (write 0x00000463 (args 0 101 sd))).map (fun t => (t.me.cmdstat, (fileOf t).cfg.holdPct)) = some (0x01, 50) := by
  decide +kernel

/-- V-CHK-1, V-CHK-3, V-CHK-7 and V-CHK-8: the order of the checks. -/
theorem test_check_order :
    (nextOf (write 0x00000004 State.reset)).map (fun t => t.me.cmdstat) = some 0x01 ∧
    (faultOf (write 0x00000003 State.reset)).map Fault.record = some (0, 1, 0x00000003) ∧
    (faultOf (write 0x00000010 (args 0x006501F4 0 offline))).map Fault.record = some (0, 2, 0x00000010) ∧
    (faultOf (write 0x00000010 (args 0x006501F4 0 sd))).map Fault.record = some (0, 4, 0x00000010) := by decide +kernel

/-- R40: what the host reads. -/
theorem test_host_read : sd.hostRead 0 .cmd = none ∧ (args 7 9 sd).hostRead 0 .arg1 = some 9 ∧
    sd.hostRead 2 .result = none := by decide +kernel

/-- R28. -/
theorem test_address_tags_distinct : regAddr.toList.Nodup := by decide

/-- Log 3: a write to an instance that does not exist. -/
theorem test_missing_instance : step { sd with host := [.cmd 2 1] } = .refused (.noSuchInstance 2) := rfl

/-! ## Witnesses: every obligation's hypotheses can be met -/

theorem ready_booted (c : Chip) : Ready (booted c) freshInst defaultFile := ⟨⟨rfl, rfl⟩, rfl⟩

theorem loaded_offline : Loaded offline freshInst defaultFile := ⟨rfl, rfl⟩

/-- The issuing instance with argument words set. -/
def argInst (a0 a1 : Word) : Instance := { freshInst with arg0 := a0, arg1 := a1 }

theorem ready_args (a0 a1 : Word) (c : Chip) : Ready (args a0 a1 (booted c)) (argInst a0 a1) defaultFile :=
  ⟨⟨rfl, rfl⟩, rfl⟩

theorem ready_poke (i : Slot) (v a0 a1 : Word) (c : Chip) :
    Ready (poke i v (args a0 a1 (booted c))) { argInst a0 a1 with file := some (defaultFile.setValue i v) }
      (defaultFile.setValue i v) := ⟨⟨rfl, rfl⟩, rfl⟩

theorem loaded_me {t : State} (h : t.cur < t.insts.length ∧ t.me.file.isSome = true) : Loaded t t.me (fileOf t) := by
  obtain ⟨h1, h2⟩ := h
  obtain ⟨f, hf⟩ := Option.isSome_iff_exists.mp h2
  exact ⟨issues_of_lt h1, by simp [fileOf, hf]⟩

theorem forall_of_all {α : Type} {p : α → Prop} [DecidablePred p] (l : List α)
    (h : (l.all fun a => decide (p a)) = true) : ∀ a ∈ l, p a := by simpa using h

/-- Commands that answer a next state, each with the state it runs in. -/
def running : List (Instr × State) :=
  [(.loadDefaults, State.reset), (.ifInit, State.reset), (.hwInit, sd), (.setCurrent, args 0x006401F4 0 sd),
   (.getCurrent, offline), (.mstepsValid 256, State.reset), (.setMsteps 0, sd), (.setHybridThrs, args 0x00320000 0x00500000 sd),
   (.getTpwmthrs, offline), (.setTpwmthrs, sd), (.setCotChopper, sd), (.writeReg 30, sd), (.readReg 0, sd),
   (.writeRegX 0xFF, sd), (.readRegX 0, sd), (.getRegPtr 0x73, offline), (.shadowRead 30, offline),
   (.shadowWrite 0, offline), (.configRead 5, offline), (.configWrite 4, offline)]

theorem test_witness_running : ∀ p ∈ running, ∃ t, exec p.1 p.2 = .next t := by
  have h : ∀ p ∈ running, (nextOf (exec p.1 p.2)).isSome = true := by decide +kernel
  exact fun p hp => ⟨_, next_after (h p hp)⟩

/-! ### Encoding -/

theorem test_witness_DecodeOfEncode : ∀ i ∈ [Instr.writeReg 0, .writeReg 30, .configWrite 0, .configWrite 5, .setMsteps 0xFFFF,
    .readRegX 0xFF], i.wellFormed = true := by decide +kernel

theorem test_witness_EncodeOfDecode : decode 0x00001E50 = .ok (.writeReg 30) ∧ decode 0xFFFF0021 = .ok (.setMsteps 0xFFFF) := by
  decide +kernel

theorem test_witness_OpcodeMapRows : (0#5).toNat < 31 ∧ (30#5).toNat < 31 ∧ ¬ (31#5).toNat < 31 ∧ (0#5).toNat ≤ 5 ∧
    (5#5).toNat ≤ 5 ∧ ¬ (6#5).toNat ≤ 5 := by decide +kernel

theorem test_witness_ReservedOpcodesRejected : ∀ w ∈ [0x00000000#32, 0xABCDEF00, 0x04, 0x0F, 0x12, 0x1F, 0x22, 0x2F, 0x33, 0x3F,
    0x41, 0x4F, 0x55, 0x5F, 0x64, 0xFF, 0xFFFFFFFF],
    ({ sd with host := [.cmd 1 w] } : State).host = .cmd 1 w :: [] ∧ sd.insts[1]? = some Instance.reset ∧
    (let o := w.toNat % 256
     o = 0x00 ∨ (0x04 ≤ o ∧ o ≤ 0x0F) ∨ (0x12 ≤ o ∧ o ≤ 0x1F) ∨ (0x22 ≤ o ∧ o ≤ 0x2F) ∨ (0x33 ≤ o ∧ o ≤ 0x3F) ∨
       (0x41 ≤ o ∧ o ≤ 0x4F) ∨ (0x55 ≤ o ∧ o ≤ 0x5F) ∨ (0x64 ≤ o ∧ o ≤ 0xFF)) := by
  intro w hw
  refine ⟨rfl, rfl, ?_⟩
  revert w
  exact forall_of_all _ (by decide +kernel)

/-- The opcodes beside the reserved ranges are in none of them. -/
theorem test_reserved_boundaries : ∀ o ∈ [0x01, 0x03, 0x10, 0x11, 0x20, 0x21, 0x30, 0x32, 0x40, 0x50, 0x54, 0x60, 0x63],
    ¬ (o = 0x00 ∨ (0x04 ≤ o ∧ o ≤ 0x0F) ∨ (0x12 ≤ o ∧ o ≤ 0x1F) ∨ (0x22 ≤ o ∧ o ≤ 0x2F) ∨ (0x33 ≤ o ∧ o ≤ 0x3F) ∨
       (0x41 ≤ o ∧ o ≤ 0x4F) ∨ (0x55 ≤ o ∧ o ≤ 0x5F) ∨ (0x64 ≤ o ∧ o ≤ 0xFF)) := by decide +kernel

theorem test_witness_MustBeZeroBits :
    (0x00000140#32).toNat % 256 ∈ [0x01, 0x02, 0x03, 0x10, 0x11, 0x30, 0x31, 0x32, 0x40] ∧
    (0x00002063#32).toNat % 256 ∈ [0x50, 0x51, 0x60, 0x61, 0x62, 0x63] ∧ (0x00008021#32).toNat % 256 ∈ [0x20, 0x21] ∧
    (0x01000054#32).toNat % 256 ∈ [0x52, 0x53, 0x54] ∧ (0x00000154#32).toNat % 256 ∈ [0x52, 0x53, 0x54] ∧
    decode 0x00FF0054 = .ok (.getRegPtr 0xFF) := by decide +kernel

/-- The edges of both ranges. -/
theorem test_witness_SelectorRanges : ∀ p ∈ [(30#5, 0x61#8), (31, 0x61), (5, 0x63), (6, 0x63)],
    (∃ s : State, s.host = .cmd 0 (0#19 ++ p.1 ++ p.2) :: [] ∧ s.insts[0]? = some freshInst) ∧
    ((p.2 ∈ [0x50#8, 0x51, 0x60, 0x61] ∧ p.1.toNat = 30) ∨ (p.2 ∈ [0x62#8, 0x63] ∧ p.1.toNat = 5) ∨
      (p.2 ∈ [0x50#8, 0x51, 0x60, 0x61] ∧ p.1.toNat = 31) ∨ (p.2 ∈ [0x62#8, 0x63] ∧ p.1.toNat = 6)) := by
  have h : ∀ p ∈ [(30#5, 0x61#8), (31, 0x61), (5, 0x63), (6, 0x63)],
      ((p.2 ∈ [0x50#8, 0x51, 0x60, 0x61] ∧ p.1.toNat = 30) ∨ (p.2 ∈ [0x62#8, 0x63] ∧ p.1.toNat = 5) ∨
        (p.2 ∈ [0x50#8, 0x51, 0x60, 0x61] ∧ p.1.toNat = 31) ∨ (p.2 ∈ [0x62#8, 0x63] ∧ p.1.toNat = 6)) :=
    forall_of_all _ (by decide +kernel)
  exact fun p hp => ⟨⟨{ sd with host := [.cmd 0 (0#19 ++ p.1 ++ p.2)] }, rfl, rfl⟩, h p hp⟩

/-! ### Steps and checks -/

theorem test_witness_StepRunsDecodedCommand : ∃ s x i, (s : State).host = .cmd 1 0x00000C51 :: [] ∧ s.insts[1]? = some x ∧
    decode 0x00000C51 = .ok i := ⟨{ sd with host := [.cmd 1 0x00000C51] }, Instance.reset, .readReg 12, rfl, rfl, by decide +kernel⟩

theorem test_witness_UndecodableWordRejected :
    ∀ w ∈ [0x00000000#32, 0x00000101, 0x00001F50], ∃ (s : State) (x : Instance) (e : DecodeError),
    s.host = .cmd 0 w :: [] ∧ s.insts[0]? = some x ∧ decode w = .error e := by
  have h : ∀ w ∈ [0x00000000#32, 0x00000101, 0x00001F50], ∃ e ∈ [DecodeError.reservedOpcode, .mustBeZero, .selectorRange],
      decode w = .error e := forall_of_all _ (by decide +kernel)
  intro w hw
  obtain ⟨e, -, he⟩ := h w hw
  exact ⟨{ sd with host := [.cmd 0 w] }, freshInst, e, rfl, rfl, he⟩

theorem test_witness_IdleAndHostAccess : State.reset.host = [] ∧
    (∃ s : State, s.insts[1]? = some Instance.reset ∧ s.host = .arg0 1 0xFFFFFFFF :: []) ∧
    ∃ s : State, s.insts[1]? = some Instance.reset ∧ s.host = .arg1 1 0 :: [] :=
  ⟨rfl, ⟨{ sd with host := [.arg0 1 0xFFFFFFFF] }, rfl, rfl⟩, ⟨{ sd with host := [.arg1 1 0] }, rfl, rfl⟩⟩

theorem test_witness_NotLoadedFault : Issues State.reset Instance.reset ∧ Instance.reset.file = none ∧
    ∀ i ∈ [Instr.hwInit, .writeReg 30, .configWrite 5], i.wellFormed = true ∧ isExempt i = false := ⟨rfl, rfl, by decide +kernel⟩

theorem test_witness_IoNotInstalledFault : Loaded offline freshInst defaultFile ∧ offline.ioInstalled = false ∧
    ∀ i ∈ [Instr.setCurrent, .readReg 30, .readRegX 0xFF], i.wellFormed = true ∧ isIoCmd i = true :=
  ⟨loaded_offline, rfl, by decide +kernel⟩

/-- One run for each clause. -/
theorem test_witness_FaultsAreTheTable :
    exec .hwInit State.reset = .fault (.notLoaded 0 0) ∧
    exec .setCurrent (args 0x00650000 0 offline) = .fault (.ioNotInstalled 0 0) ∧
    exec .ifInit sd = .fault (.ioReinstall 0 0) ∧
    exec .setCurrent (args 0x00650000 0 sd) = .fault (.holdPctRange 0 0) ∧
    exec .setTpwmthrs (args 1 0 sd) = .fault (.divZero 0 0) ∧
    exec .getTpwmthrs (poke slotTpwmthrs 1 offline) = .fault (.divZero 0 0) ∧
    exec .setHybridThrs (args 3072000000 1 sd) = .fault (.range 0 0) ∧
    exec .getTpwmthrs (poke slotTpwmthrs 750000 (args 0 1 offline)) = .fault (.range 0 0) := by
  refine ⟨fault_eq ?_, fault_eq ?_, fault_eq ?_, fault_eq ?_, fault_eq ?_, fault_eq ?_, fault_eq ?_, fault_eq ?_⟩ <;>
    decide +kernel

theorem test_witness_CompletedOrOnlyCmdstat :
    exec (.shadowWrite 12) (args 0 0x140100C3 sd) = .next (after (.shadowWrite 12) (args 0 0x140100C3 sd)) ∧
    exec (.shadowWrite 12) sd = .next (after (.shadowWrite 12) sd) ∧
    (after (.shadowWrite 12) (args 0 0x140100C3 sd)).me.cmdstat = 0x00 ∧ (after (.shadowWrite 12) sd).me.cmdstat = 0x01 :=
  ⟨next_after (by decide +kernel), next_after (by decide +kernel), by decide +kernel, by decide +kernel⟩

/-! ### Reset, defaults, interface install -/

theorem test_witness_ResetValues : Instance.reset ∈ (State.resetWith 1 .free).insts := by decide +kernel

theorem test_witness_LoadDefaultsCompletes : Issues State.reset Instance.reset ∧ Issues sd freshInst := ⟨rfl, rfl⟩

theorem test_witness_IfInitCompletesOnce : (Issues State.reset Instance.reset ∧ State.reset.ioInstalled = false) ∧
    Issues sd freshInst ∧ sd.ioInstalled = true := ⟨⟨rfl, rfl⟩, rfl, rfl⟩

/-! ### HW_INIT -/

theorem test_witness_HwInitFsmIsStraightLine : Loaded sd freshInst defaultFile ∧ Loaded offline freshInst defaultFile :=
  ⟨(ready_booted _).1, loaded_offline⟩

/-- The last one answers with an error status. -/
theorem test_witness_HwInitEarlyExits : (Loaded offline freshInst defaultFile ∧ offline.ioInstalled = false) ∧
    Ready (booted (.stuck 0)) freshInst defaultFile ∧ (booted (.stuck 0)).readValue (defaultFile.addr slotDrvStatus) = 0 ∧
    Ready (booted (.scripted [⟨0xFFFFFFFF, 0xFF⟩])) freshInst defaultFile ∧
    (booted (.scripted [⟨0xFFFFFFFF, 0xFF⟩])).readValue (defaultFile.addr slotDrvStatus) = 0xFFFFFFFF :=
  ⟨⟨loaded_offline, rfl⟩, ready_booted _, rfl, ready_booted _, rfl⟩

theorem test_witness_HwInitChipPresent : (∀ i : Slot, defaultFile.addr i = regAddr[i]) ∧
    ∀ v ∈ [0x80000000#32, 1, 0xFFFFFFFE], Ready (booted (.stuck v)) freshInst defaultFile ∧
      (booted (.stuck v)).readValue 0x6F ≠ 0x00000000 ∧ (booted (.stuck v)).readValue 0x6F ≠ 0xFFFFFFFF := by
  refine ⟨by decide +kernel, fun v hv => ⟨ready_booted _, ?_⟩⟩
  show v ≠ 0 ∧ v ≠ 0xFFFFFFFF
  revert v
  exact forall_of_all _ (by decide +kernel)

theorem test_witness_HwInitSuccess : Loaded sd freshInst defaultFile ∧ defaultFile.Sound ∧
    exec .hwInit sd = .next (after .hwInit sd) ∧ Loaded (after .hwInit sd) (after .hwInit sd).me (fileOf (after .hwInit sd)) ∧
    (after .hwInit sd).me.result = 1 :=
  ⟨(ready_booted _).1, defaultFile_sound, next_after (by decide +kernel), loaded_me (by decide +kernel), by decide +kernel⟩

/-! ### Current scaling -/

/-- 939 mA (`n = 16`, the low range) and 940 mA (`n = 17`) with 110 mOhm. -/
theorem test_witness_CurrentScaleExact : ∀ p ∈ [(939, 16, 30), (940, 17, 30)],
    let k := (110 + 20) * 32 * p.1
    (325000 * p.2.1) ^ 2 ≤ 2 * k ^ 2 ∧ 2 * k ^ 2 < (325000 * (p.2.1 + 1)) ^ 2 ∧
    (180000 * p.2.2) ^ 2 ≤ 2 * k ^ 2 ∧ 2 * k ^ 2 < (180000 * (p.2.2 + 1)) ^ 2 := by decide +kernel

theorem test_witness_VsenseBoundary : (currentScale 110 939 50).vsense ≠ 0 ∧ (currentScale 110 940 50).vsense = 0 ∧
    scaleOn (scaleRoot 110 939) 325000 = 15 ∧ scaleOn (scaleRoot 110 940) 325000 = 16 := by decide +kernel

/-- The second clause meets its bound. -/
theorem test_witness_ClampsNotNeeded : (currentScale 110 939 50).vsense = 1 ∧ scaleChosen (scaleRoot 110 939) = 29 ∧
    (currentScale 110 940 50).vsense = 0 ∧ scaleChosen (scaleRoot 110 940) = 16 := by decide +kernel

theorem test_witness_SetCurrentCompletes : ∀ a ∈ [0x00000000#32, 0x0064FFFF, 0xFF64FFFF],
    Ready (args a 0 sd) (argInst a 0) defaultFile ∧ ((argInst a 0).arg0.extractLsb' 16 8).toNat ≤ 100 := by
  refine fun a ha => ⟨ready_args _ _ _, ?_⟩
  show (a.extractLsb' 16 8).toNat ≤ 100
  revert a
  exact forall_of_all _ (by decide +kernel)

theorem test_witness_SetCurrentHoldRange : ∀ a ∈ [0x00650000#32, 0x00FF0000],
    Ready (args a 0 sd) (argInst a 0) defaultFile ∧ ((argInst a 0).arg0.extractLsb' 16 8).toNat > 100 := by
  refine fun a ha => ⟨ready_args _ _ _, ?_⟩
  show (a.extractLsb' 16 8).toNat > 100
  revert a
  exact forall_of_all _ (by decide +kernel)

theorem test_witness_GetCurrentCompletes :
    Loaded offline freshInst defaultFile ∧ defaultFile.field slotChopconf chopVsense = 0 ∧
    ∃ x f, Loaded (poke slotChopconf 0x140300C3 sd) x f ∧ f.field slotChopconf chopVsense = 1 :=
  ⟨loaded_offline, by decide +kernel, _, _, (ready_poke slotChopconf 0x140300C3 0 0 _).1, by decide +kernel⟩

/-- 31 mA is the least current with an unclamped scale, 1823 mA the largest, with 110 mOhm. -/
theorem test_witness_CurrentRoundTrip : ∀ a ∈ [0x0032001F#32, 0x0032071F],
    Loaded (args a 0 sd) (argInst a 0) defaultFile ∧
    (∃ t u z, exec .setCurrent (args a 0 sd) = .next t ∧ exec .getCurrent t = .next u ∧ Issues u z) ∧
    let mA := ((argInst a 0).arg0.extractLsb' 0 16).toNat
    0 ≤ scaleChosen (scaleRoot defaultFile.cfg.rSense.toNat mA) ∧
      scaleChosen (scaleRoot defaultFile.cfg.rSense.toNat mA) ≤ 31 := by
  have h1 : ∀ a ∈ [0x0032001F#32, 0x0032071F], (nextOf (exec .setCurrent (args a 0 sd))).isSome = true ∧
      (nextOf (exec .getCurrent (after .setCurrent (args a 0 sd)))).isSome = true ∧
      (after .getCurrent (after .setCurrent (args a 0 sd))).cur <
        (after .getCurrent (after .setCurrent (args a 0 sd))).insts.length := forall_of_all _ (by decide +kernel)
  have h2 : ∀ a ∈ [0x0032001F#32, 0x0032071F],
      0 ≤ scaleChosen (scaleRoot defaultFile.cfg.rSense.toNat ((argInst a 0).arg0.extractLsb' 0 16).toNat) ∧
      scaleChosen (scaleRoot defaultFile.cfg.rSense.toNat ((argInst a 0).arg0.extractLsb' 0 16).toNat) ≤ 31 :=
    forall_of_all _ (by decide +kernel)
  intro a ha
  obtain ⟨b, c, d⟩ := h1 a ha
  exact ⟨(ready_args _ _ _).1, ⟨_, _, _, next_after b, next_after c, issues_of_lt d⟩, h2 a ha⟩

/-! ### Microstepping -/

theorem test_witness_MstepsValidCompletes : Issues State.reset Instance.reset ∧
    (∀ n ∈ [1#16, 256], ∃ k, k ≤ 8 ∧ n.toNat = 2 ^ k) ∧ ∀ n ∈ [0#16, 3, 255, 257, 512], ¬ ∃ k, k ≤ 8 ∧ n.toNat = 2 ^ k := by
  refine ⟨rfl, ?_, ?_⟩
  · have h : ∀ n ∈ [1#16, 256], ∃ k ∈ List.range 9, n.toNat = 2 ^ k := forall_of_all _ (by decide +kernel)
    exact fun n hn => (h n hn).imp fun k hk => ⟨by have := List.mem_range.mp hk.1; omega, hk.2⟩
  · have h : ∀ n ∈ [0#16, 3, 255, 257, 512], ∀ k ∈ List.range 9, n.toNat ≠ 2 ^ k := forall_of_all _ (by decide +kernel)
    rintro n hn ⟨k, hk, e⟩
    exact h n hn k (List.mem_range.mpr (by omega)) e

theorem test_witness_SetMstepsCompletes : Ready sd freshInst defaultFile ∧ (0#16) = 0 ∧ (0x8000#16) ≠ 0 :=
  ⟨ready_booted _, rfl, by decide +kernel⟩

theorem test_witness_PowerOfTwoMstepsReadBack : ∀ k ∈ [0, 8], k ≤ 8 ∧ Ready sd freshInst defaultFile ∧
    ∃ t, exec (.setMsteps (BitVec.ofNat 16 (2 ^ k))) sd = .next t := by
  have h : ∀ k ∈ [0, 8], k ≤ 8 ∧ (nextOf (exec (.setMsteps (BitVec.ofNat 16 (2 ^ k))) sd)).isSome = true := by decide +kernel
  exact fun k hk => ⟨(h k hk).1, ready_booted _, _, next_after (h k hk).2⟩

/-! ### Velocity thresholds -/

/-- A zero velocity, and the slowest velocity whose threshold fits: `q` is 0xFFFFF. -/
theorem test_witness_SetThresholdCompletes : ∀ p ∈ [(0#32, 0#32, 0), (3072000001, 1, 0xFFFFF), (0xFFFFFFFF, 0xFFFFFFFF, 0)],
    Ready (args p.1 p.2.1 sd) (argInst p.1 p.2.1) defaultFile ∧
    (let f := defaultFile
     let x := argInst p.1 p.2.1
     let q := p.2.2
     let p := f.cfg.fClk.toNat * f.cfg.microsteps.toNat * 2 ^ 32
     let d := 256 * x.arg0.toNat * x.arg1.toNat
     (x.arg0 = 0 ∧ q = 0) ∨
       (x.arg0 ≠ 0 ∧ x.arg1 ≠ 0 ∧ q * d ≤ p ∧ p < (q + 1) * d ∧ q ≤ 0xFFFFF)) := by
  have h : ∀ p ∈ [(0#32, 0#32, 0), (3072000001, 1, 0xFFFFF), (0xFFFFFFFF, 0xFFFFFFFF, 0)],
      (p.1 = 0 ∧ p.2.2 = 0) ∨ (p.1 ≠ 0 ∧ p.2.1 ≠ 0 ∧
        p.2.2 * (256 * p.1.toNat * p.2.1.toNat) ≤ defaultCfg.fClk.toNat * defaultCfg.microsteps.toNat * 2 ^ 32 ∧
        defaultCfg.fClk.toNat * defaultCfg.microsteps.toNat * 2 ^ 32 < (p.2.2 + 1) * (256 * p.1.toNat * p.2.1.toNat) ∧
        p.2.2 ≤ 0xFFFFF) := forall_of_all _ (by decide +kernel)
  exact fun p hp => ⟨ready_args _ _ _, h p hp⟩

/-- Zero steps per mm, and the fastest velocity whose threshold is 2^20. -/
theorem test_witness_SetThresholdFaults :
    (Ready (args 1 0 sd) (argInst 1 0) defaultFile ∧ (argInst 1 0).arg0 ≠ 0 ∧ (argInst 1 0).arg1 = 0) ∧
    Ready (args 3072000000 1 sd) (argInst 3072000000 1) defaultFile ∧ (argInst 3072000000 1).arg0 ≠ 0 ∧
    (argInst 3072000000 1).arg1 ≠ 0 ∧
    0x100000 * (256 * (argInst 3072000000 1).arg0.toNat * (argInst 3072000000 1).arg1.toNat)
      ≤ defaultFile.cfg.fClk.toNat * defaultFile.cfg.microsteps.toNat * 2 ^ 32 :=
  ⟨⟨ready_args _ _ _, by decide +kernel, by decide +kernel⟩, ready_args _ _ _, by decide +kernel, by decide +kernel, by decide +kernel⟩

/-- R182's example. -/
theorem test_witness_ThresholdHalves : velToThr 12000000 16 0x00320000 0x00500000 = .value 187 ∧
    velToThr 12000000 16 (2 * 0x00320000) 0x00500000 = .value 93 := by decide +kernel

/-- Clause by clause: no threshold, zero steps per mm, the largest velocity that fits for one step per 2^16 mm, the next. -/
theorem test_witness_GetTpwmthrsOutcomes :
    (Loaded offline freshInst defaultFile ∧ defaultFile.field slotTpwmthrs tpTpwmthrs = 0) ∧
    (∃ x f, Loaded (poke slotTpwmthrs 1 sd) x f ∧ f.field slotTpwmthrs tpTpwmthrs ≠ 0 ∧ x.arg1 = 0) ∧
    (∃ x f, Loaded (poke slotTpwmthrs 750001 (args 0 1 sd)) x f ∧ f.field slotTpwmthrs tpTpwmthrs ≠ 0 ∧ x.arg1 ≠ 0 ∧
      4294961569 * (256 * f.field slotTpwmthrs tpTpwmthrs * x.arg1.toNat)
        ≤ f.cfg.fClk.toNat * f.cfg.microsteps.toNat * 2 ^ 32 ∧
      f.cfg.fClk.toNat * f.cfg.microsteps.toNat * 2 ^ 32
        < (4294961569 + 1) * (256 * f.field slotTpwmthrs tpTpwmthrs * x.arg1.toNat) ∧ 4294961569 < 2 ^ 32) ∧
    ∃ x f, Loaded (poke slotTpwmthrs 750000 (args 0 1 sd)) x f ∧ f.field slotTpwmthrs tpTpwmthrs ≠ 0 ∧ x.arg1 ≠ 0 ∧
      2 ^ 32 * (256 * f.field slotTpwmthrs tpTpwmthrs * x.arg1.toNat)
        ≤ f.cfg.fClk.toNat * f.cfg.microsteps.toNat * 2 ^ 32 :=
  ⟨⟨loaded_offline, by decide +kernel⟩,
   ⟨_, _, (ready_poke slotTpwmthrs 1 0 0 _).1, by decide +kernel, by decide +kernel⟩,
   ⟨_, _, (ready_poke slotTpwmthrs 750001 0 1 _).1, by decide +kernel, by decide +kernel, by decide +kernel, by decide +kernel,
     by decide +kernel⟩,
   ⟨_, _, (ready_poke slotTpwmthrs 750000 0 1 _).1, by decide +kernel, by decide +kernel, by decide +kernel⟩⟩

theorem test_witness_ThresholdRoundTrip :
    let s := args 0x00320000 0x00500000 sd
    let t := after .setHybridThrs s
    let u := after .getTpwmthrs t
    Issues s (argInst 0x00320000 0x00500000) ∧ (argInst 0x00320000 0x00500000).arg0 ≠ 0 ∧
    exec .setHybridThrs s = .next t ∧ Loaded t t.me (fileOf t) ∧ (fileOf t).field slotTpwmthrs tpTpwmthrs ≥ 1 ∧
    exec .getTpwmthrs t = .next u ∧ Issues u u.me :=
  ⟨rfl, by decide +kernel, next_after (by decide +kernel), loaded_me (by decide +kernel), by decide +kernel,
    next_after (by decide +kernel), issues_of_lt (by decide +kernel)⟩

/-! ### Chopper -/

/-- Blank times on both sides of every bucket's edge. -/
theorem test_witness_SetCotChopperCompletes : ∀ a ∈ [0x00003600#32, 0x00003500, 0x00002400, 0x00002300, 0x00001800, 0x00001700],
    Ready (args a 0 sd) (argInst a 0) defaultFile ∧
    let blank := ((argInst a 0).arg0.extractLsb' 8 8).toNat
    blank = 54 ∨ (36 ≤ blank ∧ blank ≤ 53) ∨ (24 ≤ blank ∧ blank ≤ 35) ∨ blank = 23 := by
  refine fun a ha => ⟨ready_args _ _ _, ?_⟩
  show (a.extractLsb' 8 8).toNat = 54 ∨ (36 ≤ (a.extractLsb' 8 8).toNat ∧ (a.extractLsb' 8 8).toNat ≤ 53) ∨
    (24 ≤ (a.extractLsb' 8 8).toNat ∧ (a.extractLsb' 8 8).toNat ≤ 35) ∨ (a.extractLsb' 8 8).toNat = 23
  revert a
  exact forall_of_all _ (by decide +kernel)

theorem test_witness_SetCotChopperKeepsOtherFields : Loaded sd freshInst defaultFile ∧
    exec .setCotChopper sd = .next (after .setCotChopper sd) ∧
    Loaded (after .setCotChopper sd) (after .setCotChopper sd).me (fileOf (after .setCotChopper sd)) :=
  ⟨(ready_booted _).1, next_after (by decide +kernel), loaded_me (by decide +kernel)⟩

/-! ### Register access, shadow, configuration -/

theorem test_witness_WriteRegCompletes : Ready sd freshInst defaultFile ∧ (0#5).toNat = (0 : Slot).val ∧
    (30#5).toNat = (30 : Slot).val := ⟨ready_booted _, rfl, rfl⟩

theorem test_witness_ReadRegCompletes : Ready (booted .free) freshInst defaultFile ∧ (0#5).toNat = (0 : Slot).val ∧
    (30#5).toNat = (30 : Slot).val := ⟨ready_booted _, rfl, rfl⟩

theorem test_witness_RegXCompletes : Ready (booted .free) freshInst defaultFile := ready_booted _

/-- The first slot, the sentinel, and an address no slot of the prefix has. -/
theorem test_witness_GetRegPtrScans : Loaded offline freshInst defaultFile ∧
    (∀ i ∈ [(0 : Slot), 18], i.val ≤ 18 ∧ ∀ j : Slot, j.val < i.val → defaultFile.addr j ≠ defaultFile.addr i) ∧
    ∀ i : Slot, i.val ≤ 18 → defaultFile.addr i ≠ 0x2D := ⟨loaded_offline, by decide +kernel, by decide +kernel⟩

theorem test_witness_GetRegPtrTable : Loaded offline freshInst defaultFile ∧ ∀ i : Slot, defaultFile.addr i = regAddr[i] :=
  ⟨loaded_offline, by decide +kernel⟩

theorem test_witness_ShadowAndConfigReadComplete : Loaded offline freshInst defaultFile ∧ (0#5).toNat = (0 : Slot).val ∧
    (30#5).toNat = (30 : Slot).val := ⟨loaded_offline, rfl, rfl⟩

/-- Another slot, CHOPCONF with the right mres, CHOPCONF with a wrong one. -/
theorem test_witness_ShadowWriteOutcomes :
    (Loaded (args 0 7 sd) (argInst 0 7) defaultFile ∧ (11#5).toNat = (11 : Slot).val ∧ (11 : Slot).val ≠ 12) ∧
    (Loaded (args 0 0x04000000 sd) (argInst 0 0x04000000) defaultFile ∧ (12#5).toNat = slotChopconf.val ∧
      ((argInst 0 0x04000000).arg1.extractLsb' 24 4).toNat = toMres defaultFile.cfg.microsteps.toNat) ∧
    Loaded (args 0 0x05000000 sd) (argInst 0 0x05000000) defaultFile ∧ slotChopconf.val = 12 ∧
      ((argInst 0 0x05000000).arg1.extractLsb' 24 4).toNat ≠ toMres defaultFile.cfg.microsteps.toNat :=
  ⟨⟨(ready_args _ _ _).1, rfl, by decide +kernel⟩, ⟨(ready_args _ _ _).1, rfl, by decide +kernel⟩, (ready_args _ _ _).1, rfl,
    by decide +kernel⟩

theorem test_witness_ConfigWriteOutcomes : ∀ v ∈ [0x00000000#32, 1, 2, 100, 101, 0xFFFF, 0x10000, 0xFFFFFFFF],
    Loaded (args 0 v sd) (argInst 0 v) defaultFile ∧
    ((argInst 0 v).arg1.toNat ≤ 1 ∨ (argInst 0 v).arg1.toNat > 1) := fun _ _ => ⟨(ready_args _ _ _).1, (Nat.lt_or_ge 1 _).symm⟩

/-- The values at the edges, accepted and rejected. -/
theorem test_config_write_edges : [(1#5, 0xFFFF#32), (1, 0x10000), (2, 1), (2, 2), (3, 0xFFFF), (3, 0x10000), (4, 100), (4, 101),
    (5, 16), (0, 0xFFFFFFFF)].map (fun p => (after (.configWrite p.1) (args 0 p.2 sd)).me.cmdstat) =
    [0x00, 0x01, 0x00, 0x01, 0x00, 0x01, 0x00, 0x01, 0x01, 0x00] := by decide +kernel

theorem test_witness_IllFormedRejected : Issues State.reset Instance.reset ∧
    ∀ i ∈ [Instr.writeReg 31, .configRead 6, .configWrite 31], i.wellFormed = false := ⟨rfl, by decide +kernel⟩

/-! ### Frames -/

theorem test_witness_CommandsStayInTheirInstance : ∀ p ∈ running, ∃ t, exec p.1 p.2 = .next t := test_witness_running

theorem test_witness_SilentCommandsFrame :
    ∀ p ∈ [(Instr.loadDefaults, State.reset), (.ifInit, State.reset), (.getCurrent, offline),
    (.mstepsValid 3, offline), (.getTpwmthrs, offline), (.getRegPtr 0, offline), (.shadowRead 0, offline),
    (.shadowWrite 12, offline), (.configRead 0, offline), (.configWrite 5, offline)],
    (∃ t, exec p.1 p.2 = .next t) ∧ transactionCount p.1 0 ∧ p.1 ≠ .hwInit := by
  have h : ∀ p ∈ [(Instr.loadDefaults, State.reset), (.ifInit, State.reset), (.getCurrent, offline),
      (.mstepsValid 3, offline), (.getTpwmthrs, offline), (.getRegPtr 0, offline), (.shadowRead 0, offline),
      (.shadowWrite 12, offline), (.configRead 0, offline), (.configWrite 5, offline)],
      (nextOf (exec p.1 p.2)).isSome = true ∧ p.1 ≠ .hwInit := by decide +kernel
  refine fun p hp => ⟨⟨_, next_after (h p hp).1⟩, ?_, (h p hp).2⟩
  simp only [List.mem_cons, List.not_mem_nil, or_false] at hp
  rcases hp with rfl | rfl | rfl | rfl | rfl | rfl | rfl | rfl | rfl | rfl <;> exact rfl

theorem test_witness_TransactionCounts : (∀ p ∈ running, ∃ t, exec p.1 p.2 = .next t) ∧
    [(after .hwInit offline).history.length, (after .hwInit (booted (.stuck 0))).history.length,
      (after .hwInit sd).history.length] = [0, 1, 12] := ⟨test_witness_running, by decide +kernel⟩

theorem test_witness_ReportingCommandsFrame : ∀ p ∈ running.filter (fun p => match p.1 with
      | .ifInit | .getCurrent | .mstepsValid _ | .getTpwmthrs | .writeReg _ | .writeRegX _ | .readRegX _ | .getRegPtr _
      | .shadowRead _ | .configRead _ => true
      | _ => false), ∃ t, exec p.1 p.2 = .next t :=
  fun p hp => test_witness_running p (List.mem_of_mem_filter hp)

theorem test_witness_WritingCommandsFrame : ∀ p ∈ [(Instr.setCurrent, args 0x006401F4 0 sd), (.setMsteps 0, sd),
    (.setHybridThrs, args 0x00320000 0x00500000 sd), (.setTpwmthrs, sd), (.setCotChopper, sd), (.readReg 12, sd),
    (.shadowWrite 30, sd), (.configWrite 4, sd)], ∃ t x y f g, Loaded p.2 x f ∧ exec p.1 p.2 = .next t ∧ Loaded t y g := by
  have h : ∀ p ∈ [(Instr.setCurrent, args 0x006401F4 0 sd), (.setMsteps 0, sd),
      (.setHybridThrs, args 0x00320000 0x00500000 sd), (.setTpwmthrs, sd), (.setCotChopper, sd), (.readReg 12, sd),
      (.shadowWrite 30, sd), (.configWrite 4, sd)], (nextOf (exec p.1 p.2)).isSome = true ∧
      (p.2.cur < p.2.insts.length ∧ p.2.me.file.isSome = true) ∧
      (after p.1 p.2).cur < (after p.1 p.2).insts.length ∧ (after p.1 p.2).me.file.isSome = true := by decide +kernel
  exact fun p hp => ⟨_, _, _, _, _, loaded_me (h p hp).2.1, next_after (h p hp).1, loaded_me (h p hp).2.2⟩

/-- CONFIG_WRITE of HOLD_PCT leaves the other scalars, the one of id 5 among them. -/
theorem test_witness_WritingCommandsFrame_config : cfgIdOfSel 4 ≠ some .fClk ∧ cfgIdOfSel 4 ≠ some .microsteps ∧
    cfgIdOfSel 4 = some .holdPct := by decide +kernel

theorem test_witness_HiddenRegistersFrame : ∀ p ∈ running, ∃ t, exec p.1 p.2 = .next t := test_witness_running

theorem test_witness_HwInitFrame : Loaded sd freshInst defaultFile ∧ exec .hwInit sd = .next (after .hwInit sd) :=
  ⟨(ready_booted _).1, next_after (by decide +kernel)⟩

/-- The second instance is loaded by the step, the first stays loaded and the transport installed. -/
theorem test_witness_NothingUnloadsOrUninstalls : (∃ t, step { sd with host := [.cmd 1 1] } = .next t) ∧
    sd.ioInstalled = true ∧ sd.insts[0]? = some freshInst ∧ freshInst.loaded = true ∧
    ∃ t, exec (.readReg 0) sd = .next t :=
  ⟨next_step (by decide +kernel), rfl, rfl, rfl, _, next_after (by decide +kernel)⟩

/-! ### Invariants -/

theorem sd_sound : sd.Sound := by
  refine ⟨by decide +kernel, ?_, echoChip_sound _⟩
  intro x hx
  have hx' : x = freshInst ∨ x = Instance.reset := by simpa [sd, booted] using hx
  rcases hx' with rfl | rfl
  · refine ⟨rfl, .inl rfl, ?_⟩
    rintro f hf
    obtain rfl : defaultFile = f := Option.some.inj hf
    exact defaultFile_sound
  · exact ⟨rfl, .inl rfl, fun f hf => by cases hf⟩

theorem test_witness_StepKeepsSound : State.Sound { sd with host := [.cmd 0 3] } ∧
    ∃ t, step { sd with host := [.cmd 0 3] } = .next t := ⟨sd_sound, next_step (by decide +kernel)⟩

theorem test_witness_ResetIsSound : (1 : Nat) ≤ 1 ∧ (Chip.echoChip 1).Sound := ⟨le_rfl, echoChip_sound 1⟩

theorem test_witness_MresAgreement :
    ∀ p ∈ [(Instr.loadDefaults, sd), (.setMsteps 12, sd), (.shadowWrite 12, args 0 0x140100C3 sd)],
    ∃ t x y g, Issues p.2 x ∧ (∀ f, x.file = some f → f.Sound) ∧
      (p.1 = .loadDefaults ∨ (∃ n, p.1 = .setMsteps n) ∨ p.1 = .shadowWrite 12) ∧ exec p.1 p.2 = .next t ∧ Loaded t y g ∧
      y.cmdstat = 0x00 := by
  have h : ∀ p ∈ [(Instr.loadDefaults, sd), (.setMsteps 12, sd), (.shadowWrite 12, args 0 0x140100C3 sd)],
      (nextOf (exec p.1 p.2)).isSome = true ∧ p.2.cur < p.2.insts.length ∧ p.2.me.file = some defaultFile ∧
      ((after p.1 p.2).cur < (after p.1 p.2).insts.length ∧ (after p.1 p.2).me.file.isSome = true) ∧
      (after p.1 p.2).me.cmdstat = 0x00 := by decide +kernel
  intro p hp
  obtain ⟨h1, h2, h3, h4, h5⟩ := h p hp
  refine ⟨_, _, _, _, issues_of_lt h2, ?_, ?_, next_after h1, loaded_me h4, h5⟩
  · intro f hf
    obtain rfl : defaultFile = f := Option.some.inj (h3.symm.trans hf)
    exact defaultFile_sound
  · simp only [List.mem_cons, List.not_mem_nil, or_false] at hp
    rcases hp with rfl | rfl | rfl
    · exact .inl rfl
    · exact .inr (.inl ⟨12, rfl⟩)
    · exact .inr (.inr rfl)

/-- An empty map, and ECHO_CHIP's. -/
theorem test_witness_EchoChipAnswers : Memory.wf [] = true ∧ Memory.wf [(0x01, 1), (0x6F, 0x80000000)] = true :=
  by decide +kernel

/-- R68: the second read of GSTAT gives 0. -/
theorem test_echo_gstat_clears : (after (.readRegX 1) (after (.readRegX 1) sd)).me.result = 0 ∧
    (after (.readRegX 1) sd).me.result = 1 := by decide +kernel

end Sys2Proof.Tests
end

section
/-! SUPPORT. The host's side of the command port (10_state.md R40 to R42): one equation for each host write that starts no
command, and for each register the host reads. -/

namespace Sys2Proof.Machine

variable {s : State} {x : Instance} {k : Nat} {w : Word} {rest : List HostWrite}

theorem updInst_eq_set (hx : s.insts[k]? = some x) (g : Instance → Instance) :
    s.updInst k g = { s with insts := s.insts.set k (g x) } := by
  rw [State.updInst, modify_set hx]

/-! ## Steps that run no command -/

theorem step_idle (h : s.host = []) : step s = .next s := by
  simp only [step, h]

theorem step_arg0 (h : s.host = .arg0 k w :: rest) (hx : s.insts[k]? = some x) :
    step s = .next { s with host := rest, insts := s.insts.set k { x with arg0 := w } } := by
  have hlt : (HostWrite.arg0 k w).inst < s.insts.length := (List.getElem?_eq_some_iff.mp hx).1
  simp only [step, h, if_pos hlt, State.writeArg0]
  rw [updInst_eq_set (s := { s with host := rest }) hx]

theorem step_arg1 (h : s.host = .arg1 k w :: rest) (hx : s.insts[k]? = some x) :
    step s = .next { s with host := rest, insts := s.insts.set k { x with arg1 := w } } := by
  have hlt : (HostWrite.arg1 k w).inst < s.insts.length := (List.getElem?_eq_some_iff.mp hx).1
  simp only [step, h, if_pos hlt, State.writeArg1]
  rw [updInst_eq_set (s := { s with host := rest }) hx]

/-! ## Reads of the port -/

theorem setWidth_byte_eq_append (b : Byte) : b.setWidth 32 = 0#24 ++ b := BitVec.setWidth_eq_append (by decide)

section
variable (hx : s.insts[k]? = some x)
include hx

theorem hostRead_cmd : s.hostRead k .cmd = none := by simp only [State.hostRead, hx]

theorem hostRead_arg0 : s.hostRead k .arg0 = some x.arg0 := by simp only [State.hostRead, hx]

theorem hostRead_arg1 : s.hostRead k .arg1 = some x.arg1 := by simp only [State.hostRead, hx]

theorem hostRead_result : s.hostRead k .result = some x.result := by simp only [State.hostRead, hx]

theorem hostRead_cmdstat : s.hostRead k .cmdstat = some (0#24 ++ x.cmdstat) := by
  simp only [State.hostRead, hx, setWidth_byte_eq_append]

theorem hostRead_busstat : s.hostRead k .busstat = some (0#24 ++ x.busstat) := by
  simp only [State.hostRead, hx, setWidth_byte_eq_append]

end

/-- Settles O11, one equation of `step` or `hostRead` for each clause. -/
theorem idleAndHostAccess : Obligations.IdleAndHostAccess := fun _ =>
  ⟨step_idle, fun _ _ _ _ hx =>
    ⟨(step_arg0 · hx), (step_arg1 · hx), hostRead_arg0 hx, hostRead_arg1 hx, hostRead_result hx,
      hostRead_cmdstat hx, hostRead_busstat hx, hostRead_cmd hx⟩⟩

end Sys2Proof.Machine
end

section
/-! SUPPORT. What a command may do, said once: `Effect` lists the forms of the state a command answers, `exec_effect` says that
there are no others. HW_INIT's form comes from its rows: what every row keeps, and that the rows left to IDLE grow fewer. -/

namespace Sys2Proof.Machine

/-! ## Register files -/

theorem setField_sound {f : RegFile} (hf : f.Sound) (i : Slot) (b : BitField) (v : Nat) : (f.setField i b v).Sound :=
  sameBut_sound (sameBut_setField f i b v) hf

theorem setValue_sound {f : RegFile} (hf : f.Sound) (i : Slot) (v : Word) : (f.setValue i v).Sound :=
  sameBut_sound (sameBut_setValue f i v) hf

theorem applyScale_sound {f : RegFile} (hf : f.Sound) (c : Scale) : (f.applyScale c).Sound :=
  setField_sound (setField_sound (setField_sound hf ..) ..) ..

theorem setCurrent_sound {f : RegFile} (hf : f.Sound) (mA : Half) {pct : Byte} (hp : pct.toNat ≤ 100) :
    (f.setCurrent mA pct).Sound := by
  have h : RegFile.Sound { f with cfg := { f.cfg with current := mA, holdPct := pct } } := ⟨hf.1, hp, hf.2.2⟩
  exact applyScale_sound h _

theorem setMsteps_microsteps (f : RegFile) (m : Nat) : (f.setMsteps m).cfg.microsteps.toNat = 2 ^ (8 - m) := by
  have h : 2 ^ (8 - m) ≤ 2 ^ 8 := Nat.pow_le_pow_right (by decide) (Nat.sub_le ..)
  exact Nat.mod_eq_of_lt (by omega)

theorem setMsteps_sound {f : RegFile} (hf : f.Sound) (m : Nat) : (f.setMsteps m).Sound :=
  ⟨(setField_sound hf slotChopconf chopMres m).1, hf.2.1, 8 - m, Nat.sub_le .., setMsteps_microsteps f m⟩

/-- R248, R249: CONFIG_WRITE keeps HOLD_PCT in range and cannot write MICROSTEPS. -/
theorem cfgWrite_sound {f : RegFile} (hf : f.Sound) {id : CfgId} {v : Word} {c : Cfg} (h : f.cfg.write id v = some c) :
    RegFile.Sound { f with cfg := c } := by
  obtain ⟨ha, hp, hm⟩ := hf
  cases id with
  | fClk => cases h; exact ⟨ha, hp, hm⟩
  | rSense | coolstepEn | current =>
    simp only [Cfg.write, Option.ite_none_left_eq_some, Option.some.injEq] at h
    obtain ⟨-, rfl⟩ := h
    exact ⟨ha, hp, hm⟩
  | holdPct =>
    simp only [Cfg.write, Option.ite_none_left_eq_some, Option.some.injEq] at h
    obtain ⟨hv, rfl⟩ := h
    refine ⟨ha, ?_, hm⟩
    simp only [BitVec.toNat_setWidth]
    omega
  | microsteps => cases h

/-! ## Whether a register file is kept present and sound -/

/-- `o'` is present exactly when `o` is, and sound when `o` is. -/
def FileKept (o o' : Option RegFile) : Prop :=
  o'.isSome = o.isSome ∧ ((∀ f, o = some f → f.Sound) → ∀ f, o' = some f → f.Sound)

theorem FileKept.refl (o : Option RegFile) : FileKept o o := ⟨rfl, id⟩

theorem FileKept.trans {o p q : Option RegFile} (h : FileKept o p) (h' : FileKept p q) : FileKept o q :=
  ⟨h'.1.trans h.1, h'.2 ∘ h.2⟩

theorem FileKept.of_some {o : Option RegFile} {f g : RegFile} (ho : o = some f) (h : f.Sound → g.Sound) :
    FileKept o (some g) := by
  subst ho
  refine ⟨rfl, fun hf g' hg => ?_⟩
  cases hg
  exact h (hf f rfl)

/-! ## Transactions that go past the shadow -/

section
variable {s t : State} {x y : Instance} {evs : List BusEvent}

theorem Reached.read (hx : Issues s x) (h : Reached s y evs t) (a : Byte) :
    ∃ st, Reached s { y with busstat := st } (evs ++ [⟨s.cur, .R, a, t.readValue a, st⟩]) (t.afterRead a) := by
  obtain ⟨c, hc, rfl⟩ := h
  exact ⟨_, _, fun h => chip_after_sound (hc h) _, by rw [afterRead_eq (reached_issues hx _ _ _)]; simp; rfl⟩

theorem Reached.write (hx : Issues s x) (h : Reached s y evs t) (a : Byte) (v : Word) :
    ∃ st, Reached s { y with busstat := st } (evs ++ [⟨s.cur, .W, a, v, st⟩]) (t.afterWrite a v) := by
  obtain ⟨c, hc, rfl⟩ := h
  exact ⟨_, _, fun h => chip_after_sound (hc h) _, by rw [afterWrite_eq (reached_issues hx _ _ _)]; simp; rfl⟩

end

/-! ## The states of an HW_INIT run -/

/-- `t` is a state inside HW_INIT, started in `s`; the issuer is `x` in `s` and `y` in `t`. -/
structure Within (s : State) (x : Instance) (t : State) (y : Instance) : Prop where
  reached : ∃ evs, Reached s y evs t
  port : y.cmd = x.cmd ∧ y.arg0 = x.arg0 ∧ y.arg1 = x.arg1
  file : FileKept x.file y.file

section
variable {s t : State} {x y : Instance}

theorem Within.issues (hx : Issues s x) (h : Within s x t y) : Issues t y :=
  h.reached.choose_spec.issues hx

theorem Within.goto (hx : Issues s x) (h : Within s x t y) (c : InitState) :
    Within s x (t.goto c) { y with initState := c } :=
  ⟨⟨_, h.reached.choose_spec.goto hx c⟩, h.port, h.file⟩

theorem Within.setSaved (hx : Issues s x) (h : Within s x t y) (v : Word) :
    Within s x (t.setSaved v) { y with savedChopconf := v } :=
  ⟨⟨_, h.reached.choose_spec.setSaved hx v⟩, h.port, h.file⟩

theorem Within.complete (hx : Issues s x) (h : Within s x t y) (r : Word) :
    Within s x (t.complete r) (y.completed r) :=
  ⟨⟨_, h.reached.choose_spec.complete hx r⟩, h.port, h.file⟩

theorem Within.setFile (hx : Issues s x) (h : Within s x t y) {f g : RegFile} (hf : y.file = some f)
    (hg : f.Sound → g.Sound) : Within s x (t.setFile g) { y with file := some g } :=
  ⟨⟨_, h.reached.choose_spec.setFile hx g⟩, h.port, h.file.trans (.of_some hf hg)⟩

theorem Within.send (hx : Issues s x) (h : Within s x t y) (f : RegFile) (i : Slot) :
    ∃ y', Within s x (t.sendSlot f i) y' := by
  obtain ⟨st, hr⟩ := h.reached.choose_spec.send hx f i
  exact ⟨_, ⟨_, hr⟩, h.port, h.file⟩

theorem Within.fetch (hx : Issues s x) (h : Within s x t y) {f : RegFile} (hf : y.file = some f) (i : Slot) :
    ∃ y', Within s x (t.fetchSlot f i) y' := by
  obtain ⟨st, hr⟩ := h.reached.choose_spec.fetch hx f i
  exact ⟨_, ⟨_, hr⟩, h.port, h.file.trans (.of_some hf (setValue_sound · ..))⟩

end

/-- How many rows of R121 are left at most until the FSM is in IDLE. -/
def InitState.rowsLeft (c : InitState) : Nat := if c = .idle then 0 else 20 - c.code.toNat

theorem rowsLeft_eq_zero {c : InitState} (h : c.rowsLeft = 0) : c = .idle := by
  cases c with
  | idle => rfl
  | _ => cases h

/-- `t` is a state inside HW_INIT with at most `n` rows left, and completed when none is. -/
def WithinRows (s : State) (x : Instance) (n : Nat) (t : State) : Prop :=
  ∃ y, Within s x t y ∧ y.initState.rowsLeft ≤ n ∧ (y.initState = .idle → y.cmdstat = 0x00)

section
variable {s t : State} {x y : Instance} {f : RegFile} {n : Nat}

theorem Within.gotoRow (hx : Issues s x) (h : Within s x t y) {d : InitState} (hd : d ≠ .idle) (hn : d.rowsLeft ≤ n) :
    WithinRows s x n (t.goto d) :=
  ⟨_, h.goto hx d, hn, fun h => absurd h hd⟩

theorem Within.sendRow (hx : Issues s x) (h : Within s x t y) {i : Slot} {d : InitState} (hd : d ≠ .idle)
    (hn : d.rowsLeft ≤ n) : WithinRows s x n ((t.sendSlot f i).goto d) :=
  (h.send hx f i).choose_spec.gotoRow hx hd hn

theorem Within.fetchRow (hx : Issues s x) (h : Within s x t y) (hf : y.file = some f) {i : Slot} {d : InitState}
    (hd : d ≠ .idle) (hn : d.rowsLeft ≤ n) : WithinRows s x n ((t.fetchSlot f i).goto d) :=
  (h.fetch hx hf i).choose_spec.gotoRow hx hd hn

theorem Within.completeRow (hx : Issues s x) (h : Within s x t y) (r : Word) :
    WithinRows s x n ((t.complete r).goto .idle) :=
  ⟨_, (h.complete hx r).goto hx .idle, Nat.zero_le n, fun _ => rfl⟩

/-- Every row of R121 but IDLE's brings the FSM nearer to IDLE. -/
theorem Within.initRow (hx : Issues s x) (h : Within s x t y) (hf : y.file = some f) (c : InitState)
    (hc : c ≠ .idle) : WithinRows s x (c.rowsLeft - 1) (t.initRow f c) := by
  cases c with
  | idle => exact absurd rfl hc
  | chkIo | chkPresent | vfCompare =>
    simp only [State.initRow]
    split <;> exact h.gotoRow hx (by decide) (by decide)
  | rdDrvStatus | rdGstat => exact h.fetchRow hx hf (by decide) (by decide)
  | setMres => exact (h.setFile hx hf (setField_sound · ..)).gotoRow hx (by decide) (by decide)
  | scCompute => exact (h.setFile hx hf (applyScale_sound · _)).gotoRow hx (by decide) (by decide)
  | wrGconf | wrChopconf | wrCoolconf | wrPwmconf | wrIholdIrun | wrTpowerdown | wrTpwmthrs | scWrChopconf
  | scWrIholdIrun => exact h.sendRow hx (by decide) (by decide)
  | vfRead => exact (h.setSaved hx (f.value slotChopconf)).fetchRow hx hf (by decide) (by decide)
  | doneOk | doneFail => exact h.completeRow hx _

theorem WithinRows.initStep (hx : Issues s x) (hl : x.loaded = true) (h : Within s x t y) (hc : y.initState ≠ .idle) :
    WithinRows s x (y.initState.rowsLeft - 1) t.initStep := by
  obtain ⟨f, hf⟩ := Option.isSome_iff_exists.mp (h.file.1.trans hl)
  simp only [State.initStep, (h.issues hx).me_eq, hf]
  exact h.initRow hx hf _ hc

/-- As many rows as are left end in IDLE, with the command completed. -/
theorem WithinRows.initRun (hx : Issues s x) (hl : x.loaded = true) (h : WithinRows s x n t) :
    WithinRows s x 0 (t.initRun n) := by
  induction n generalizing t with
  | zero => exact h
  | succ n ih =>
    obtain ⟨y, hy, hn, hd⟩ := h
    simp only [State.initRun, (hy.issues hx).me_eq]
    split
    · next hc => exact ⟨y, hy, by rw [hc]; decide, hd⟩
    · next hc =>
      obtain ⟨z, hz, hzn, hzd⟩ := WithinRows.initStep hx hl hy hc
      exact ih ⟨z, hz, by omega, hzd⟩

end

/-! ## The effect of a command -/

/-- The states the command `i` can answer when `x` issues it in `s`. -/
inductive Effect (s : State) (x : Instance) : Instr → State → Prop
  /-- R90: rejected. -/
  | rejected {i : Instr} (hi : i ≠ .hwInit ∧ i ≠ .loadDefaults) : Effect s x i (s.withMe { x with cmdstat := 0x01 })
  /-- R110. -/
  | defaults : Effect s x .loadDefaults
      (s.withMe { x with file := some defaultFile, initState := .idle, result := 0, cmdstat := 0x00 })
  /-- R115. -/
  | installed : Effect s x .ifInit { s.withMe (x.completed 0) with ioInstalled := true }
  /-- Completed without a transaction. -/
  | silent {i : Instr} {o : Option RegFile} {r : Word} (hi : i ≠ .hwInit ∧ i ≠ .loadDefaults)
      (ho : FileKept x.file o) : Effect s x i (s.withMe { x with file := o, result := r, cmdstat := 0x00 })
  /-- A command of `IO_CMDS`, completed with its transactions. -/
  | transacted {i : Instr} {o : Option RegFile} {st : Byte} {r : Word} {evs : List BusEvent} {t : State}
      (hi : isIoCmd i = true) (ho : FileKept x.file o)
      (ht : Reached s { x with file := o, busstat := st, result := r, cmdstat := 0x00 } evs t) : Effect s x i t
  /-- R120, R121: HW_INIT, run to IDLE. -/
  | initialised {t : State} (ht : WithinRows s x 0 t) : Effect s x .hwInit t

section
variable {s t : State} {x : Instance} {f : RegFile} {i : Instr}

theorem effect_reject (hx : Issues s x) (hi : i ≠ .hwInit ∧ i ≠ .loadDefaults) : Effect s x i s.rejectIllegal :=
  rejectIllegal_eq hx ▸ .rejected hi

/-- A command that only reports. -/
theorem effect_complete (hx : Issues s x) (hi : i ≠ .hwInit ∧ i ≠ .loadDefaults) (r : Word) :
    Effect s x i (s.complete r) :=
  complete_eq hx r ▸ .silent hi (.refl _)

/-- A command that changes the register file and completes. -/
theorem effect_store (hx : Loaded s x f) (hi : i ≠ .hwInit ∧ i ≠ .loadDefaults) {g : RegFile}
    (hg : f.Sound → g.Sound) : Effect s x i ((s.setFile g).complete 0) := by
  rw [setFile_eq hx.1, complete_eq (withMe_issues hx.1 _), withMe_withMe]
  exact .silent hi (.of_some hx.2 hg)

/-- A command that changes the register file, sends one slot of it and completes. -/
theorem effect_storeSend (hx : Loaded s x f) (hi : isIoCmd i = true) {g : RegFile} (hg : f.Sound → g.Sound)
    (j : Slot) : Effect s x i (((s.setFile g).sendSlot g j).complete 0) := by
  obtain ⟨st, hr⟩ := ((Reached.refl hx.1).setFile hx.1 g).send hx.1 g j
  exact .transacted hi (.of_some hx.2 hg) (hr.complete hx.1 0)

/-- A command with a slot selector. -/
theorem effect_of_withSlot {sel : BitVec 5} {k : Slot → Out} (hi : i ≠ .hwInit ∧ i ≠ .loadDefaults)
    (h : s.withSlot sel k = .next t) (hk : ∀ j, k j = .next t → ∃ x, Issues s x ∧ Effect s x i t) :
    ∃ x, Issues s x ∧ Effect s x i t := by
  obtain ⟨x, hx, rfl | ⟨hs, h⟩⟩ := withSlot_next h
  · exact ⟨x, hx, effect_reject hx hi⟩
  · exact hk _ h

/-- A command with a configuration selector. -/
theorem effect_of_withCfgId {sel : BitVec 5} {k : CfgId → Out} (hi : i ≠ .hwInit ∧ i ≠ .loadDefaults)
    (h : s.withCfgId sel k = .next t) (hk : ∀ id, k id = .next t → ∃ x, Issues s x ∧ Effect s x i t) :
    ∃ x, Issues s x ∧ Effect s x i t := by
  obtain ⟨x, hx, rfl | ⟨id, -, h⟩⟩ := withCfgId_next h
  · exact ⟨x, hx, effect_reject hx hi⟩
  · exact hk id h

/-! ### One command each, where the form alone does not give its effect -/

theorem effect_of_execHwInit (h : execHwInit s = .next t) : ∃ x, Issues s x ∧ Effect s x .hwInit t := by
  obtain ⟨x, f, ⟨hx, hf⟩, h⟩ := withFile_next h
  cases h
  have h0 : Within s x s x := ⟨⟨_, Reached.refl hx⟩, ⟨rfl, rfl, rfl⟩, .refl _⟩
  have hl : x.loaded = true := Option.isSome_iff_exists.mpr ⟨f, hf⟩
  exact ⟨x, hx, .initialised (WithinRows.initRun hx hl (h0.gotoRow hx (by decide) (by decide)))⟩

theorem effect_of_execSetCurrent (h : execSetCurrent s = .next t) : ∃ x, Issues s x ∧ Effect s x .setCurrent t := by
  obtain ⟨x, f, ⟨⟨hx, hf⟩, -⟩, h⟩ := withFileIo_next h
  simp only at h
  split at h
  · cases h
  · next hp =>
    cases h
    obtain ⟨st, hr⟩ := ((Reached.refl hx).setFile hx _).send hx _ slotChopconf
    obtain ⟨st', hr'⟩ := hr.send hx _ slotIholdIrun
    exact ⟨x, hx, .transacted rfl (.of_some hf (setCurrent_sound · _ (Nat.le_of_not_lt hp))) (hr'.complete hx 0)⟩

theorem effect_of_storeThreshold (hi : isIoCmd i = true) (h : s.storeThreshold = .next t) :
    ∃ x, Issues s x ∧ Effect s x i t := by
  obtain ⟨x, f, ⟨hx, -⟩, h⟩ := withFileIo_next h
  obtain ⟨v, -, h⟩ := withConversion_next h
  cases h
  exact ⟨x, hx.1, effect_storeSend hx hi (setField_sound · ..) _⟩

theorem effect_of_execWriteReg {sel : BitVec 5} (h : execWriteReg sel s = .next t) :
    ∃ x, Issues s x ∧ Effect s x (.writeReg sel) t := by
  refine effect_of_withSlot (by simp) h fun j h => ?_
  obtain ⟨x, f, ⟨⟨hx, -⟩, -⟩, h⟩ := withFileIo_next h
  cases h
  obtain ⟨st, hr⟩ := (Reached.refl hx).send hx f j
  exact ⟨x, hx, .transacted rfl (.refl _) (hr.complete hx _)⟩

theorem effect_of_execReadReg {sel : BitVec 5} (h : execReadReg sel s = .next t) :
    ∃ x, Issues s x ∧ Effect s x (.readReg sel) t := by
  refine effect_of_withSlot (by simp) h fun j h => ?_
  obtain ⟨x, f, ⟨⟨hx, hf⟩, -⟩, h⟩ := withFileIo_next h
  cases h
  obtain ⟨st, hr⟩ := (Reached.refl hx).fetch hx f j
  exact ⟨x, hx, .transacted rfl (.of_some hf (setValue_sound · ..)) (hr.complete hx _)⟩

theorem effect_of_execWriteRegX {a : Byte} (h : execWriteRegX a s = .next t) :
    ∃ x, Issues s x ∧ Effect s x (.writeRegX a) t := by
  obtain ⟨x, f, ⟨⟨hx, -⟩, -⟩, h⟩ := withFileIo_next h
  cases h
  obtain ⟨st, hr⟩ := (Reached.refl hx).write hx a s.me.arg1
  exact ⟨x, hx, .transacted rfl (.refl _) (hr.complete hx _)⟩

theorem effect_of_execReadRegX {a : Byte} (h : execReadRegX a s = .next t) :
    ∃ x, Issues s x ∧ Effect s x (.readRegX a) t := by
  obtain ⟨x, f, ⟨⟨hx, -⟩, -⟩, h⟩ := withFileIo_next h
  cases h
  obtain ⟨st, hr⟩ := (Reached.refl hx).read hx a
  exact ⟨x, hx, .transacted rfl (.refl _) (hr.complete hx _)⟩

theorem effect_of_execShadowWrite {sel : BitVec 5} (h : execShadowWrite sel s = .next t) :
    ∃ x, Issues s x ∧ Effect s x (.shadowWrite sel) t := by
  refine effect_of_withSlot (by simp) h fun j h => ?_
  obtain ⟨x, f, hl, h⟩ := withFile_next h
  split at h
  · cases h
    exact ⟨x, hl.1, effect_reject hl.1 (by simp)⟩
  · cases h
    exact ⟨x, hl.1, effect_store hl (by simp) (setValue_sound · ..)⟩

theorem effect_of_execConfigWrite {sel : BitVec 5} (h : execConfigWrite sel s = .next t) :
    ∃ x, Issues s x ∧ Effect s x (.configWrite sel) t := by
  refine effect_of_withCfgId (by simp) h fun id h => ?_
  obtain ⟨x, f, hl, h⟩ := withFile_next h
  split at h
  · cases h
    exact ⟨x, hl.1, effect_reject hl.1 (by simp)⟩
  · next c hc =>
    cases h
    exact ⟨x, hl.1, effect_store hl (by simp) (cfgWrite_sound · hc)⟩

/-- A command that answers a next state has one of the effects of `Effect`. -/
theorem exec_effect (h : exec i s = .next t) : ∃ x, Issues s x ∧ Effect s x i t := by
  cases i with
  | loadDefaults =>
    obtain ⟨x, hx, h⟩ := withInst_next h
    cases h
    refine ⟨x, hx, ?_⟩
    rw [setFile_eq hx, goto_eq (withMe_issues hx _), withMe_withMe, complete_eq (withMe_issues hx _), withMe_withMe]
    exact .defaults
  | ifInit =>
    obtain ⟨x, hx, h⟩ := withInst_next h
    split at h
    · cases h
    · cases h
      have hx' : Issues { s with ioInstalled := true } x := hx
      exact ⟨x, hx, complete_eq hx' 0 ▸ .installed⟩
  | hwInit => exact effect_of_execHwInit h
  | setCurrent => exact effect_of_execSetCurrent h
  | getCurrent | getRegPtr =>
    obtain ⟨x, f, hl, h⟩ := withFile_next h
    cases h
    exact ⟨x, hl.1, effect_complete hl.1 (by simp) _⟩
  | mstepsValid n =>
    obtain ⟨x, hx, h⟩ := withInst_next h
    cases h
    exact ⟨x, hx, effect_complete hx (by simp) _⟩
  | setMsteps n =>
    obtain ⟨x, f, ⟨hl, -⟩, h⟩ := withFileIo_next h
    cases h
    exact ⟨x, hl.1, effect_storeSend hl rfl (setMsteps_sound · _) _⟩
  | setHybridThrs | setTpwmthrs => exact effect_of_storeThreshold rfl h
  | getTpwmthrs =>
    obtain ⟨x, f, hl, h⟩ := withFile_next h
    obtain ⟨v, -, h⟩ := withConversion_next h
    cases h
    exact ⟨x, hl.1, effect_complete hl.1 (by simp) _⟩
  | setCotChopper =>
    obtain ⟨x, f, ⟨hl, -⟩, h⟩ := withFileIo_next h
    cases h
    exact ⟨x, hl.1, effect_storeSend hl rfl (setValue_sound · ..) _⟩
  | writeReg sel => exact effect_of_execWriteReg h
  | readReg sel => exact effect_of_execReadReg h
  | writeRegX a => exact effect_of_execWriteRegX h
  | readRegX a => exact effect_of_execReadRegX h
  | shadowRead sel =>
    refine effect_of_withSlot (by simp) h fun _ h => ?_
    obtain ⟨x, f, hl, h⟩ := withFile_next h
    cases h
    exact ⟨x, hl.1, effect_complete hl.1 (by simp) _⟩
  | shadowWrite sel => exact effect_of_execShadowWrite h
  | configRead sel =>
    refine effect_of_withCfgId (by simp) h fun _ h => ?_
    obtain ⟨x, f, hl, h⟩ := withFile_next h
    cases h
    exact ⟨x, hl.1, effect_complete hl.1 (by simp) _⟩
  | configWrite sel => exact effect_of_execConfigWrite h

end

end Sys2Proof.Machine
end

section
/-! SUPPORT. One step of the machine (10_state.md R41, 60_exceptions.md R270), said once: a step that runs no command changes
the words of one port, and any other step is `exec` of the decoded command. -/

namespace Sys2Proof.Machine

variable {s t : State} {x : Instance} {k : Nat} {w : Word} {rest : List HostWrite}

theorem startCommand_eq (hx : s.insts[k]? = some x) :
    State.startCommand { s with host := rest } k w =
      { s with host := rest, cur := k, insts := s.insts.set k { x with cmd := w } } := by
  rw [State.startCommand, updInst_eq_set (s := { s with host := rest }) hx]

theorem step_decoded {i : Instr} (h : s.host = .cmd k w :: rest) (hx : s.insts[k]? = some x) (hd : decode w = .ok i) :
    step s = exec i { s with host := rest, cur := k, insts := s.insts.set k { x with cmd := w } } := by
  have hlt : (HostWrite.cmd k w).inst < s.insts.length := (List.getElem?_eq_some_iff.mp hx).1
  simp only [step, h, if_pos hlt, hd, startCommand_eq hx]

theorem step_undecodable {e : DecodeError} (h : s.host = .cmd k w :: rest) (hx : s.insts[k]? = some x)
    (hd : decode w = .error e) :
    step s = .next { s with host := rest, cur := k, insts := s.insts.set k { x with cmd := w, cmdstat := 0x01 } } := by
  have hlt : (HostWrite.cmd k w).inst < s.insts.length := (List.getElem?_eq_some_iff.mp hx).1
  have hi : Issues { s with host := rest, cur := k, insts := s.insts.set k { x with cmd := w } } { x with cmd := w } :=
    List.getElem?_set_self hlt
  simp only [step, h, if_pos hlt, hd, startCommand_eq hx, rejectIllegal_eq hi, State.withMe, List.set_set]

/-- Settles O9: the equation of a step whose word decodes. -/
theorem stepRunsDecodedCommand : Obligations.StepRunsDecodedCommand :=
  fun _ _ _ _ _ _ h hx hd => step_decoded h hx hd

/-- What a step that answers a next state has done. -/
inductive Stepped (s : State) : State → Prop
  /-- R285: nothing. -/
  | idle : Stepped s s
  /-- R42, R90: the words of one port are written, and no command runs. -/
  | wrote {k j : Nat} {x y : Instance} {rest : List HostWrite} (hx : s.insts[k]? = some x) (hj : j = s.cur ∨ j = k)
      (hf : y.file = x.file) (hi : y.initState = x.initState) (hc : y.cmdstat = x.cmdstat ∨ y.cmdstat = 0x01) :
      Stepped s { s with host := rest, cur := j, insts := s.insts.set k y }
  /-- R41: the command `i` runs. -/
  | ran {k : Nat} {w : Word} {x : Instance} {rest : List HostWrite} {i : Instr} {t : State} (hx : s.insts[k]? = some x)
      (h : exec i { s with host := rest, cur := k, insts := s.insts.set k { x with cmd := w } } = .next t) : Stepped s t

/-- A host write to a number without a port is refused (log 3), so a step that takes one finds its port. -/
theorem exists_inst_of_step {h : HostWrite} (hh : s.host = h :: rest) (hs : step s = .next t) :
    ∃ x, s.insts[h.inst]? = some x := by
  by_cases hlt : h.inst < s.insts.length
  · exact ⟨_, List.getElem?_eq_getElem hlt⟩
  · simp only [step, hh, if_neg hlt] at hs
    cases hs

theorem step_stepped (hs : step s = .next t) : Stepped s t := by
  match hh : s.host with
  | [] =>
    rw [step_idle hh] at hs
    cases hs
    exact .idle
  | .arg0 k w :: rest =>
    obtain ⟨x, hx⟩ := exists_inst_of_step hh hs
    rw [step_arg0 hh hx] at hs
    cases hs
    exact .wrote hx (.inl rfl) rfl rfl (.inl rfl)
  | .arg1 k w :: rest =>
    obtain ⟨x, hx⟩ := exists_inst_of_step hh hs
    rw [step_arg1 hh hx] at hs
    cases hs
    exact .wrote hx (.inl rfl) rfl rfl (.inl rfl)
  | .cmd k w :: rest =>
    obtain ⟨x, hx⟩ := exists_inst_of_step hh hs
    match hd : decode w with
    | .ok i =>
      rw [step_decoded hh hx hd] at hs
      exact .ran hx hs
    | .error e =>
      rw [step_undecodable hh hx hd] at hs
      cases hs
      exact .wrote hx (.inr rfl) rfl rfl (.inr rfl)

end Sys2Proof.Machine
end

section
/-! SUPPORT. The frames of 10_state.md: what no command, or only a named one, changes. Each is read off the effect of a
command. -/

namespace Sys2Proof.Machine

variable {s t : State} {x y : Instance} {i : Instr} {evs : List BusEvent}

theorem withMe_sameElsewhere (s : State) (y : Instance) : SameElsewhere s (s.withMe y) :=
  ⟨rfl, rfl, by simp, fun _ h => set_other y h⟩

theorem Reached.sameElsewhere (h : Reached s y evs t) : SameElsewhere s t := by
  obtain ⟨c, -, rfl⟩ := h
  exact reached_sameElsewhere s y evs c

theorem Reached.ioInstalled (h : Reached s y evs t) : t.ioInstalled = s.ioInstalled := by
  obtain ⟨c, -, rfl⟩ := h
  rfl

theorem isIoCmd_transactionCount (h : isIoCmd i = true) : ¬ transactionCount i 0 := by
  cases i with
  | setCurrent | setMsteps | setHybridThrs | setTpwmthrs | setCotChopper | writeReg | readReg | writeRegX | readRegX =>
    exact Nat.zero_ne_add_one _
  | _ => cases h

theorem isIoCmd_ne (h : isIoCmd i = true) : i ≠ .hwInit ∧ i ≠ .loadDefaults := by
  constructor <;> rintro rfl <;> cases h

/-- R21, R283, R41. -/
theorem Effect.confined (hx : Issues s x) (h : Effect s x i t) :
    SameElsewhere s t ∧ ∃ y, Issues t y ∧ y.cmd = x.cmd ∧ y.arg0 = x.arg0 ∧ y.arg1 = x.arg1 := by
  cases h with
  | rejected | defaults | installed | silent =>
    exact ⟨withMe_sameElsewhere s _, _, withMe_issues hx _, rfl, rfl, rfl⟩
  | transacted _ _ ht => exact ⟨ht.sameElsewhere, _, ht.issues hx, rfl, rfl, rfl⟩
  | initialised ht =>
    obtain ⟨y, hy, -, -⟩ := ht
    exact ⟨hy.reached.choose_spec.sameElsewhere, y, hy.issues hx, hy.port⟩

/-- R45, R330. -/
theorem Effect.silentFrame (hx : Issues s x) (h : Effect s x i t) (hn : transactionCount i 0) (hi : i ≠ .hwInit) :
    NoTraffic s t ∧ ∃ y, Issues t y ∧ y.busstat = x.busstat := by
  cases h with
  | rejected | defaults | installed | silent => exact ⟨⟨rfl, rfl, rfl⟩, _, withMe_issues hx _, rfl⟩
  | transacted hio => exact absurd hn (isIoCmd_transactionCount hio)
  | initialised => exact absurd rfl hi

/-- R47, R110, R121. -/
theorem Effect.hidden (hx : Issues s x) (h : Effect s x i t) :
    ∃ y, Issues t y ∧ (i ≠ .hwInit → y.savedChopconf = x.savedChopconf) ∧
      (i ≠ .hwInit → i ≠ .loadDefaults → y.initState = x.initState) ∧
      (i = .hwInit ∨ i = .loadDefaults → y.initState = .idle) := by
  cases h with
  | rejected hi | silent hi =>
    exact ⟨_, withMe_issues hx _, fun _ => rfl, fun _ _ => rfl, fun h => absurd h (not_or.mpr hi)⟩
  | defaults => exact ⟨_, withMe_issues hx _, fun _ => rfl, fun _ h => absurd rfl h, fun _ => rfl⟩
  | installed => exact ⟨_, withMe_issues hx _, fun _ => rfl, fun _ _ => rfl, by simp⟩
  | transacted hi _ ht =>
    exact ⟨_, ht.issues hx, fun _ => rfl, fun _ _ => rfl, fun h => absurd h (not_or.mpr (isIoCmd_ne hi))⟩
  | initialised ht =>
    obtain ⟨y, hy, hn, -⟩ := ht
    exact ⟨y, hy.issues hx, fun h => absurd rfl h, fun h => absurd rfl h, fun _ => rowsLeft_eq_zero (Nat.le_zero.mp hn)⟩

/-- R20, R22, R303. -/
theorem Effect.installedLoaded (hx : Issues s x) (h : Effect s x i t) :
    (i ≠ .ifInit → t.ioInstalled = s.ioInstalled) ∧ (s.ioInstalled = true → t.ioInstalled = true) ∧
      ∃ y, Issues t y ∧ (i ≠ .loadDefaults → y.loaded = x.loaded) ∧ (x.loaded = true → y.loaded = true) := by
  cases h with
  | rejected => exact ⟨fun _ => rfl, id, _, withMe_issues hx _, fun _ => rfl, id⟩
  | defaults => exact ⟨fun _ => rfl, id, _, withMe_issues hx _, fun h => absurd rfl h, fun _ => rfl⟩
  | installed => exact ⟨fun h => absurd rfl h, fun _ => rfl, _, withMe_issues hx _, fun _ => rfl, id⟩
  | silent _ ho => exact ⟨fun _ => rfl, id, _, withMe_issues hx _, fun _ => ho.1, ho.1.trans⟩
  | transacted _ ho ht =>
    exact ⟨fun _ => ht.ioInstalled, ht.ioInstalled.trans, _, ht.issues hx, fun _ => ho.1, ho.1.trans⟩
  | initialised ht =>
    obtain ⟨y, hy, -, -⟩ := ht
    have hio := hy.reached.choose_spec.ioInstalled
    exact ⟨fun _ => hio, hio.trans, y, hy.issues hx, fun _ => hy.file.1, hy.file.1.trans⟩

/-- Settles O49, by the effects of a command. -/
theorem commandsStayInTheirInstance : Obligations.CommandsStayInTheirInstance := by
  intro s t i h
  obtain ⟨x, hx, he⟩ := exec_effect h
  obtain ⟨hs, y, hy, hport⟩ := he.confined hx
  exact ⟨hs, x, y, hx, hy, hport⟩

/-- Settles O50, by the effects of a command: the only ones with transactions belong to `IO_CMDS` and HW_INIT. -/
theorem silentCommandsFrame : Obligations.SilentCommandsFrame := by
  intro s t i h hn hi
  obtain ⟨x, hx, he⟩ := exec_effect h
  obtain ⟨hs, y, hy, hb⟩ := he.silentFrame hx hn hi
  exact ⟨hs, x, y, hx, hy, hb⟩

/-- Settles O54, by the effects of a command; that HW_INIT ends in IDLE is `WithinRows.initRun`. -/
theorem hiddenRegistersFrame : Obligations.HiddenRegistersFrame := by
  intro s t i h
  obtain ⟨x, hx, he⟩ := exec_effect h
  obtain ⟨y, hy, hframe⟩ := he.hidden hx
  exact ⟨x, y, hx, hy, hframe⟩

/-! ## The transport stays installed and register files stay loaded -/

/-- Neither `IO_INSTALLED` nor any `LOADED` goes from 1 in `s` to 0 in `t`. -/
def KeepsLoaded (s t : State) : Prop :=
  (s.ioInstalled = true → t.ioInstalled = true) ∧
    ∀ (k : Nat) (x : Instance), s.insts[k]? = some x → ∃ y, t.insts[k]? = some y ∧ (x.loaded = true → y.loaded = true)

theorem KeepsLoaded.trans {u : State} (h : KeepsLoaded s t) (h' : KeepsLoaded t u) : KeepsLoaded s u := by
  refine ⟨h'.1 ∘ h.1, fun k x hx => ?_⟩
  obtain ⟨y, hy, hxy⟩ := h.2 k x hx
  obtain ⟨z, hz, hyz⟩ := h'.2 k y hy
  exact ⟨z, hz, hyz ∘ hxy⟩

/-- Only number `k` changes, and it stays loaded if it was. -/
theorem keepsLoaded_of_others {k : Nat} (hio : s.ioInstalled = true → t.ioInstalled = true)
    (hx : s.insts[k]? = some x) (hy : t.insts[k]? = some y) (hl : x.loaded = true → y.loaded = true)
    (ho : ∀ j : Nat, j ≠ k → t.insts[j]? = s.insts[j]?) : KeepsLoaded s t := by
  refine ⟨hio, fun j z hz => ?_⟩
  by_cases hj : j = k
  · subst hj
    cases hx.symm.trans hz
    exact ⟨y, hy, hl⟩
  · exact ⟨z, (ho j hj).trans hz, id⟩

theorem keepsLoaded_set {k j : Nat} {rest : List HostWrite} (hx : s.insts[k]? = some x) (hf : y.file = x.file) :
    KeepsLoaded s { s with host := rest, cur := j, insts := s.insts.set k y } :=
  keepsLoaded_of_others id hx (List.getElem?_set_self (List.getElem?_eq_some_iff.mp hx).1)
    (by simp [Instance.loaded, hf]) fun _ h => set_other y h

theorem exec_keepsLoaded (h : exec i s = .next t) : KeepsLoaded s t := by
  obtain ⟨x, hx, he⟩ := exec_effect h
  obtain ⟨-, hio, y, hy, -, hl⟩ := he.installedLoaded hx
  obtain ⟨⟨hcur, -, -, ho⟩, -⟩ := he.confined hx
  exact keepsLoaded_of_others hio hx (hcur ▸ hy) hl ho

theorem step_keepsLoaded (h : step s = .next t) : KeepsLoaded s t := by
  cases step_stepped h with
  | idle => exact ⟨id, fun _ x hx => ⟨x, hx, id⟩⟩
  | wrote hx _ hf => exact keepsLoaded_set hx hf
  | ran hx he => exact .trans (keepsLoaded_set hx (by rfl)) (exec_keepsLoaded he)

/-- Settles O56: the first part by `step_keepsLoaded`, the second by the effects of a command. -/
theorem nothingUnloadsOrUninstalls : Obligations.NothingUnloadsOrUninstalls := by
  refine ⟨fun s t => step_keepsLoaded, fun s t i h => ?_⟩
  obtain ⟨x, hx, he⟩ := exec_effect h
  obtain ⟨hio, -, y, hy, hl, -⟩ := he.installedLoaded hx
  exact ⟨hio, x, y, hx, hy, hl⟩

end Sys2Proof.Machine
end

section
/-! SUPPORT. The invariant of 10_state.md: every step keeps a sound machine sound, and where CHOPCONF.mres agrees with
CFG.MICROSTEPS (R35). -/

namespace Sys2Proof.Machine

variable {s t : State} {x y : Instance} {i : Instr} {evs : List BusEvent}

/-! ## Soundness of a state with one port replaced -/

theorem State.Sound.issuer (hs : s.Sound) (hx : Issues s x) : x.Sound :=
  hs.2.1 x (List.mem_of_getElem? hx)

theorem set_all_sound {l : List Instance} (hl : ∀ z ∈ l, z.Sound) (k : Nat) (hy : y.Sound) :
    ∀ z ∈ l.set k y, z.Sound := fun z hz =>
  (List.mem_or_eq_of_mem_set hz).elim (hl z) (· ▸ hy)

theorem withMe_sound (hs : s.Sound) (hy : y.Sound) : (s.withMe y).Sound := by
  obtain ⟨hcur, hall, hchip⟩ := hs
  exact ⟨by simpa using hcur, set_all_sound hall _ hy, hchip⟩

theorem Reached.sound (h : Reached s y evs t) (hs : s.Sound) (hy : y.Sound) : t.Sound := by
  obtain ⟨c, hc, rfl⟩ := h
  obtain ⟨hcur, hall, hchip⟩ := withMe_sound hs hy
  exact ⟨hcur, hall, hc hchip⟩

/-- A write of one port's words keeps the machine sound. -/
theorem set_sound {k j : Nat} {rest : List HostWrite} (hs : s.Sound) (hx : s.insts[k]? = some x)
    (hj : j = s.cur ∨ j = k) (hy : y.Sound) :
    State.Sound { s with host := rest, cur := j, insts := s.insts.set k y } := by
  obtain ⟨hcur, hall, hchip⟩ := hs
  have hk : k < s.insts.length := (List.getElem?_eq_some_iff.mp hx).1
  refine ⟨?_, set_all_sound hall k hy, hchip⟩
  rw [List.length_set]
  rcases hj with rfl | rfl
  · exact hcur
  · exact hk

/-! ## Steps -/

theorem Effect.sound (hs : s.Sound) (hx : Issues s x) (h : Effect s x i t) : t.Sound := by
  obtain ⟨hi, -, hf⟩ := hs.issuer hx
  cases h with
  | rejected => exact withMe_sound hs ⟨hi, .inr rfl, hf⟩
  | defaults => exact withMe_sound hs ⟨rfl, .inl rfl, fun f h => Option.some.inj h ▸ defaultFile_sound⟩
  | installed => exact withMe_sound (s := s) hs (y := x.completed 0) ⟨hi, .inl rfl, hf⟩
  | silent _ ho => exact withMe_sound hs ⟨hi, .inl rfl, ho.2 hf⟩
  | transacted _ ho ht => exact ht.sound hs ⟨hi, .inl rfl, ho.2 hf⟩
  | initialised ht =>
    obtain ⟨y, hy, hn, hd⟩ := ht
    have hidle := rowsLeft_eq_zero (Nat.le_zero.mp hn)
    exact hy.reached.choose_spec.sound hs ⟨hidle, .inl (hd hidle), hy.file.2 hf⟩

theorem exec_sound (hs : s.Sound) (h : exec i s = .next t) : t.Sound := by
  obtain ⟨x, hx, he⟩ := exec_effect h
  exact he.sound hs hx

/-- Settles O57, by the cases of a step; a command's is `exec_sound`. -/
theorem stepKeepsSound : Obligations.StepKeepsSound := by
  intro s t hs h
  cases step_stepped h with
  | idle => exact hs
  | @wrote k j x y rest hx hj hf hi hc =>
    obtain ⟨hxi, hxc, hxf⟩ := hs.2.1 x (List.mem_of_getElem? hx)
    exact set_sound hs hx hj ⟨hi.trans hxi, hc.elim (· ▸ hxc) .inr, hf ▸ hxf⟩
  | @ran k w x rest i t hx he =>
    have hxs : Instance.Sound { x with cmd := w } := hs.2.1 x (List.mem_of_getElem? hx)
    exact exec_sound (set_sound hs hx (.inr rfl) hxs) he

/-! ## The agreement of mres with MICROSTEPS -/

/-- R167: on a legal microstep count `to_mres` is 8 minus its exponent. -/
theorem toMres_two_pow {k : Nat} (hk : k ≤ 8) : toMres (2 ^ k) = 8 - k := by
  revert k
  decide

theorem mresAgrees_of_eq_toMres {f : RegFile} (hf : f.Sound)
    (h : f.field slotChopconf chopMres = toMres f.cfg.microsteps.toNat) : f.MresAgrees := by
  obtain ⟨-, -, k, hk, hms⟩ := hf
  rw [hms, toMres_two_pow hk] at h
  refine ⟨by omega, ?_⟩
  rw [h, hms, Nat.sub_sub_self hk]

theorem defaultFile_mresAgrees : defaultFile.MresAgrees :=
  mresAgrees_of_eq_toMres defaultFile_sound (by decide +kernel)

theorem setMsteps_mresAgrees (f : RegFile) {m : Nat} (hm : m ≤ 8) : (f.setMsteps m).MresAgrees := by
  have h : (f.setMsteps m).field slotChopconf chopMres = m := by
    have hv : (f.setMsteps m).value slotChopconf = putField chopMres (f.value slotChopconf) m :=
      RegFile.value_setField_self ..
    rw [RegFile.field, hv, getField_putField_self _ _ _ (by decide)]
    exact Nat.mod_eq_of_lt (Nat.lt_of_le_of_lt hm (by decide))
  exact ⟨h.symm ▸ hm, by rw [h, setMsteps_microsteps]⟩

theorem exec_setMsteps_file {n : Half} {g : RegFile} (h : exec (.setMsteps n) s = .next t) (ht : Loaded t y g) :
    ∃ f : RegFile, g = f.setMsteps (toMres n.toNat) := by
  obtain ⟨x, f, ⟨⟨hx, -⟩, -⟩, h⟩ := withFileIo_next h
  cases h
  obtain ⟨st, hr⟩ := ((Reached.refl hx).setFile hx (f.setMsteps (toMres n.toNat))).send hx _ slotChopconf
  obtain rfl := ht.1.unique ((hr.complete hx 0).issues hx)
  exact ⟨f, (Option.some.inj ht.2).symm⟩

/-- R242, R243: an accepted SHADOW_WRITE of CHOPCONF carries the mres of the microstep count. -/
theorem execShadowWrite_chopconf_field {g : RegFile} (h : execShadowWrite 12 s = .next t) (ht : Loaded t y g)
    (hy : y.cmdstat = 0x00) : ∃ x f v, Loaded s x f ∧ g = f.setValue slotChopconf v ∧
      getField chopMres v = toMres f.cfg.microsteps.toNat := by
  obtain ⟨x, hx, -⟩ := withSlot_next h
  rw [execShadowWrite, withSlot_of hx (by decide)] at h
  obtain ⟨x, f, hl, h⟩ := withFile_next h
  split at h
  · cases h
    rw [rejectIllegal_eq hl.1] at ht
    rw [ht.1.unique (withMe_issues hl.1 _)] at hy
    cases hy
  · next hm =>
    cases h
    rw [setFile_eq hl.1, complete_eq (withMe_issues hl.1 _), withMe_withMe] at ht
    obtain rfl := ht.1.unique (withMe_issues hl.1 _)
    exact ⟨x, f, s.me.arg1, hl, (Option.some.inj ht.2).symm, not_not.mp (not_and.mp hm rfl)⟩

theorem mresAgrees_of_exec {g : RegFile} (hx : Issues s x) (hf : ∀ f, x.file = some f → f.Sound)
    (hi : i = .loadDefaults ∨ (∃ n, i = .setMsteps n) ∨ i = .shadowWrite 12) (h : exec i s = .next t)
    (ht : Loaded t y g) (hy : y.cmdstat = 0x00) : g.MresAgrees := by
  rcases hi with rfl | ⟨n, rfl⟩ | rfl
  · obtain ⟨x', hx', he⟩ := exec_effect h
    cases he with
    | defaults =>
      obtain rfl := ht.1.unique (withMe_issues hx' _)
      exact Option.some.inj ht.2 ▸ defaultFile_mresAgrees
    | rejected hi | silent hi => exact absurd rfl hi.2
    | transacted hi => cases hi
  · obtain ⟨f, rfl⟩ := exec_setMsteps_file h ht
    exact setMsteps_mresAgrees f (toMres_le _)
  · obtain ⟨x', f, v, ⟨hx', hf'⟩, rfl, hv⟩ := execShadowWrite_chopconf_field h ht hy
    have hs : f.Sound := hf f (hx.unique hx' ▸ hf')
    refine mresAgrees_of_eq_toMres (setValue_sound hs _ _) ?_
    rw [RegFile.field, RegFile.value_setValue_self, hv, RegFile.setValue_cfg]

/-! ### A READ_REG that loses the agreement -/

/-- What LOAD_DEFAULTS makes of a port in reset. -/
def loadedInstance : Instance := { Instance.reset with file := some defaultFile }

/-- A loaded and installed block with one port, before a chip that answers 0 to every read (ECHO_CHIP_STUCK(0), R68). -/
def stuckAtZero : State :=
  { State.resetWith 1 (.stuck 0) with ioInstalled := true, insts := [loadedInstance] }

theorem stuckAtZero_ready : Ready stuckAtZero loadedInstance defaultFile := ⟨⟨rfl, rfl⟩, rfl⟩

theorem stuckAtZero_sound : stuckAtZero.Sound := by
  refine ⟨by decide, fun x hx => ?_, trivial⟩
  obtain rfl := List.mem_singleton.mp hx
  exact ⟨rfl, .inl rfl, fun f hf => Option.some.inj hf ▸ defaultFile_sound⟩

/-- The mres field read back is 0, and MICROSTEPS is still 16. -/
theorem stuckAtZero_mres_lost : ¬ (defaultFile.setValue slotChopconf 0).MresAgrees := by
  rintro ⟨-, h⟩
  rw [RegFile.field, RegFile.value_setValue_self] at h
  revert h
  decide

theorem exec_readReg {sel : BitVec 5} {f : RegFile} (h : Ready s x f) (hs : sel.toNat < Config.nslot) :
    exec (.readReg sel) s = .next ((s.fetchSlot f ⟨sel.toNat, hs⟩).complete
      ((s.readStatus (f.addr ⟨sel.toNat, hs⟩)).setWidth 32)) := by
  rw [exec, execReadReg, withSlot_of h.1.1 hs, withFileIo_of h]

/-- Settles O59: each of the three commands leaves the mres of MICROSTEPS, and `stuckAtZero` is the state where READ_REG
does not. -/
theorem mresAgreement : Obligations.MresAgreement := by
  refine ⟨fun s t i x y g => mresAgrees_of_exec, ?_⟩
  have hready := stuckAtZero_ready
  have hx : Issues stuckAtZero loadedInstance := hready.1.1
  obtain ⟨st, hr⟩ := (Reached.refl hx).fetch hx defaultFile slotChopconf
  exact ⟨stuckAtZero, _, loadedInstance, _, defaultFile, _, stuckAtZero_sound, hready, defaultFile_mresAgrees,
    exec_readReg hready (by decide), ⟨(hr.complete hx _).issues hx, rfl⟩, stuckAtZero_mres_lost⟩

end Sys2Proof.Machine
end

section
/-! SUPPORT. The simulators ECHO_CHIP and ECHO_CHIP_STUCK (20_memory.md R68): what a request leaves in the map, and what
the map holds at the start. -/

namespace Sys2Proof.Machine

variable {m : Memory}

theorem read_write_byte (hm : Memory.wf m = true) (a b : Byte) (v : Word) :
    Memory.read (Memory.write m a.toNat v) b.toNat = if b = a then v else Memory.read m b.toNat := by
  rw [read_write hm]
  simp only [BitVec.toNat_inj]

/-- A write to ECHO_CHIP sets the address written and no other. -/
theorem echo_after_write (hm : Memory.wf m = true) (k : Nat) (a : Byte) (v : Word) :
    ∃ m', (Chip.echo m).after ⟨k, .W, a, v⟩ = .echo m' ∧ Memory.wf m' = true ∧
      ∀ b : Byte, Memory.read m' b.toNat = if b = a then v else Memory.read m b.toNat :=
  ⟨_, rfl, write_wf hm _ _, fun b => read_write_byte hm a b v⟩

/-- A read of ECHO_CHIP clears GSTAT when it reads GSTAT, and changes nothing else. -/
theorem echo_after_read (hm : Memory.wf m = true) (k : Nat) (a : Byte) :
    ∃ m', (Chip.echo m).after ⟨k, .R, a, 0⟩ = .echo m' ∧ Memory.wf m' = true ∧
      ∀ b : Byte, Memory.read m' b.toNat = if a = 0x01 ∧ b = 0x01 then 0 else Memory.read m b.toNat := by
  refine ⟨_, rfl, ?_⟩
  by_cases ha : a = 0x01
  · simp only [ha, if_true, true_and]
    exact ⟨write_wf hm _ _, fun b => read_write_byte hm 0x01 b 0⟩
  · exact ⟨by rwa [if_neg ha], fun b => by rw [if_neg ha, if_neg fun h => ha h.1]⟩

/-- The contents of ECHO_CHIP(drv) at the start: the two registers written over an empty map, GSTAT last. -/
theorem echoChip_read (drv : Word) (a : Byte) :
    Memory.read (Memory.write (Memory.write [] 0x6F drv) 0x01 1) a.toNat =
      if a = 0x6F then drv else if a = 0x01 then 0x00000001 else 0 := by
  have hdrv : Memory.read (Memory.write [] 0x6F drv) a.toNat = if a = 0x6F then drv else 0 :=
    read_write_byte rfl 0x6F a drv
  have hgstat := read_write_byte (write_wf (m := []) rfl 0x6F drv) 0x01 a 1
  refine hgstat.trans ?_
  rw [hdrv]
  by_cases ha : a = 0x01
  · subst ha
    rfl
  · simp only [ha, if_false]

/-- Settles O60: the answers are the definition of `Chip.answer`, the maps those of the three lemmas above, and
ECHO_CHIP_STUCK keeps no map. -/
theorem echoChipAnswers : Obligations.EchoChipAnswers := by
  refine ⟨fun m n k h a b v hm => ⟨rfl, rfl, ?_, ?_⟩, fun drv => ?_, fun u n k h a v => ⟨rfl, rfl, rfl, rfl⟩⟩
  · obtain ⟨m', he, hwf, hr⟩ := echo_after_read hm k a
    exact ⟨m', he, hwf, hr b⟩
  · obtain ⟨m', he, hwf, hr⟩ := echo_after_write hm k a v
    exact ⟨m', he, hwf, hr b⟩
  · exact ⟨_, rfl, echoChip_sound drv, echoChip_read drv⟩

end Sys2Proof.Machine
end

section
/-! SUPPORT. The decoder said once, by the row of the opcode map (30_encoding.md R82, R84): which row an opcode has, what
a word with that row decodes to, and that the encoder writes the words of the same rows. -/

namespace Sys2Proof

open Sys2Proof.Laws.EncodedFields (Statement formatOf)

/-! ## The row of an opcode -/

/-- The row of R84 with the opcode `op`, if the opcode is not reserved. -/
def rowOf (op : Byte) : Option OpRow := opcodeMap.find? fun r => r.op == op

theorem rowOf_some {op : Byte} {r : OpRow} (h : rowOf op = some r) : r ∈ opcodeMap ∧ r.op = op :=
  ⟨List.mem_of_find?_eq_some h, by simpa using List.find?_some h⟩

theorem rowOf_none {op : Byte} (h : ∀ r ∈ opcodeMap, r.op ≠ op) : rowOf op = none := by
  simpa [rowOf] using h

/-- R84: an instruction's opcode has a row of its format, which reads the instruction from its word. -/
theorem rowOf_opcodeOf (i : Instr) :
    ∃ build, rowOf (opcodeOf i) = some ⟨opcodeOf i, formatOf i, build⟩ ∧ build (encode i) = i := by
  cases i with
  | mstepsValid n | setMsteps n => exact ⟨_, rfl, congrArg _ (immField_cmdWord ..)⟩
  | writeReg sel | readReg sel | shadowRead sel | shadowWrite sel | configRead sel | configWrite sel =>
    exact ⟨_, rfl, congrArg _ (selField_cmdWord ..)⟩
  | writeRegX a | readRegX a | getRegPtr a =>
    exact ⟨_, rfl, congrArg _ ((addrField_cmdWord ..).trans (BitVec.setWidth_setWidth_of_le a (by decide)))⟩
  | _ => exact ⟨_, rfl, rfl⟩

/-! ## Decoding a word -/

section
variable {w : Word} {r : OpRow} {i : Instr}

/-- R82: the row, then the mask, then the selector. -/
theorem decode_row (h : rowOf (opField w) = some r) :
    decode w =
      if w &&& formatMask r.fmt = (opField w).setWidth 32 then
        if (r.build w).wellFormed then .ok (r.build w) else .error .selectorRange
      else .error .mustBeZero := by
  have hop := (rowOf_some h).2
  rw [rowOf] at h
  simp only [decode, h, hop]

theorem decode_reserved (h : rowOf (opField w) = none) : decode w = .error .reservedOpcode := by
  rw [rowOf] at h
  simp only [decode, h]

theorem decode_mustBeZero_iff (h : rowOf (opField w) = some r) :
    decode w = .error .mustBeZero ↔ ¬ w &&& formatMask r.fmt = (opField w).setWidth 32 := by
  rw [decode_row h]
  split
  · next hm => split <;> simp [hm]
  · next hm => simp [hm]

theorem decode_ok (h : decode w = .ok i) :
    ∃ r, rowOf (opField w) = some r ∧ w &&& formatMask r.fmt = (opField w).setWidth 32 ∧ r.build w = i ∧
      i.wellFormed = true := by
  match hr : rowOf (opField w) with
  | none =>
    rw [decode_reserved hr] at h
    cases h
  | some r =>
    rw [decode_row hr] at h
    split at h
    · next hm =>
      split at h
      · next hw =>
        cases h
        exact ⟨r, rfl, hm, rfl, hw⟩
      · cases h
    · cases h

end

/-! ## Decoding the word of an instruction -/

open Sys2Proof.Laws.EncodedFields in
/-- R80 to R82: the fields of every instruction's word. -/
theorem encodedFields (i : Instr) : Statement i :=
  match i with
  | .loadDefaults => loadDefaults
  | .ifInit => ifInit
  | .hwInit => hwInit
  | .setCurrent => setCurrent
  | .getCurrent => getCurrent
  | .mstepsValid n => mstepsValid n
  | .setMsteps n => setMsteps n
  | .setHybridThrs => setHybridThrs
  | .getTpwmthrs => getTpwmthrs
  | .setTpwmthrs => setTpwmthrs
  | .setCotChopper => setCotChopper
  | .writeReg sel => writeReg sel
  | .readReg sel => readReg sel
  | .writeRegX a => writeRegX a
  | .readRegX a => readRegX a
  | .getRegPtr a => getRegPtr a
  | .shadowRead sel => shadowRead sel
  | .shadowWrite sel => shadowWrite sel
  | .configRead sel => configRead sel
  | .configWrite sel => configWrite sel

/-- An instruction's word reaches its row and passes the mask, so only its selector decides. -/
theorem decode_encode (i : Instr) :
    decode (encode i) = if i.wellFormed then .ok i else .error .selectorRange := by
  obtain ⟨hop, -, hm⟩ := encodedFields i
  obtain ⟨build, hr, hb⟩ := rowOf_opcodeOf i
  rw [← hop] at hr hm
  simp only [decode_row hr, if_pos hm, hb]

theorem decode_encode_of_wellFormed {i : Instr} (h : i.wellFormed = true) : decode (encode i) = .ok i := by
  rw [decode_encode, if_pos h]

/-- Settles O2: `decode_encode` for a selector in range. -/
theorem decodeOfEncode : Obligations.DecodeOfEncode := fun _ h => decode_encode_of_wellFormed h

/-! ## The word of a decoded instruction -/

/-- R85: an address operand is the immediate, when the immediate's high half is 0. -/
theorem addrField_setWidth {w : Word} (h : (immField w).extractLsb' 8 8 = 0) :
    (addrField w).setWidth 16 = immField w := by
  apply BitVec.eq_of_getLsbD_eq
  intro i hi
  by_cases hlow : i < 8
  · simp [addrField, immField, hi, hlow]
  · have hbit := (part_zero_iff w 24 8).mp (immField_high w ▸ h) (16 + i) (by omega) (by omega)
    simp [addrField, immField, hi, hlow, hbit]

section
variable {w : Word} {op : Byte}

theorem cmdWord_of_mask_n (hop : opField w = op) (hm : w &&& formatMask .n = (opField w).setWidth 32) :
    cmdWord 0 0 op = w := by
  obtain ⟨himm, hrsv, hsel⟩ := (mask_iff .n w).mp hm
  rw [← hop, ← himm, ← hsel, cmdWord_fields w hrsv]

theorem cmdWord_of_mask_s (hop : opField w = op) (hm : w &&& formatMask .s = (opField w).setWidth 32) :
    cmdWord 0 (selField w) op = w := by
  obtain ⟨himm, hrsv⟩ := (mask_iff .s w).mp hm
  rw [← hop, ← himm, cmdWord_fields w hrsv]

theorem cmdWord_of_mask_imm (hop : opField w = op) (hm : w &&& formatMask .imm = (opField w).setWidth 32) :
    cmdWord (immField w) 0 op = w := by
  obtain ⟨hrsv, hsel⟩ := (mask_iff .imm w).mp hm
  rw [← hop, ← hsel, cmdWord_fields w hrsv]

theorem cmdWord_of_mask_addr (hop : opField w = op) (hm : w &&& formatMask .addr = (opField w).setWidth 32) :
    cmdWord ((addrField w).setWidth 16) 0 op = w := by
  obtain ⟨hhigh, hrsv, hsel⟩ := (mask_iff .addr w).mp hm
  rw [addrField_setWidth hhigh, ← hop, ← hsel, cmdWord_fields w hrsv]

end

/-- The encoder gives back every word that reaches the row and passes its mask. -/
def OpRow.EncodesBack (r : OpRow) : Prop :=
  ∀ w, opField w = r.op → w &&& formatMask r.fmt = (opField w).setWidth 32 → encode (r.build w) = w

/-- Each row by its format: the word is made of the opcode and the fields its instruction keeps. -/
theorem opcodeMap_encodesBack : ∀ r ∈ opcodeMap, r.EncodesBack := by
  simp only [opcodeMap, List.forall_mem_cons]
  exact ⟨fun _ => cmdWord_of_mask_n, fun _ => cmdWord_of_mask_n, fun _ => cmdWord_of_mask_n,
    fun _ => cmdWord_of_mask_n, fun _ => cmdWord_of_mask_n,
    fun _ => cmdWord_of_mask_imm, fun _ => cmdWord_of_mask_imm,
    fun _ => cmdWord_of_mask_n, fun _ => cmdWord_of_mask_n, fun _ => cmdWord_of_mask_n, fun _ => cmdWord_of_mask_n,
    fun _ => cmdWord_of_mask_s, fun _ => cmdWord_of_mask_s,
    fun _ => cmdWord_of_mask_addr, fun _ => cmdWord_of_mask_addr, fun _ => cmdWord_of_mask_addr,
    fun _ => cmdWord_of_mask_s, fun _ => cmdWord_of_mask_s, fun _ => cmdWord_of_mask_s, fun _ => cmdWord_of_mask_s,
    List.forall_mem_nil _⟩

/-- Settles O3: the row of the word encodes back. -/
theorem encodeOfDecode : Obligations.EncodeOfDecode := by
  intro w i h
  obtain ⟨r, hr, hm, rfl, hwf⟩ := decode_ok h
  obtain ⟨hmem, hop⟩ := rowOf_some hr
  exact ⟨opcodeMap_encodesBack r hmem w hop.symm hm, hwf⟩

/-! ## Words written from the fields of R80 -/

theorem cmdWord_imm (n : Half) (op : Byte) : cmdWord n 0 op = n ++ (0#8 ++ op) := by
  apply BitVec.eq_of_getLsbD_eq
  intro i hi
  simp only [cmdWord_bit, BitVec.getLsbD_append]
  by_cases hop : i < 8
  · simp [hop, show i < 16 by omega]
  · by_cases hlow : i < 16
    · simp [hop, hlow]
    · simp [hop, hlow, show ¬ i < 13 by omega]

theorem cmdWord_addr (a op : Byte) : cmdWord (a.setWidth 16) 0 op = 0#8 ++ a ++ (0#8 ++ op) := by
  rw [cmdWord_imm, BitVec.setWidth_eq_append (by decide)]
  rfl

theorem cmdWord_sel (sel : BitVec 5) (op : Byte) : cmdWord 0 sel op = 0#19 ++ sel ++ op := by
  apply BitVec.eq_of_getLsbD_eq
  intro i hi
  simp only [cmdWord_bit, BitVec.getLsbD_append]
  by_cases hop : i < 8
  · simp [hop]
  · by_cases hsel : i < 13
    · simp [hop, hsel, show i - 8 < 5 by omega]
    · simp [hop, hsel, show ¬ i - 8 < 5 by omega]

theorem decode_error_of_encode_eq {i : Instr} {w : Word} (hi : ¬ i.wellFormed = true) (h : encode i = w) :
    decode w = .error .selectorRange := by
  rw [← h, decode_encode, if_neg hi]

section
variable {i : Instr} {op : Byte} (hi : i.wellFormed = true)
include hi

theorem decode_of_encode_eq {w : Word} (h : encode i = w) : decode w = .ok i := h ▸ decode_encode_of_wellFormed hi

theorem decode_immWord {n : Half} (h : encode i = cmdWord n 0 op) : decode (n ++ (0#8 ++ op)) = .ok i :=
  decode_of_encode_eq hi (h.trans (cmdWord_imm n op))

theorem decode_addrWord {a : Byte} (h : encode i = cmdWord (a.setWidth 16) 0 op) :
    decode (0#8 ++ a ++ (0#8 ++ op)) = .ok i := decode_of_encode_eq hi (h.trans (cmdWord_addr a op))

theorem decode_selWord {sel : BitVec 5} (h : encode i = cmdWord 0 sel op) : decode (0#19 ++ sel ++ op) = .ok i :=
  decode_of_encode_eq hi (h.trans (cmdWord_sel sel op))

end

/-- Settles O4: the word of each row is the encoder's. -/
theorem opcodeMapRows : Obligations.OpcodeMapRows := fun _ _ _ =>
  ⟨⟨decode_of_encode_eq rfl rfl, decode_of_encode_eq rfl rfl, decode_of_encode_eq rfl rfl⟩,
    ⟨decode_of_encode_eq rfl rfl, decode_of_encode_eq rfl rfl⟩,
    ⟨decode_immWord (op := 0x20) rfl rfl, decode_immWord (op := 0x21) rfl rfl⟩,
    ⟨decode_of_encode_eq rfl rfl, decode_of_encode_eq rfl rfl, decode_of_encode_eq rfl rfl⟩,
    decode_of_encode_eq rfl rfl,
    fun h => ⟨decode_selWord (i := .writeReg _) (decide_eq_true h) rfl,
      decode_selWord (i := .readReg _) (decide_eq_true h) rfl⟩,
    ⟨decode_addrWord (op := 0x52) rfl rfl, decode_addrWord (op := 0x53) rfl rfl, decode_addrWord (op := 0x54) rfl rfl⟩,
    fun h => ⟨decode_selWord (i := .shadowRead _) (decide_eq_true h) rfl,
      decode_selWord (i := .shadowWrite _) (decide_eq_true h) rfl⟩,
    fun h => ⟨decode_selWord (i := .configRead _) (decide_eq_true h) rfl,
      decode_selWord (i := .configWrite _) (decide_eq_true h) rfl⟩⟩

/-- Settles O1: the words of R84's rows for `n = 16`, `sel = 12` and `a = 0x73`. -/
theorem specWordsDecode : Obligations.SpecWordsDecode := by
  obtain ⟨⟨hLoad, hIf, hHw⟩, ⟨hSet, hGet⟩, ⟨-, hMsteps⟩, ⟨hHybrid, hGetT, hSetT⟩, hCot, hReg, ⟨-, -, hPtr⟩, -, -⟩ :=
    opcodeMapRows 16 12 0x73
  exact ⟨hLoad, hIf, hHw, hSet, hGet, hHybrid, hGetT, hSetT, hCot, hMsteps, (hReg (by decide)).2, hPtr⟩

/-! ## Must-be-zero bits -/

theorem toNat_opField (w : Word) : (opField w).toNat = w.toNat % 256 := by simp [opField]

theorem opField_eq_ofNat (w : Word) : opField w = BitVec.ofNat 8 (w.toNat % 256) := by
  rw [← toNat_opField, BitVec.ofNat_toNat, BitVec.setWidth_eq]

theorem mask_n_iff (w : Word) : w &&& formatMask .n = (opField w).setWidth 32 ↔ w.extractLsb' 8 24 = 0 := by
  rw [mask_iff_bits, part_zero_iff]
  simp only [mustBeZero, decide_eq_true_eq]
  exact ⟨fun h i h8 h32 => h i h8 h32 h8, fun h i h8 h32 _ => h i h8 h32⟩

theorem mask_s_iff (w : Word) : w &&& formatMask .s = (opField w).setWidth 32 ↔ w.extractLsb' 13 19 = 0 := by
  rw [mask_iff_bits, part_zero_iff]
  simp only [mustBeZero, decide_eq_true_eq]
  exact ⟨fun h i h13 h32 => h i (by omega) h32 h13, fun h i _ h32 h13 => h i h13 h32⟩

theorem mask_imm_iff (w : Word) : w &&& formatMask .imm = (opField w).setWidth 32 ↔ w.extractLsb' 8 8 = 0 := by
  rw [mask_iff_bits, part_zero_iff]
  simp only [mustBeZero, Bool.and_eq_true, decide_eq_true_eq]
  exact ⟨fun h i h8 h16 => h i h8 (by omega) ⟨h8, h16⟩, fun h i _ _ hi => h i hi.1 hi.2⟩

theorem mask_addr_iff (w : Word) :
    w &&& formatMask .addr = (opField w).setWidth 32 ↔ w.extractLsb' 8 8 = 0 ∧ w.extractLsb' 24 8 = 0 := by
  rw [mask_iff_bits, part_zero_iff, part_zero_iff]
  simp only [mustBeZero, Bool.and_eq_true, Bool.or_eq_true, decide_eq_true_eq]
  exact ⟨fun h => ⟨fun i h8 h16 => h i h8 (by omega) ⟨h8, .inl h16⟩,
      fun i h24 h32 => h i (by omega) h32 ⟨by omega, .inr h24⟩⟩,
    fun ⟨hlow, hhigh⟩ i h8 h32 hi => hi.2.elim (hlow i h8) (hhigh i · h32)⟩

/-- R82: where every opcode of `l` has the format `f`, a word with one of them is refused by the mask of `f` alone. -/
theorem decode_mustBeZero_of_format {w : Word} {f : Format} {l : List Nat} (hw : w.toNat % 256 ∈ l)
    (hl : ∀ o ∈ l, (rowOf (BitVec.ofNat 8 o)).map OpRow.fmt = some f) :
    decode w = .error .mustBeZero ↔ ¬ w &&& formatMask f = (opField w).setWidth 32 := by
  obtain ⟨r, hr, rfl⟩ := Option.map_eq_some_iff.mp (opField_eq_ofNat w ▸ hl _ hw)
  exact decode_mustBeZero_iff hr

/-- Settles O6: the mask check of each format, and the format of each opcode. -/
theorem mustBeZeroBits : Obligations.MustBeZeroBits := by
  refine fun w => ⟨fun h => ?_, fun h => ?_, fun h => ?_, fun h => ?_⟩
  · rw [decode_mustBeZero_of_format h (f := .n) (by decide), mask_n_iff]
  · rw [decode_mustBeZero_of_format h (f := .s) (by decide), mask_s_iff]
  · rw [decode_mustBeZero_of_format h (f := .imm) (by decide), mask_imm_iff]
  · rw [decode_mustBeZero_of_format h (f := .addr) (by decide), mask_addr_iff, not_and_or]

end Sys2Proof
end

section
/-! SUPPORT. What a rejection leaves (30_encoding.md R90): of a word the decoder refuses, and of an instruction `exec`
refuses. -/

namespace Sys2Proof.Machine

/-! ## Words that do not decode -/

/-- Settles O10, by the equation of such a step. -/
theorem undecodableWordRejected : Obligations.UndecodableWordRejected :=
  fun _ _ _ _ _ _ h hx hd => step_undecodable h hx hd

/-- R89: the reserved opcodes. -/
abbrev ReservedOpcode (o : Nat) : Prop :=
  o = 0x00 ∨ (0x04 ≤ o ∧ o ≤ 0x0F) ∨ (0x12 ≤ o ∧ o ≤ 0x1F) ∨ (0x22 ≤ o ∧ o ≤ 0x2F) ∨ (0x33 ≤ o ∧ o ≤ 0x3F) ∨
    (0x41 ≤ o ∧ o ≤ 0x4F) ∨ (0x55 ≤ o ∧ o ≤ 0x5F) ∨ (0x64 ≤ o ∧ o ≤ 0xFF)

theorem opcodeMap_not_reserved : ∀ r ∈ opcodeMap, ¬ ReservedOpcode r.op.toNat := by decide

theorem decode_of_reservedOpcode {w : Word} (h : ReservedOpcode (w.toNat % 256)) :
    decode w = .error .reservedOpcode := by
  refine decode_reserved (rowOf_none fun r hr hop => opcodeMap_not_reserved r hr ?_)
  rwa [hop, toNat_opField]

/-- Settles O5: no row of the opcode map has a reserved opcode. -/
theorem reservedOpcodesRejected : Obligations.ReservedOpcodesRejected := by
  intro s x k w rest hh hx ho
  have hd := decode_of_reservedOpcode ho
  exact ⟨hd, step_undecodable hh hx hd⟩

/-! ## Selectors -/

/-- R84, R87: the word of a command with a slot selector is some instruction's, well-formed for a slot number. -/
theorem exists_instr_slotWord {op : Byte} (h : op ∈ [0x50#8, 0x51, 0x60, 0x61]) (sel : BitVec 5) :
    ∃ i, encode i = 0#19 ++ sel ++ op ∧ (i.wellFormed = true ↔ sel.toNat < 31) := by
  simp only [List.mem_cons, List.not_mem_nil, or_false] at h
  obtain rfl | rfl | rfl | rfl := h
  · exact ⟨.writeReg sel, cmdWord_sel sel _, decide_eq_true_iff⟩
  · exact ⟨.readReg sel, cmdWord_sel sel _, decide_eq_true_iff⟩
  · exact ⟨.shadowRead sel, cmdWord_sel sel _, decide_eq_true_iff⟩
  · exact ⟨.shadowWrite sel, cmdWord_sel sel _, decide_eq_true_iff⟩

/-- R84, R87: and the word of one with a configuration selector, for a configuration id. -/
theorem exists_instr_cfgWord {op : Byte} (h : op ∈ [0x62#8, 0x63]) (sel : BitVec 5) :
    ∃ i, encode i = 0#19 ++ sel ++ op ∧ (i.wellFormed = true ↔ sel.toNat ≤ 5) := by
  simp only [List.mem_cons, List.not_mem_nil, or_false] at h
  obtain rfl | rfl := h
  · exact ⟨.configRead sel, cmdWord_sel sel _, decide_eq_true_iff⟩
  · exact ⟨.configWrite sel, cmdWord_sel sel _, decide_eq_true_iff⟩

/-- Settles O7: such a word is an instruction's, and only the instruction's selector decides whether it decodes. -/
theorem selectorRanges : Obligations.SelectorRanges := by
  intro s x k rest sel op w hh hx
  constructor
  · rintro (⟨hop, hsel⟩ | ⟨hop, hsel⟩)
    · obtain ⟨i, hi, hwf⟩ := exists_instr_slotWord hop sel
      exact ⟨i, decode_of_encode_eq (hwf.mpr hsel) hi, hwf.mpr hsel⟩
    · obtain ⟨i, hi, hwf⟩ := exists_instr_cfgWord hop sel
      exact ⟨i, decode_of_encode_eq (hwf.mpr hsel) hi, hwf.mpr hsel⟩
  · intro h
    have hd : decode w = .error .selectorRange := by
      obtain ⟨hop, hsel⟩ | ⟨hop, hsel⟩ := h
      · obtain ⟨i, hi, hwf⟩ := exists_instr_slotWord hop sel
        exact decode_error_of_encode_eq (hsel ∘ hwf.mp) hi
      · obtain ⟨i, hi, hwf⟩ := exists_instr_cfgWord hop sel
        exact decode_error_of_encode_eq (hsel ∘ hwf.mp) hi
    exact ⟨hd, step_undecodable hh hx hd⟩

/-! ## Instructions with a selector out of range -/

section
variable {s : State} {x : Instance} {sel : BitVec 5}

theorem withSlot_out_of_range (hx : Issues s x) (hs : ¬ sel.toNat < Config.nslot) (k : Slot → Out) :
    s.withSlot sel k = .next (s.withMe { x with cmdstat := 0x01 }) := by
  simp only [State.withSlot, withInst_of hx, slotOfSel, dif_neg hs, rejectIllegal_eq hx]

/-- R34, R87: no scalar has an id above 5. -/
theorem cfgIdOfSel_eq_none : ∀ {sel : BitVec 5}, ¬ sel.toNat ≤ 5 → cfgIdOfSel sel = none := by decide

theorem withCfgId_out_of_range (hx : Issues s x) (hs : ¬ sel.toNat ≤ 5) (k : CfgId → Out) :
    s.withCfgId sel k = .next (s.withMe { x with cmdstat := 0x01 }) := by
  simp only [State.withCfgId, withInst_of hx, cfgIdOfSel_eq_none hs, rejectIllegal_eq hx]

end

/-- Settles O48: only a command with a selector is ill-formed, and its selector is checked first. -/
theorem illFormedRejected : Obligations.IllFormedRejected := by
  intro s x i hx hi
  cases i with
  | writeReg sel | readReg sel | shadowRead sel | shadowWrite sel =>
    exact withSlot_out_of_range hx (of_decide_eq_false hi) _
  | configRead sel | configWrite sel => exact withCfgId_out_of_range hx (of_decide_eq_false hi) _
  | _ => cases hi

/-! ## Completed or rejected -/

/-- R43, R44, R90. -/
theorem Effect.completed_or_rejected {s t : State} {x : Instance} {i : Instr} (hx : Issues s x) (h : Effect s x i t) :
    (∃ y, Issues t y ∧ y.cmdstat = 0x00) ∨ t = s.withMe { x with cmdstat := 0x01 } := by
  cases h with
  | rejected => exact .inr rfl
  | defaults | installed | silent => exact .inl ⟨_, withMe_issues hx _, rfl⟩
  | transacted _ _ ht => exact .inl ⟨_, ht.issues hx, rfl⟩
  | initialised ht =>
    obtain ⟨y, hy, hrows, hdone⟩ := ht
    exact .inl ⟨y, hy.issues hx, hdone (rowsLeft_eq_zero (Nat.le_zero.mp hrows))⟩

/-- Settles O15, by the effects of a command. -/
theorem completedOrOnlyCmdstat : Obligations.CompletedOrOnlyCmdstat := by
  intro s t i h
  obtain ⟨x, hx, he⟩ := exec_effect h
  exact ⟨x, hx, he.completed_or_rejected hx⟩

end Sys2Proof.Machine
end

section
/-! SUPPORT. The words of the assembly language (30_encoding.md R94): each is built by shifts, and is the encoder's word or
the argument word with the operands as its fields. -/

namespace Sys2Proof.Machine

/-- A shift and an OR put `y` below `x`. -/
theorem shiftLeft_or_eq_append {m n : Nat} (x : BitVec m) (y : BitVec n) :
    x.setWidth 32 <<< n ||| y.setWidth 32 = (x ++ y).setWidth 32 := by
  apply BitVec.eq_of_getLsbD_eq
  intro i hi
  simp only [BitVec.getLsbD_or, BitVec.getLsbD_shiftLeft, BitVec.getLsbD_setWidth, BitVec.getLsbD_append]
  by_cases hn : i < n
  · simp [hi, hn]
  · simp [hi, hn, show i - n < 32 by omega, BitVec.getLsbD_of_ge y i (by omega)]

/-- R94: the mnemonics with a selector. -/
theorem asmWord_sel (sel : BitVec 5) (op : Byte) : asmWord sel.toNat 8 op.toNat = cmdWord 0 sel op := by
  rw [asmWord, BitVec.ofNat_toNat, BitVec.ofNat_toNat, shiftLeft_or_eq_append, cmdWord_sel,
    BitVec.setWidth_eq_append (by decide)]
  exact (BitVec.append_assoc ..).symm

/-- R94: the mnemonics with an immediate. -/
theorem asmWord_imm (n : Half) (op : Byte) : asmWord n.toNat 16 op.toNat = cmdWord n 0 op := by
  have hlow : op.setWidth 16 = 0#8 ++ op := BitVec.setWidth_eq_append (by decide)
  have hop : op.setWidth 32 = (op.setWidth 16).setWidth 32 := by simp
  rw [asmWord, BitVec.ofNat_toNat, BitVec.ofNat_toNat, hop, hlow, shiftLeft_or_eq_append, cmdWord_imm]
  exact BitVec.setWidth_eq _

/-- R94: the mnemonics with an address. -/
theorem asmWord_addr (a op : Byte) : asmWord a.toNat 16 op.toNat = cmdWord (a.setWidth 16) 0 op := by
  rw [← asmWord_imm, BitVec.toNat_setWidth_of_le (by decide)]

/-- R94: SET_CURRENT's `ARG0`. -/
theorem asmCurrentArg0_eq (pct : Byte) (mA : Half) :
    pct.setWidth 32 <<< 16 ||| mA.setWidth 32 = 0#8 ++ pct ++ mA := by
  rw [shiftLeft_or_eq_append, BitVec.setWidth_eq_append (by decide)]
  exact (BitVec.append_assoc ..).symm

/-- The mask of R94 is a modulus. -/
theorem ofInt_and_mask (off : Int) : BitVec.ofInt 32 off &&& 0xFF = (BitVec.ofInt 8 off).setWidth 32 := by
  apply BitVec.eq_of_toNat_eq
  simp only [BitVec.toNat_and, BitVec.toNat_setWidth, BitVec.toNat_ofInt]
  have hmask := Nat.and_two_pow_sub_one_eq_mod (off % (2 ^ 32 : Nat)).toNat 8
  exact hmask.trans (by omega)

/-- R94: SET_COT_CHOPPER's `ARG0`. -/
theorem asmChopperArg0_eq (toff tbl fd : Byte) (off : Int) :
    asmChopperArg0 toff tbl fd off = BitVec.ofInt 8 off ++ fd ++ tbl ++ toff := by
  have nested (a b c d : Word) :
      a <<< 24 ||| b <<< 16 ||| c <<< 8 ||| d = ((a <<< 8 ||| b) <<< 8 ||| c) <<< 8 ||| d := by
    simp only [BitVec.shiftLeft_or_distrib, ← BitVec.shiftLeft_add]
  rw [asmChopperArg0, ofInt_and_mask, nested, shiftLeft_or_eq_append, shiftLeft_or_eq_append, shiftLeft_or_eq_append]
  exact BitVec.setWidth_eq _

/-- Settles O8: the lines without a word operand as R94 writes them out, the others by the equations of their words. -/
theorem assemblerMatchesEncoder : Obligations.AssemblerMatchesEncoder := by
  intro k n mA pct toff tbl fd a off v w cc sel line
  have imm (op : Byte) : [HostWrite.cmd k (asmWord n.toNat 16 op.toNat)] = [.cmd k (cmdWord n 0 op)] := by
    rw [asmWord_imm]
  have addr (op : Byte) : [HostWrite.cmd k (asmWord a.toNat 16 op.toNat)] =
      [.cmd k (cmdWord (a.setWidth 16) 0 op)] := by
    rw [asmWord_addr]
  have slot (op : Byte) : [HostWrite.cmd k (asmWord sel.toNat 8 op.toNat)] = [.cmd k (cmdWord 0 sel op)] := by
    rw [asmWord_sel]
  refine ⟨rfl, rfl, rfl, rfl, rfl, rfl, ?_, rfl, imm 0x20, imm 0x21, rfl, rfl, rfl, ?_, slot 0x50, slot 0x51,
    congrArg _ (addr 0x52), addr 0x53, addr 0x54, slot 0x60, congrArg _ (slot 0x61), slot 0x62, congrArg _ (slot 0x63)⟩
  · exact congrArg (fun u => [HostWrite.arg0 k u, .cmd k 0x10]) (asmCurrentArg0_eq pct mA)
  · exact congrArg (fun u => [HostWrite.arg0 k u, .arg1 k cc, .cmd k 0x40]) (asmChopperArg0_eq toff tbl fd off)

end Sys2Proof.Machine
end

section
/-! SUPPORT. The FSM of HW_INIT run phase by phase (40_init.md R121): each phase does what the straight-line form of R120
does there. -/

namespace Sys2Proof.Machine

/-- R122. -/
theorem chipAbsent_iff (v : Word) : chipAbsent v = true ↔ v = 0x00000000 ∨ v = 0xFFFFFFFF := by
  simp [chipAbsent]

/-! ## The phases of the straight-line form -/

/-- The slots `l` of the register file `f` sent in order. -/
def State.sendSlots (s : State) (f : RegFile) (l : List Slot) : State := l.foldl (fun s i => s.sendSlot f i) s

/-- R128: the registers of the first pass of writes. -/
def initSlots : List Slot :=
  [slotGconf, slotChopconf, slotCoolconf, slotPwmconf, slotIholdIrun, slotTpowerdown, slotTpwmthrs]

/-- R125: CHOPCONF saved, read back and compared. -/
def State.initVerify (s : State) (f : RegFile) : State :=
  let s := s.setSaved (f.value slotChopconf)
  ((s.fetchSlot f slotChopconf).complete
    (flagWord (s.readValue (f.addr slotChopconf) == f.value slotChopconf))).goto .idle

/-- R124: the current scale recomputed and sent. -/
def State.initScale (s : State) (f : RegFile) : State :=
  (s.setFile f.recomputeScale).sendSlots f.recomputeScale [slotChopconf, slotIholdIrun]

/-- R121 RD_GSTAT, SET_MRES: the register file once GSTAT has read `v` and mres is recomputed. -/
def RegFile.afterGstat (f : RegFile) (v : Word) : RegFile := (f.setValue slotGstat v).recomputeMres

/-- R123: GSTAT read, mres recomputed, the registers of `initSlots` sent. -/
def State.initSend (s : State) (f : RegFile) : State :=
  let g := f.afterGstat (s.readValue (f.addr slotGstat))
  ((s.fetchSlot f slotGstat).setFile g).sendSlots g initSlots

/-- What HW_INIT does once the chip has been found present: the phases in order, on the register files they leave. -/
def State.initPresent (s : State) (f : RegFile) : State :=
  let g := f.afterGstat (s.readValue (f.addr slotGstat))
  ((s.initSend f).initScale g).initVerify g.recomputeScale

section
variable {s : State} {x : Instance} {f : RegFile}

theorem hwInitStraight_offline (hio : s.ioInstalled = false) : hwInitStraight s f = (s.complete 0).goto .idle :=
  if_pos hio

theorem hwInitStraight_absent (hio : s.ioInstalled = true)
    (ha : s.readValue (f.addr slotDrvStatus) = 0x00000000 ∨ s.readValue (f.addr slotDrvStatus) = 0xFFFFFFFF) :
    hwInitStraight s f = ((s.fetchSlot f slotDrvStatus).complete 0).goto .idle :=
  (if_neg (by simp [hio])).trans (if_pos ha)

theorem hwInitStraight_present (hio : s.ioInstalled = true)
    (ha : ¬ (s.readValue (f.addr slotDrvStatus) = 0x00000000 ∨ s.readValue (f.addr slotDrvStatus) = 0xFFFFFFFF)) :
    hwInitStraight s f =
      (s.fetchSlot f slotDrvStatus).initPresent (f.setValue slotDrvStatus (s.readValue (f.addr slotDrvStatus))) :=
  (if_neg (by simp [hio])).trans (if_neg ha)

/-! ## Rows run by their updates -/

/-- A row that applies `u`, which does not look at `INIT_STATE`, and goes to `d`. -/
theorem run_update (h : Loaded s x f) {c d : InitState} {u : State → State} (hc : c ≠ .idle)
    (hr : (s.goto c).initRow f c = (u (s.goto c)).goto d) (hu : u (s.goto c) = (u s).goto c)
    (hi : ∃ y, Issues (u s) y) (k : Nat) : State.initRun (k + 1) (s.goto c) = State.initRun k ((u s).goto d) := by
  obtain ⟨y, hy⟩ := hi
  rw [run_row h hc, hr, hu, goto_goto hy]

theorem run_branch (h : Loaded s x f) {c d : InitState} (hc : c ≠ .idle)
    (hr : (s.goto c).initRow f c = (s.goto c).goto d) (k : Nat) :
    State.initRun (k + 1) (s.goto c) = State.initRun k (s.goto d) :=
  run_update (u := id) h hc hr rfl ⟨x, h.1⟩ k

theorem run_fetch (h : Loaded s x f) {c d : InitState} {i : Slot} (hc : c ≠ .idle)
    (hr : ∀ s : State, s.initRow f c = (s.fetchSlot f i).goto d) (k : Nat) :
    State.initRun (k + 1) (s.goto c) = State.initRun k ((s.fetchSlot f i).goto d) :=
  run_update (u := (·.fetchSlot f i)) h hc (hr _) (goto_fetch h.1 ..) ((loaded_fetch h f i).imp fun _ h => h.1.1) k

theorem run_setFile (h : Loaded s x f) {c d : InitState} {g : RegFile} (hc : c ≠ .idle)
    (hr : ∀ s : State, s.initRow f c = (s.setFile g).goto d) (k : Nat) :
    State.initRun (k + 1) (s.goto c) = State.initRun k ((s.setFile g).goto d) :=
  run_update (u := (·.setFile g)) h hc (hr _) (goto_setFile h.1 ..) ((loaded_setFile h g).imp fun _ h => h.1) k

/-- DONE_OK and DONE_FAIL end the run. -/
theorem run_done (h : Loaded s x f) {c : InitState} {r : Word} (hc : c ≠ .idle)
    (hr : ∀ s : State, s.initRow f c = (s.complete r).goto .idle) (k : Nat) :
    State.initRun (k + 1) (s.goto c) = (s.complete r).goto .idle := by
  have hi : Issues (s.complete r) (x.completed r) := complete_eq h.1 r ▸ withMe_issues h.1 _
  rw [run_update (u := (·.complete r)) h hc (hr _) (goto_complete h.1 ..) ⟨_, hi⟩, run_idle hi]

/-! ## Rows that send -/

/-- The rows from `c` to `d` send the slots `l` of the register file `f`, one each. -/
inductive SendRows (f : RegFile) : InitState → List Slot → InitState → Prop
  | nil {c : InitState} : SendRows f c [] c
  | cons {c c' d : InitState} {i : Slot} {l : List Slot} (hc : c ≠ .idle)
      (hr : ∀ s : State, s.initRow f c = (s.sendSlot f i).goto c') (hl : SendRows f c' l d) : SendRows f c (i :: l) d

theorem run_sends (h : Loaded s x f) {c d : InitState} {l : List Slot} (hl : SendRows f c l d) (k : Nat) :
    State.initRun (k + l.length) (s.goto c) = State.initRun k ((s.sendSlots f l).goto d) := by
  induction hl generalizing s x with
  | nil => rfl
  | cons hc hr _ ih =>
    obtain ⟨y, hy, -⟩ := loaded_send h f _
    exact (run_send h hc hr _).trans (ih hy)

theorem loaded_sends (h : Loaded s x f) (g : RegFile) (l : List Slot) : ∃ y, Loaded (s.sendSlots g l) y f := by
  induction l generalizing s x with
  | nil => exact ⟨x, h⟩
  | cons i l ih =>
    obtain ⟨y, hy, -⟩ := loaded_send h g i
    exact ih hy

theorem sendRows_initSlots (f : RegFile) : SendRows f .wrGconf initSlots .scCompute :=
  .cons (by decide) (fun _ => rfl) <| .cons (by decide) (fun _ => rfl) <| .cons (by decide) (fun _ => rfl) <|
  .cons (by decide) (fun _ => rfl) <| .cons (by decide) (fun _ => rfl) <| .cons (by decide) (fun _ => rfl) <|
  .cons (by decide) (fun _ => rfl) .nil

theorem sendRows_scale (f : RegFile) : SendRows f .scWrChopconf [slotChopconf, slotIholdIrun] .vfRead :=
  .cons (by decide) (fun _ => rfl) <| .cons (by decide) (fun _ => rfl) .nil

/-! ## The phases of the FSM -/

theorem loaded_initSend (h : Loaded s x f) :
    ∃ y, Loaded (s.initSend f) y (f.afterGstat (s.readValue (f.addr slotGstat))) := by
  obtain ⟨y, hy, -⟩ := loaded_fetch h f slotGstat
  obtain ⟨z, hz⟩ := loaded_setFile hy (f.afterGstat (s.readValue (f.addr slotGstat)))
  exact loaded_sends hz _ _

theorem loaded_initScale (h : Loaded s x f) : ∃ y, Loaded (s.initScale f) y f.recomputeScale := by
  obtain ⟨y, hy⟩ := loaded_setFile h f.recomputeScale
  exact loaded_sends hy _ _

/-- R121, RD_GSTAT to WR_TPWMTHRS. -/
theorem run_initSend (h : Loaded s x f) (k : Nat) :
    State.initRun (k + 9) (s.goto .rdGstat) = State.initRun k ((s.initSend f).goto .scCompute) := by
  obtain ⟨y, hy, -⟩ := loaded_fetch h f slotGstat
  obtain ⟨z, hz⟩ := loaded_setFile hy (f.afterGstat (s.readValue (f.addr slotGstat)))
  calc State.initRun (k + 9) (s.goto .rdGstat)
    _ = State.initRun (k + 8) ((s.fetchSlot f slotGstat).goto .setMres) := run_fetch h (by decide) (fun _ => rfl) _
    _ = State.initRun (k + 7) (((s.fetchSlot f slotGstat).setFile _).goto .wrGconf) :=
      run_setFile hy (by decide) (fun _ => rfl) _
    _ = State.initRun k ((s.initSend f).goto .scCompute) := run_sends hz (sendRows_initSlots _) k

/-- R121, SC_COMPUTE to SC_WR_IHOLD_IRUN. -/
theorem run_initScale (h : Loaded s x f) (k : Nat) :
    State.initRun (k + 3) (s.goto .scCompute) = State.initRun k ((s.initScale f).goto .vfRead) := by
  obtain ⟨y, hy⟩ := loaded_setFile h f.recomputeScale
  calc State.initRun (k + 3) (s.goto .scCompute)
    _ = State.initRun (k + 2) ((s.setFile f.recomputeScale).goto .scWrChopconf) :=
      run_setFile h (by decide) (fun _ => rfl) _
    _ = State.initRun k ((s.initScale f).goto .vfRead) := run_sends hy (sendRows_scale _) k

/-- R121, VF_READ to IDLE. -/
theorem run_initVerify (h : Loaded s x f) (k : Nat) :
    State.initRun (k + 3) (s.goto .vfRead) = s.initVerify f := by
  obtain ⟨y, hy, hsaved⟩ := loaded_setSaved h (f.value slotChopconf)
  obtain ⟨z, hz, hzsaved⟩ := loaded_fetch hy f slotChopconf
  have hread : State.initRun (k + 3) (s.goto .vfRead) = State.initRun (k + 2)
      (((s.setSaved (f.value slotChopconf)).fetchSlot f slotChopconf).goto .vfCompare) := by
    refine run_update (u := fun s => (s.setSaved (f.value slotChopconf)).fetchSlot f slotChopconf) h (by decide) rfl
      ?_ ⟨z, hz.1⟩ _
    simp only [goto_setSaved h.1, goto_fetch hy.1]
  have hme := (goto_issues hz.1 .vfCompare).me_eq
  rw [hread, State.initVerify]
  by_cases hv : (s.setSaved (f.value slotChopconf)).readValue (f.addr slotChopconf) = f.value slotChopconf
  · rw [run_branch (d := .doneOk) hz (by decide) (by simp [State.initRow, hme, hzsaved, hsaved, hv]),
      run_done hz (by decide) fun _ => rfl]
    simp [flagWord, hv]
  · rw [run_branch (d := .doneFail) hz (by decide) (by simp [State.initRow, hme, hzsaved, hsaved, hv]),
      run_done hz (by decide) fun _ => rfl]
    simp [flagWord, hv]

theorem run_initPresent (h : Loaded s x f) (k : Nat) :
    State.initRun (k + 15) (s.goto .rdGstat) = s.initPresent f := by
  obtain ⟨y, hy⟩ := loaded_initSend h
  obtain ⟨z, hz⟩ := loaded_initScale hy
  exact (run_initSend h _).trans ((run_initScale hy _).trans (run_initVerify hz k))

/-- The FSM run from CHK_IO, by the two tests it may fail first. -/
theorem run_chkIo (h : Loaded s x f) (k : Nat) : State.initRun (k + 18) (s.goto .chkIo) = hwInitStraight s f := by
  by_cases hio : s.ioInstalled = true
  · obtain ⟨y, hy, -⟩ := loaded_fetch h f slotDrvStatus
    rw [run_branch (d := .rdDrvStatus) h (by decide) (by simp [State.initRow, hio]),
      run_fetch h (by decide) fun _ => rfl]
    by_cases ha : s.readValue (f.addr slotDrvStatus) = 0x00000000 ∨ s.readValue (f.addr slotDrvStatus) = 0xFFFFFFFF
    · rw [run_branch (d := .doneFail) hy (by decide) (by simp [State.initRow, (chipAbsent_iff _).mpr ha]),
        run_done hy (by decide) fun _ => rfl, hwInitStraight_absent hio ha]
    · rw [run_branch (d := .rdGstat) hy (by decide) (by simp [State.initRow, mt (chipAbsent_iff _).mp ha]),
        run_initPresent hy, hwInitStraight_present hio ha]
  · rw [run_branch (d := .doneFail) h (by decide) (by simp [State.initRow, hio]),
      run_done h (by decide) fun _ => rfl, hwInitStraight_offline (by simpa using hio)]

theorem exec_hwInit (h : Loaded s x f) : exec .hwInit s = .next (hwInitStraight s f) :=
  (withFile_of h _).trans (congrArg _ (run_chkIo h 1))

end

/-- Settles O19, phase by phase of the FSM. -/
theorem hwInitFsmIsStraightLine : Obligations.HwInitFsmIsStraightLine := fun _ _ _ => exec_hwInit

end Sys2Proof.Machine
end

section
/-! SUPPORT. What HW_INIT leaves (40_init.md R120 to R128), read off its straight-line form on each of its three paths. -/

namespace Sys2Proof.Machine

/-! ## What stays of a register file -/

section
variable {f g : RegFile} {l : List Nat}

theorem RegFile.SameBut.refl (f : RegFile) (l : List Nat) : f.SameBut f l := ⟨rfl, fun _ => rfl, fun _ _ => rfl⟩

theorem RegFile.SameBut.cfg_eq (h : f.SameBut g l) : g.cfg = f.cfg := h.1

theorem RegFile.SameBut.addr_eq (h : f.SameBut g l) (i : Slot) : g.addr i = f.addr i := h.2.1 i

theorem RegFile.SameBut.value_eq (h : f.SameBut g l) {i : Slot} (hi : i.val ∉ l) : g.value i = f.value i := h.2.2 i hi

theorem RegFile.SameBut.setValue (h : f.SameBut g l) {i : Slot} (hi : i.val ∈ l) (v : Word) :
    f.SameBut (g.setValue i v) l := by
  obtain ⟨hcfg, haddr, hval⟩ := h
  refine ⟨hcfg, fun j => (RegFile.addr_setValue ..).trans (haddr j), fun j hj => ?_⟩
  have hij : i ≠ j := by
    rintro rfl
    exact hj hi
  rw [RegFile.value_setValue_ne _ _ hij, hval j hj]

theorem RegFile.SameBut.setField (h : f.SameBut g l) {i : Slot} (hi : i.val ∈ l) (b : BitField) (v : Nat) :
    f.SameBut (g.setField i b v) l := h.setValue hi _

theorem RegFile.SameBut.applyScale (h : f.SameBut g l) (h3 : 3 ∈ l) (h12 : 12 ∈ l) (c : Scale) :
    f.SameBut (g.applyScale c) l := ((h.setField h12 ..).setField h3 ..).setField h3 ..

end

/-! ## The recomputed fields -/

section
variable (f : RegFile) (c : Scale)

theorem applyScale_chopconf :
    (f.applyScale c).value slotChopconf = putField chopVsense (f.value slotChopconf) c.vsense := by
  have hne : slotIholdIrun ≠ slotChopconf := by decide
  rw [RegFile.applyScale, RegFile.value_setField_ne _ _ _ hne, RegFile.value_setField_ne _ _ _ hne,
    RegFile.value_setField_self]

theorem applyScale_iholdIrun :
    (f.applyScale c).value slotIholdIrun = putField ihIhold (putField ihIrun (f.value slotIholdIrun) c.irun) c.ihold := by
  rw [RegFile.applyScale, RegFile.value_setField_self, RegFile.value_setField_self,
    RegFile.value_setField_ne _ _ _ (by decide)]

end

section
variable (f : RegFile) (v : Word)

theorem afterGstat_sameBut : f.SameBut (f.afterGstat v) [1, 12] :=
  ((RegFile.SameBut.refl f _).setValue (by decide) v).setField (by decide) ..

theorem afterGstat_chopconf :
    (f.afterGstat v).value slotChopconf = putField chopMres (f.value slotChopconf) (toMres f.cfg.microsteps.toNat) := by
  rw [RegFile.afterGstat, RegFile.recomputeMres, RegFile.value_setField_self, RegFile.value_setValue_ne _ _ (by decide),
    RegFile.setValue_cfg]

theorem recomputeScale_sameBut : f.SameBut f.recomputeScale [3, 12] :=
  (RegFile.SameBut.refl f _).applyScale (by decide) (by decide) _

end

/-- The register file HW_INIT first sends when the chip is present, where DRV_STATUS and GSTAT read `d` and `g`. -/
def RegFile.present (f : RegFile) (d g : Word) : RegFile := (f.setValue slotDrvStatus d).afterGstat g

/-- The register file HW_INIT then leaves, where the verify reads `v`. -/
def RegFile.initialised (f : RegFile) (d g v : Word) : RegFile :=
  (f.present d g).recomputeScale.setValue slotChopconf v

section
variable (f : RegFile) (d g v : Word)

theorem present_sameBut : f.SameBut (f.present d g) [1, 12, 15] :=
  (((RegFile.SameBut.refl f _).setValue (by decide) d).setValue (by decide) g).setField (by decide) ..

theorem present_drvStatus : (f.present d g).value slotDrvStatus = d := by
  rw [RegFile.present, (afterGstat_sameBut _ _).value_eq (by decide), RegFile.value_setValue_self]

theorem present_gstat : (f.present d g).value slotGstat = g := by
  rw [RegFile.present, RegFile.afterGstat, RegFile.recomputeMres, RegFile.value_setField_ne _ _ _ (by decide),
    RegFile.value_setValue_self]

theorem present_chopconf :
    (f.present d g).value slotChopconf = putField chopMres (f.value slotChopconf) (toMres f.cfg.microsteps.toNat) := by
  rw [RegFile.present, afterGstat_chopconf, RegFile.value_setValue_ne _ _ (by decide), RegFile.setValue_cfg]

theorem initialised_sameBut : f.SameBut (f.initialised d g v) [1, 3, 12, 15] :=
  (((((RegFile.SameBut.refl f _).setValue (by decide) d).setValue (by decide) g).setField (by decide) ..).applyScale
    (by decide) (by decide) _).setValue (by decide) v

theorem initialised_drvStatus : (f.initialised d g v).value slotDrvStatus = d := by
  rw [RegFile.initialised, RegFile.value_setValue_ne _ _ (by decide), (recomputeScale_sameBut _).value_eq (by decide),
    present_drvStatus]

theorem initialised_gstat : (f.initialised d g v).value slotGstat = g := by
  rw [RegFile.initialised, RegFile.value_setValue_ne _ _ (by decide), (recomputeScale_sameBut _).value_eq (by decide),
    present_gstat]

theorem initialised_chopconf : (f.initialised d g v).value slotChopconf = v := RegFile.value_setValue_self ..

/-- R124, R126: the current fields hold the scale of the configuration. -/
theorem present_scale_chopconf :
    (f.present d g).recomputeScale.value slotChopconf =
      putField chopVsense (putField chopMres (f.value slotChopconf) (toMres f.cfg.microsteps.toNat))
        (currentScale f.cfg.rSense.toNat f.cfg.current.toNat f.cfg.holdPct.toNat).vsense := by
  rw [RegFile.recomputeScale, applyScale_chopconf, present_chopconf, (present_sameBut f d g).cfg_eq]

theorem present_scale_iholdIrun :
    (f.present d g).recomputeScale.value slotIholdIrun =
      putField ihIhold (putField ihIrun (f.value slotIholdIrun)
        (currentScale f.cfg.rSense.toNat f.cfg.current.toNat f.cfg.holdPct.toNat).irun)
        (currentScale f.cfg.rSense.toNat f.cfg.current.toNat f.cfg.holdPct.toNat).ihold := by
  rw [RegFile.recomputeScale, applyScale_iholdIrun, (present_sameBut f d g).value_eq (by decide),
    (present_sameBut f d g).cfg_eq]

theorem initialised_iholdIrun :
    (f.initialised d g v).value slotIholdIrun = (f.present d g).recomputeScale.value slotIholdIrun :=
  RegFile.value_setValue_ne _ _ (by decide)

end

/-! ## Traffic -/

/-- The events of the issuer `k` sending the slots `l` of the register file `f`, answered with the statuses `st`. -/
def sentEvents (k : Nat) (f : RegFile) (l : List Slot) (st : Slot → Byte) : List BusEvent :=
  l.map fun i => ⟨k, .W, f.addr i, f.value i, st i⟩

theorem sentEvents_cons_update (k : Nat) (f : RegFile) {i : Slot} {l : List Slot} (hi : i ∉ l) (st : Slot → Byte)
    (b : Byte) : sentEvents k f (i :: l) (Function.update st i b) =
      ⟨k, .W, f.addr i, f.value i, b⟩ :: sentEvents k f l st := by
  have hne : ∀ j ∈ l, j ≠ i := fun j hj h => hi (h ▸ hj)
  rw [sentEvents, List.map_cons, Function.update_self]
  exact congrArg _ (List.map_congr_left fun j hj => by rw [Function.update_of_ne (hne j hj)])

section
variable {s t : State} {x y : Instance} {evs : List BusEvent}

theorem Reached.sends (hx : Issues s x) (h : Reached s y evs t) (f : RegFile) {l : List Slot} (hl : l.Nodup) :
    ∃ st b, Reached s { y with busstat := b } (evs ++ sentEvents s.cur f l st) (t.sendSlots f l) := by
  induction l generalizing t y evs with
  | nil => exact ⟨fun _ => 0, y.busstat, (List.append_nil evs).symm ▸ h⟩
  | cons i l ih =>
    obtain ⟨hi, hl⟩ := List.nodup_cons.mp hl
    obtain ⟨b, hr⟩ := h.send hx f i
    obtain ⟨st, b', hr'⟩ := ih hr hl
    refine ⟨Function.update st i b, b', ?_⟩
    rw [sentEvents_cons_update _ _ hi, List.append_cons]
    exact hr'

/-- R121 RD_GSTAT to IDLE: what HW_INIT does after the chip has been found present. -/
theorem Reached.initPresent (hx : Issues s x) (h : Reached s y evs t) (f : RegFile) :
    ∃ (g v : Word) (st st' : Slot → Byte) (tg tv : Byte),
      let w := f.afterGstat g
      let w' := w.recomputeScale
      Reached s { y with
          file := some (w'.setValue slotChopconf v), savedChopconf := w'.value slotChopconf, busstat := tv
          initState := .idle, result := flagWord (v == w'.value slotChopconf), cmdstat := 0x00 }
        (evs ++ [⟨s.cur, .R, f.addr slotGstat, g, tg⟩] ++ sentEvents s.cur w initSlots st ++
          sentEvents s.cur w' [slotChopconf, slotIholdIrun] st' ++ [⟨s.cur, .R, w'.addr slotChopconf, v, tv⟩])
        (t.initPresent f) := by
  obtain ⟨tg, hread⟩ := h.fetch hx f slotGstat
  obtain ⟨st, _, hsend⟩ := (hread.setFile hx (f.afterGstat (t.readValue (f.addr slotGstat)))).sends hx _
    (l := initSlots) (by decide)
  obtain ⟨st', _, hscale⟩ := (hsend.setFile hx (RegFile.recomputeScale _)).sends hx (RegFile.recomputeScale _)
    (l := [slotChopconf, slotIholdIrun]) (by decide)
  obtain ⟨tv, hverify⟩ := (hscale.setSaved hx _).fetch hx (RegFile.recomputeScale _) slotChopconf
  exact ⟨_, _, st, st', tg, tv, (hverify.complete hx _).goto hx .idle⟩

/-- R128: the transactions and the state of a HW_INIT that finds the chip present. -/
theorem hwInitStraight_present_reached {f : RegFile} (h : Ready s x f)
    (ha : ¬ (s.readValue (f.addr slotDrvStatus) = 0x00000000 ∨ s.readValue (f.addr slotDrvStatus) = 0xFFFFFFFF)) :
    ∃ (g v : Word) (st st' : Slot → Byte) (td tg tv : Byte),
      let d := s.readValue (f.addr slotDrvStatus)
      let w := f.present d g
      let w' := w.recomputeScale
      Reached s { x with
          file := some (f.initialised d g v), savedChopconf := w'.value slotChopconf, busstat := tv
          initState := .idle, result := flagWord (v == w'.value slotChopconf), cmdstat := 0x00 }
        ([⟨s.cur, .R, f.addr slotDrvStatus, d, td⟩, ⟨s.cur, .R, f.addr slotGstat, g, tg⟩] ++
          sentEvents s.cur w initSlots st ++ sentEvents s.cur w' [slotChopconf, slotIholdIrun] st' ++
          [⟨s.cur, .R, w'.addr slotChopconf, v, tv⟩])
        (hwInitStraight s f) := by
  obtain ⟨⟨hx, -⟩, hio⟩ := h
  obtain ⟨td, hr⟩ := (Reached.refl hx).fetch hx f slotDrvStatus
  obtain ⟨g, v, st, st', tg, tv, hr⟩ := hr.initPresent hx (f.setValue slotDrvStatus (s.readValue (f.addr slotDrvStatus)))
  refine ⟨g, v, st, st', td, tg, tv, ?_⟩
  rw [RegFile.addr_setValue] at hr
  exact hwInitStraight_present hio ha ▸ hr

end

/-! ## The three paths -/

/-- R11: a comparison as a word. -/
theorem flagWord_beq (v w : Word) : flagWord (v == w) = if v = w then 1 else 0 := by
  simp only [flagWord, beq_iff_eq]

/-- Settles O20, on the first two paths of the straight-line form. -/
theorem hwInitEarlyExits : Obligations.HwInitEarlyExits := by
  intro s x f h a
  have hx : Issues s x := h.1
  refine ⟨fun hio => ?_, fun hio ha => ⟨s.chip.after ⟨s.cur, .R, a, 0⟩, ?_⟩⟩
  · rw [exec_hwInit h, hwInitStraight_offline hio, complete_eq hx, goto_eq (withMe_issues hx _), withMe_withMe]
    rfl
  · rw [exec_hwInit h, hwInitStraight_absent hio ha, fetchSlot_eq hx, complete_eq (reached_issues hx ..),
      withTraffic_withMe, withMe_withMe, goto_eq (reached_issues hx ..), withTraffic_withMe, withMe_withMe]
    rfl

/-- Settles O21, from the traffic of the third path, with the addresses of the tags and the values of the slots sent. -/
theorem hwInitChipPresent : Obligations.HwInitChipPresent := by
  intro s x f h haddr h0 h1
  have hd : f.addr slotDrvStatus = 0x6F := haddr _
  have ha := not_or.mpr ⟨h0, h1⟩
  rw [← hd] at ha
  obtain ⟨g, v, st, st', td, tg, tv, c, -, ht⟩ := hwInitStraight_present_reached h ha
  rw [hd] at ht
  refine ⟨g, v, f.initialised (s.readValue 0x6F) g v, c, td, tg, st slotGconf, st slotChopconf, st slotCoolconf,
    st slotPwmconf, st slotIholdIrun, st slotTpowerdown, st slotTpwmthrs, st' slotChopconf, st' slotIholdIrun, tv, ?_,
    initialised_sameBut .., initialised_drvStatus .., initialised_gstat ..,
    (initialised_iholdIrun ..).trans (present_scale_iholdIrun ..), initialised_chopconf ..⟩
  rw [exec_hwInit h.1, ht]
  simp (disch := decide) only [sentEvents, initSlots, List.map_cons, List.map_nil, List.cons_append, List.nil_append,
    flagWord_beq, (recomputeScale_sameBut _).addr_eq, (present_sameBut ..).addr_eq, haddr, present_chopconf,
    (present_sameBut ..).value_eq, present_scale_chopconf, present_scale_iholdIrun]
  rfl

/-- The register files HW_INIT may leave. -/
theorem loaded_hwInitStraight {s : State} {x : Instance} {f : RegFile} (h : Loaded s x f) :
    ∃ y g, Loaded (hwInitStraight s f) y g ∧
      (g = f ∨ (∃ d, g = f.setValue slotDrvStatus d) ∨ ∃ d r v, g = f.initialised d r v) := by
  have hx : Issues s x := h.1
  by_cases hio : s.ioInstalled = true
  · by_cases ha : s.readValue (f.addr slotDrvStatus) = 0x00000000 ∨ s.readValue (f.addr slotDrvStatus) = 0xFFFFFFFF
    · obtain ⟨_, hr⟩ := (Reached.refl hx).fetch hx f slotDrvStatus
      rw [hwInitStraight_absent hio ha]
      exact ⟨_, _, ⟨((hr.complete hx 0).goto hx .idle).issues hx, rfl⟩, .inr (.inl ⟨_, rfl⟩)⟩
    · obtain ⟨_, _, _, _, _, _, _, hr⟩ := hwInitStraight_present_reached ⟨h, hio⟩ ha
      exact ⟨_, _, ⟨hr.issues hx, rfl⟩, .inr (.inr ⟨_, _, _, rfl⟩)⟩
  · rw [hwInitStraight_offline (by simpa using hio)]
    exact ⟨_, _, ⟨(((Reached.refl hx).complete hx 0).goto hx .idle).issues hx, h.2⟩, .inl rfl⟩

/-- R31: writing irun and ihold keeps every field above them. -/
theorem initialised_iholdIrun_field (f : RegFile) (d g v : Word) {b : BitField} (hlo : 13 ≤ b.lo)
    (hhi : b.lo + b.width ≤ 32) :
    (f.initialised d g v).field slotIholdIrun b = f.field slotIholdIrun b := by
  have hirun : ihIrun.lo + ihIrun.width ≤ b.lo := hlo
  have hihold : ihIhold.lo + ihIhold.width ≤ b.lo := Nat.le_trans (by decide) hlo
  rw [RegFile.field, initialised_iholdIrun, present_scale_iholdIrun, getField_putField_disjoint _ _ _ _ hhi (.inr hihold),
    getField_putField_disjoint _ _ _ _ hhi (.inr hirun), RegFile.field]

/-- Settles O55, by the register files HW_INIT may leave. -/
theorem hwInitFrame : Obligations.HwInitFrame := by
  intro s t x f h ht
  obtain rfl : hwInitStraight s f = t := Host.Outcome.next.inj ((exec_hwInit h).symm.trans ht)
  obtain ⟨y, g, hg, rfl | ⟨d, rfl⟩ | ⟨d, r, v, rfl⟩⟩ := loaded_hwInitStraight h
  · exact ⟨y, g, hg, .refl .., fun _ _ _ => rfl⟩
  · refine ⟨y, _, hg, (RegFile.SameBut.refl f _).setValue (by decide) d, fun b _ _ => ?_⟩
    rw [RegFile.field, RegFile.value_setValue_ne _ _ (by decide), RegFile.field]
  · exact ⟨y, _, hg, initialised_sameBut .., fun _ => initialised_iholdIrun_field f d r v⟩

end Sys2Proof.Machine
end

section
/-! SUPPORT. LOAD_DEFAULTS and IF_INIT (40_init.md R110 to R116), and the commands that only report. -/

namespace Sys2Proof.Machine

section
variable {s : State} {x : Instance}

theorem exec_loadDefaults (h : Issues s x) : exec .loadDefaults s =
    .next (s.withMe { x with file := some defaultFile, initState := .idle, result := 0, cmdstat := 0x00 }) := by
  rw [exec, execLoadDefaults, withInst_of h, setFile_eq h, goto_eq (withMe_issues h _), withMe_withMe,
    complete_eq (withMe_issues h _), withMe_withMe]
  rfl

theorem exec_ifInit (h : Issues s x) (hio : s.ioInstalled = false) : exec .ifInit s =
    .next { s with ioInstalled := true, insts := s.insts.set s.cur (x.completed 0) } := by
  have h' : Issues { s with ioInstalled := true } x := h
  rw [exec, execIfInit, withInst_of h, if_neg (by simp [hio]), complete_eq h']
  rfl

theorem exec_ifInit_reinstall (h : Issues s x) (hio : s.ioInstalled = true) :
    exec .ifInit s = .fault (.ioReinstall s.cur x.cmd) := by
  rw [exec, execIfInit, withInst_of h, if_pos hio, raise_eq h]

end

/-- Settles O17; the tables are `defaultFile`'s. -/
theorem loadDefaultsCompletes : Obligations.LoadDefaultsCompletes := fun _ _ h =>
  ⟨defaultFile, exec_loadDefaults h, by decide +kernel, by decide +kernel, rfl⟩

/-- Settles O18, by the two outcomes of the command. -/
theorem ifInitCompletesOnce : Obligations.IfInitCompletesOnce := fun _ _ h =>
  ⟨exec_ifInit h, exec_ifInit_reinstall h⟩

/-! ## The commands that only report -/

/-- The issuer has the same shadow, configuration and hidden registers in `t` as in `s`. -/
def SameShadow (s t : State) : Prop :=
  ∃ x y, Issues s x ∧ Issues t y ∧ y.file = x.file ∧ y.initState = x.initState ∧ y.savedChopconf = x.savedChopconf

section
variable {s t : State} {x : Instance}

theorem SameShadow.refl (h : Issues s x) : SameShadow s s := ⟨x, x, h, h, rfl, rfl, rfl⟩

theorem SameShadow.updMe (h : SameShadow s t) {g : Instance → Instance}
    (hg : ∀ y, (g y).file = y.file ∧ (g y).initState = y.initState ∧ (g y).savedChopconf = y.savedChopconf) :
    SameShadow s (t.updMe g) := by
  obtain ⟨x, y, hx, hy, hf, hi, hs⟩ := h
  obtain ⟨hgf, hgi, hgs⟩ := hg y
  exact ⟨x, g y, hx, updMe_eq hy g ▸ withMe_issues hy _, hgf.trans hf, hgi.trans hi, hgs.trans hs⟩

theorem SameShadow.complete (h : SameShadow s t) (r : Word) : SameShadow s (t.complete r) :=
  h.updMe fun _ => ⟨rfl, rfl, rfl⟩

theorem SameShadow.rejectIllegal (h : SameShadow s t) : SameShadow s t.rejectIllegal :=
  h.updMe fun _ => ⟨rfl, rfl, rfl⟩

theorem SameShadow.afterBus (h : SameShadow s t) (kind : BusKind) (a : Byte) (data v : Word) :
    SameShadow s (t.afterBus kind a data v) := by
  obtain ⟨x, y, hx, hy, hsame⟩ := h
  rw [afterBus_eq hy]
  exact ⟨x, _, hx, reached_issues hy .., hsame⟩

theorem sameShadow_of_withSlot {sel : BitVec 5} {k : Slot → Out} (h : s.withSlot sel k = .next t)
    (hk : ∀ i, k i = .next t → SameShadow s t) : SameShadow s t := by
  obtain ⟨x, hx, rfl | ⟨hs, h⟩⟩ := withSlot_next h
  · exact (SameShadow.refl hx).rejectIllegal
  · exact hk _ h

theorem sameShadow_of_withCfgId {sel : BitVec 5} {k : CfgId → Out} (h : s.withCfgId sel k = .next t)
    (hk : ∀ id, k id = .next t → SameShadow s t) : SameShadow s t := by
  obtain ⟨x, hx, rfl | ⟨id, -, h⟩⟩ := withCfgId_next h
  · exact (SameShadow.refl hx).rejectIllegal
  · exact hk id h

theorem sameShadow_of_withFile {k : RegFile → Out} (h : s.withFile k = .next t)
    (hk : ∀ f, SameShadow s s → k f = .next t → SameShadow s t) : SameShadow s t := by
  obtain ⟨x, f, hl, h⟩ := withFile_next h
  exact hk f (.refl hl.1) h

theorem sameShadow_of_withFileIo {k : RegFile → Out} (h : s.withFileIo k = .next t)
    (hk : ∀ f, SameShadow s s → k f = .next t → SameShadow s t) : SameShadow s t := by
  obtain ⟨x, f, ⟨hl, -⟩, h⟩ := withFileIo_next h
  exact hk f (.refl hl.1) h

end

/-- Settles O52, command by command: each only makes transactions that store nothing, and completes or is rejected. -/
theorem reportingCommandsFrame : Obligations.ReportingCommandsFrame := by
  intro s t i hi h
  show SameShadow s t
  cases i with
  | ifInit =>
    obtain ⟨x, hx, h⟩ := withInst_next h
    split at h
    · cases h
    · cases h
      have hinst : SameShadow s { s with ioInstalled := true } := .refl hx
      exact hinst.complete 0
  | mstepsValid n =>
    obtain ⟨x, hx, h⟩ := withInst_next h
    cases h
    exact (SameShadow.refl hx).complete _
  | getCurrent | getRegPtr =>
    refine sameShadow_of_withFile h fun f hs h => ?_
    cases h
    exact hs.complete _
  | getTpwmthrs =>
    refine sameShadow_of_withFile h fun f hs h => ?_
    obtain ⟨v, -, h⟩ := withConversion_next h
    cases h
    exact hs.complete _
  | writeReg sel =>
    refine sameShadow_of_withSlot h fun i h => sameShadow_of_withFileIo h fun f hs h => ?_
    cases h
    exact (hs.afterBus ..).complete _
  | writeRegX a | readRegX a =>
    refine sameShadow_of_withFileIo h fun f hs h => ?_
    cases h
    exact (hs.afterBus ..).complete _
  | shadowRead sel =>
    refine sameShadow_of_withSlot h fun i h => sameShadow_of_withFile h fun f hs h => ?_
    cases h
    exact hs.complete _
  | configRead sel =>
    refine sameShadow_of_withCfgId h fun id h => sameShadow_of_withFile h fun f hs h => ?_
    cases h
    exact hs.complete _
  | _ => exact absurd hi id

end Sys2Proof.Machine
end

section
/-! SUPPORT. The arithmetic of current scaling (41_current.md R141 to R149): quotients of an exact square root, given by
squares, the scale in natural numbers, and the range CurrentScale chooses. -/

namespace Sys2Proof.Machine

/-! ## Quotients of a square root -/

section
variable {x d q : Nat}

theorem le_isqrt_div (hd : 0 < d) : q ≤ isqrt x / d ↔ (d * q) ^ 2 ≤ x := by
  rw [Nat.le_div_iff_mul_le hd, le_isqrt, sq, Nat.mul_comm q d]

theorem isqrt_div_lt (hd : 0 < d) : isqrt x / d < q ↔ x < (d * q) ^ 2 := by
  rw [← Nat.not_le, le_isqrt_div hd, Nat.not_le]

theorem isqrt_div_bounds (x : Nat) (hd : 0 < d) :
    (d * (isqrt x / d)) ^ 2 ≤ x ∧ x < (d * (isqrt x / d + 1)) ^ 2 :=
  ⟨(le_isqrt_div hd).mp le_rfl, (isqrt_div_lt hd).mp (Nat.lt_succ_self _)⟩

theorem isqrt_div_eq (hd : 0 < d) (hlo : (d * q) ^ 2 ≤ x) (hhi : x < (d * (q + 1)) ^ 2) : isqrt x / d = q :=
  Nat.le_antisymm (Nat.lt_succ_iff.mp ((isqrt_div_lt hd).mpr hhi)) ((le_isqrt_div hd).mpr hlo)

end

/-! ## The scale -/

section
variable (root d : Nat)

theorem scaleOn_lt_iff : scaleOn root d < 16 ↔ root / d < 17 := by
  rw [scaleOn]
  omega

theorem clamp_scaleOn : (clamp (scaleOn root d) 0 31).toNat = min (root / d - 1) 31 := by
  rw [clamp, scaleOn]
  omega

variable {root}

theorem scaleChosen_low (h : root / 325000 < 17) : scaleChosen root = scaleOn root 180000 :=
  if_pos ((scaleOn_lt_iff ..).mpr h)

theorem scaleChosen_high (h : ¬ root / 325000 < 17) : scaleChosen root = scaleOn root 325000 :=
  if_neg (mt (scaleOn_lt_iff ..).mp h)

end

section
variable (r mA pct : Nat)

theorem scaleRoot_eq : scaleRoot r mA = isqrt (2 * ((r + 20) * 32 * mA) ^ 2) := by
  rw [scaleRoot, sq, Nat.mul_assoc 2]

/-- R141 in natural numbers: the scale -1 is clamped to 0, as truncated subtraction does. -/
theorem currentScale_eq : currentScale r mA pct =
    let n := scaleRoot r mA / 325000
    let m := scaleRoot r mA / 180000
    if n < 17 then ⟨1, min (m - 1) 31, min (m - 1) 31 * pct / 100⟩
    else ⟨0, min (n - 1) 31, min (n - 1) 31 * pct / 100⟩ := by
  simp only [currentScale, scaleOn_lt_iff]
  split
  · next h => rw [scaleChosen_low h, clamp_scaleOn]
  · next h => rw [scaleChosen_high h, clamp_scaleOn]

theorem currentScale_vsense : (currentScale r mA pct).vsense = if scaleRoot r mA / 325000 < 17 then 1 else 0 := by
  simp only [currentScale, scaleOn_lt_iff]

theorem vsense_eq_zero_iff : (currentScale r mA pct).vsense = 0 ↔ ¬ scaleRoot r mA / 325000 < 17 := by
  rw [currentScale_vsense]
  split <;> simp [*]

theorem vsense_eq_one_iff : (currentScale r mA pct).vsense = 1 ↔ scaleRoot r mA / 325000 < 17 := by
  rw [currentScale_vsense]
  split <;> simp [*]

end

/-- Settles O23: the two quotients are given by their squares. -/
theorem currentScaleExact : Obligations.CurrentScaleExact := by
  intro r mA pct n m k hn hn' hm hm'
  have hq : scaleRoot r mA / 325000 = n := by
    rw [scaleRoot_eq]
    exact isqrt_div_eq (by decide) hn hn'
  have hq' : scaleRoot r mA / 180000 = m := by
    rw [scaleRoot_eq]
    exact isqrt_div_eq (by decide) hm hm'
  simp only [currentScale_eq, hq, hq']

/-- R149: the two currents on either side of the boundary, with 110 mOhm. -/
theorem scaleRoot_boundary : scaleRoot 110 939 = 5524257 ∧ scaleRoot 110 940 = 5530140 :=
  ⟨isqrt_unique (by norm_num) (by norm_num), isqrt_unique (by norm_num) (by norm_num)⟩

/-- Settles O24: `17 * 325000 = 5525000`. -/
theorem vsenseBoundary : Obligations.VsenseBoundary := by
  refine ⟨fun r mA pct => ⟨?_, ?_⟩, fun pct => ?_⟩
  · rw [vsense_eq_zero_iff, ← scaleOn_lt_iff, not_lt]
  · rw [vsense_eq_zero_iff]
    omega
  · obtain ⟨hlow, hhigh⟩ := scaleRoot_boundary
    simp [currentScale_eq, hlow, hhigh]

/-- Settles O25: below `17 * 325000` the quotient by 180000 is at most 30. -/
theorem clampsNotNeeded : Obligations.ClampsNotNeeded := by
  intro r mA pct
  rw [vsense_eq_one_iff, vsense_eq_zero_iff]
  refine ⟨fun h => ?_, fun h => ?_⟩
  · rw [scaleChosen_low h, scaleOn]
    omega
  · rw [scaleChosen_high h, scaleOn]
    omega

end Sys2Proof.Machine
end

section
/-! SUPPORT. SET_CURRENT and GET_CURRENT (41_current.md R140 to R147): their outcomes where a register file is loaded, and what
the second reads back of what the first has written. -/

namespace Sys2Proof.Machine

section
variable {s t : State} {x y : Instance} {f g : RegFile}

theorem Loaded.unique (h : Loaded s x f) (h' : Loaded s y g) : x = y ∧ f = g := by
  obtain ⟨hx, hf⟩ := h
  obtain ⟨hy, hg⟩ := h'
  obtain rfl := hx.unique hy
  exact ⟨rfl, Option.some.inj (hf.symm.trans hg)⟩

theorem withFile_next_of_loaded {k : RegFile → Out} (hx : Loaded s x f) (h : s.withFile k = .next t) : k f = .next t :=
  withFile_of hx k ▸ h

theorem withFileIo_next_of_loaded {k : RegFile → Out} (hx : Loaded s x f) (h : s.withFileIo k = .next t) :
    Ready s x f ∧ k f = .next t := by
  obtain ⟨_, _, hr, h⟩ := withFileIo_next h
  obtain ⟨rfl, rfl⟩ := hx.unique hr.1
  exact ⟨hr, h⟩

/-! ## Outcomes -/

/-- R144. -/
theorem exec_setCurrent_holdRange (h : Ready s x f) (hp : (argHoldPercent x.arg0).toNat > 100) :
    exec .setCurrent s = .fault (.holdPctRange s.cur x.cmd) := by
  have hx : Issues s x := h.1.1
  rw [exec, execSetCurrent, withFileIo_of h, hx.me_eq]
  exact (if_pos hp).trans (raise_eq hx _)

/-- R140, R142: the two scalars and the three fields stored, then CHOPCONF and IHOLD_IRUN sent. -/
theorem exec_setCurrent (h : Ready s x f) (hp : ¬ (argHoldPercent x.arg0).toNat > 100) :
    let g := f.setCurrent (argMilliamps x.arg0) (argHoldPercent x.arg0)
    ∃ t t1 t2, exec .setCurrent s = .next t ∧
      Reached s { x with file := some g, busstat := t2, result := 0, cmdstat := 0x00 }
        [⟨s.cur, .W, g.addr slotChopconf, g.value slotChopconf, t1⟩,
         ⟨s.cur, .W, g.addr slotIholdIrun, g.value slotIholdIrun, t2⟩] t := by
  intro g
  have hx : Issues s x := h.1.1
  have hexec : exec .setCurrent s =
      .next ((((s.setFile g).sendSlot g slotChopconf).sendSlot g slotIholdIrun).complete 0) := by
    rw [exec, execSetCurrent, withFileIo_of h, hx.me_eq]
    exact if_neg hp
  obtain ⟨t1, hchop⟩ := ((Reached.refl hx).setFile hx g).send hx g slotChopconf
  obtain ⟨t2, hihold⟩ := hchop.send hx g slotIholdIrun
  exact ⟨_, t1, t2, hexec, hihold.complete hx 0⟩

/-- A SET_CURRENT that answers a next state has passed the checks, so it leaves `setCurrent`'s register file. -/
theorem loaded_setCurrent (hx : Loaded s x f) (h : exec .setCurrent s = .next t) :
    ∃ y, Loaded t y (f.setCurrent (argMilliamps x.arg0) (argHoldPercent x.arg0)) := by
  obtain ⟨hr, -⟩ := withFileIo_next_of_loaded hx h
  by_cases hp : (argHoldPercent x.arg0).toNat > 100
  · cases (exec_setCurrent_holdRange hr hp).symm.trans h
  · obtain ⟨t', t1, t2, ht, hreach⟩ := exec_setCurrent hr hp
    obtain rfl := Host.Outcome.next.inj (ht.symm.trans h)
    exact ⟨_, hreach.issues hx.1, rfl⟩

/-- R145. -/
theorem exec_getCurrent (h : Loaded s x f) : exec .getCurrent s = .next (s.withMe (x.completed (BitVec.ofNat 32
    (readBackCurrent f.cfg.rSense.toNat (f.field slotIholdIrun ihIrun) (f.field slotChopconf chopVsense))))) := by
  rw [exec, execGetCurrent, withFile_of h, complete_eq h.1]

end

/-! ## The register file SET_CURRENT leaves -/

theorem currentScale_vsense_lt (r mA pct : Nat) : (currentScale r mA pct).vsense < 2 := by
  rw [currentScale_vsense]
  split <;> decide

theorem currentScale_irun_lt (r mA pct : Nat) : (currentScale r mA pct).irun < 32 := by
  simp only [currentScale, clamp]
  omega

section
variable (f : RegFile) (mA : Half) (pct : Byte)

theorem setCurrent_cfg : (f.setCurrent mA pct).cfg = { f.cfg with current := mA, holdPct := pct } := rfl

/-- R143: all but the three fields. -/
theorem setCurrent_sameBut :
    RegFile.SameBut { f with cfg := { f.cfg with current := mA, holdPct := pct } } (f.setCurrent mA pct) [3, 12] :=
  (RegFile.SameBut.refl ..).applyScale (by decide) (by decide) _

theorem setCurrent_chopconf : (f.setCurrent mA pct).value slotChopconf = putField chopVsense (f.value slotChopconf)
    (currentScale f.cfg.rSense.toNat mA.toNat pct.toNat).vsense := applyScale_chopconf ..

theorem setCurrent_iholdIrun : (f.setCurrent mA pct).value slotIholdIrun =
    putField ihIhold (putField ihIrun (f.value slotIholdIrun) (currentScale f.cfg.rSense.toNat mA.toNat pct.toNat).irun)
      (currentScale f.cfg.rSense.toNat mA.toNat pct.toNat).ihold := applyScale_iholdIrun ..

theorem setCurrent_vsense : (f.setCurrent mA pct).field slotChopconf chopVsense =
    (currentScale f.cfg.rSense.toNat mA.toNat pct.toNat).vsense := by
  rw [RegFile.field, setCurrent_chopconf, getField_putField_self _ _ _ (by decide)]
  exact Nat.mod_eq_of_lt (currentScale_vsense_lt ..)

theorem setCurrent_irun : (f.setCurrent mA pct).field slotIholdIrun ihIrun =
    (currentScale f.cfg.rSense.toNat mA.toNat pct.toNat).irun := by
  rw [RegFile.field, setCurrent_iholdIrun, getField_putField_disjoint _ _ _ _ (by decide) (by decide),
    getField_putField_self _ _ _ (by decide)]
  exact Nat.mod_eq_of_lt (currentScale_irun_lt ..)

end

/-- Settles O27. -/
theorem setCurrentHoldRange : Obligations.SetCurrentHoldRange := fun _ _ _ => exec_setCurrent_holdRange

/-- Settles O26: the register file is `setCurrent`'s, and the two transactions are those of its two sends. -/
theorem setCurrentCompletes : Obligations.SetCurrentCompletes := by
  intro s x f h hp
  obtain ⟨t, t1, t2, hexec, c, -, rfl⟩ := exec_setCurrent h (Nat.not_lt.mpr hp)
  obtain ⟨hcfg, haddr, hval⟩ := setCurrent_sameBut f (argMilliamps x.arg0) (argHoldPercent x.arg0)
  rw [haddr, haddr] at hexec
  exact ⟨_, c, t1, t2, hexec, hcfg, setCurrent_chopconf .., setCurrent_iholdIrun .., haddr,
    fun i h3 h12 => hval i (by simp [h3, h12])⟩

/-! ## Reading back -/

/-- R145, R146: the truncated quotient, by its square. -/
theorem readBackCurrent_bounds (r irun vsense : Nat) :
    let n := (irun + 1) * (if vsense = 1 then 180 else 325) * 1000
    let d := 32 * (r + 20)
    (2 * d * readBackCurrent r irun vsense) ^ 2 ≤ 2 * n ^ 2 ∧
      2 * n ^ 2 < (2 * d * (readBackCurrent r irun vsense + 1)) ^ 2 := by
  intro n d
  have h : readBackCurrent r irun vsense = isqrt (2 * n ^ 2) / (2 * d) := by
    rw [sq, ← Nat.mul_assoc]
    rfl
  rw [h]
  exact isqrt_div_bounds _ (by positivity)

/-- R146: the largest current, for irun 31 on the range of 325 mV with no sense resistance. -/
theorem readBackCurrent_le (r vsense : Nat) {irun : Nat} (h : irun < 32) : readBackCurrent r irun vsense ≤ 11490 := by
  obtain ⟨hlo, -⟩ := readBackCurrent_bounds r irun vsense
  by_contra hg
  have hn : (irun + 1) * (if vsense = 1 then 180 else 325) * 1000 ≤ 32 * 325 * 1000 := by
    gcongr
    · omega
    · split <;> decide
  have hd : 2 * (32 * 20) * 11491 ≤ 2 * (32 * (r + 20)) * readBackCurrent r irun vsense := by
    gcongr <;> omega
  have := calc (2 * (32 * 20) * 11491) ^ 2
    _ ≤ (2 * (32 * (r + 20)) * readBackCurrent r irun vsense) ^ 2 := by gcongr
    _ ≤ 2 * ((irun + 1) * (if vsense = 1 then 180 else 325) * 1000) ^ 2 := hlo
    _ ≤ 2 * (32 * 325 * 1000) ^ 2 := by gcongr
  norm_num at this

/-- Settles O28. -/
theorem getCurrentCompletes : Obligations.GetCurrentCompletes := by
  intro s x f h
  obtain ⟨hlo, hhi⟩ := readBackCurrent_bounds f.cfg.rSense.toNat (f.field slotIholdIrun ihIrun)
    (f.field slotChopconf chopVsense)
  exact ⟨_, exec_getCurrent h, hlo, hhi, readBackCurrent_le _ _ (getField_lt ..)⟩

/-! ## The round trip -/

/-- `(a + b) * sqrt 2` is at least `u + v` when each summand is at least its own. -/
theorem add_sq_le_two_mul_sq {a b u v : Nat} (hu : u ^ 2 ≤ 2 * a ^ 2) (hv : v ^ 2 ≤ 2 * b ^ 2) :
    (u + v) ^ 2 ≤ 2 * (a + b) ^ 2 := by
  have huv : u * v ≤ 2 * (a * b) := by
    rw [← Nat.pow_le_pow_iff_left (two_ne_zero)]
    calc (u * v) ^ 2 = u ^ 2 * v ^ 2 := mul_pow ..
      _ ≤ 2 * a ^ 2 * (2 * b ^ 2) := Nat.mul_le_mul hu hv
      _ = (2 * (a * b)) ^ 2 := by ring
  calc (u + v) ^ 2 = u ^ 2 + 2 * (u * v) + v ^ 2 := by ring
    _ ≤ 2 * a ^ 2 + 2 * (2 * (a * b)) + 2 * b ^ 2 := by gcongr
    _ = 2 * (a + b) ^ 2 := by ring

/-- R147: `q` steps of `v / (d * sqrt 2)` mA, truncated to `g`, are at most the `mA` they were chosen for, and less than
one step below it. -/
theorem round_trip_bounds {d mA v q g : Nat} (hd : 0 < d) (hq : (v * q) ^ 2 ≤ 2 * (d * mA) ^ 2)
    (hq' : 2 * (d * mA) ^ 2 < (v * (q + 1)) ^ 2) (hg : (2 * d * g) ^ 2 ≤ 2 * (v * q) ^ 2)
    (hg' : 2 * (v * q) ^ 2 < (2 * d * (g + 1)) ^ 2) :
    g ≤ mA ∧ ∀ n : Nat, v ^ 2 ≤ 2 * (d * n) ^ 2 → mA ≤ g + n := by
  constructor
  · have h : (2 * d * g) ^ 2 ≤ (2 * d * mA) ^ 2 := calc
      _ ≤ 2 * (v * q) ^ 2 := hg
      _ ≤ 2 * (2 * (d * mA) ^ 2) := by gcongr
      _ = (2 * d * mA) ^ 2 := by ring
    exact Nat.le_of_mul_le_mul_left ((Nat.pow_le_pow_iff_left two_ne_zero).mp h) (by positivity)
  · intro n hn
    by_contra hlt
    have hstep : (v * q) ^ 2 ≤ 2 * (d * (g + 1)) ^ 2 := by
      have : (2 * d * (g + 1)) ^ 2 = 2 * (2 * (d * (g + 1)) ^ 2) := by ring
      omega
    have : (v * (q + 1)) ^ 2 ≤ 2 * (d * mA) ^ 2 := calc
      _ = (v * q + v) ^ 2 := by ring
      _ ≤ 2 * (d * (g + 1) + d * n) ^ 2 := add_sq_le_two_mul_sq hstep hn
      _ = 2 * (d * (g + 1 + n)) ^ 2 := by ring
      _ ≤ 2 * (d * mA) ^ 2 := by gcongr; omega
    omega

/-- R141: the full scale of the range CurrentScale chooses for `root`, in mV. -/
def fullScale (root : Nat) : Nat := if scaleOn root 325000 < 16 then 180 else 325

section
variable {r mA : Nat} (pct : Nat)

theorem fullScale_eq : fullScale (scaleRoot r mA) = if (currentScale r mA pct).vsense = 1 then 180 else 325 := by
  simp only [fullScale, vsense_eq_one_iff, scaleOn_lt_iff]

theorem scaleChosen_eq (root : Nat) : scaleChosen root = scaleOn root (fullScale root * 1000) := by
  rw [scaleChosen, fullScale]
  split <;> rfl

/-- An unclamped scale is irun, one less than the quotient. -/
theorem irun_unclamped (h0 : 0 ≤ scaleChosen (scaleRoot r mA)) (h31 : scaleChosen (scaleRoot r mA) ≤ 31) :
    (currentScale r mA pct).irun + 1 = scaleRoot r mA / (fullScale (scaleRoot r mA) * 1000) := by
  have hirun : (currentScale r mA pct).irun = (clamp (scaleChosen (scaleRoot r mA)) 0 31).toNat := rfl
  rw [scaleChosen_eq, scaleOn] at h0 h31
  rw [hirun, scaleChosen_eq, scaleOn, clamp]
  omega

/-- R147: the current read back of an unclamped scale. -/
theorem readBackCurrent_currentScale (h0 : 0 ≤ scaleChosen (scaleRoot r mA)) (h31 : scaleChosen (scaleRoot r mA) ≤ 31) :
    let g := readBackCurrent r (currentScale r mA pct).irun (currentScale r mA pct).vsense
    g ≤ mA ∧ ∀ n : Nat, (fullScale (scaleRoot r mA) * 1000) ^ 2 ≤ 2 * (32 * (r + 20) * n) ^ 2 → mA ≤ g + n := by
  have hv : 0 < fullScale (scaleRoot r mA) * 1000 := by
    rw [fullScale]
    split <;> decide
  have hn : ((currentScale r mA pct).irun + 1) * (if (currentScale r mA pct).vsense = 1 then 180 else 325) * 1000 =
      fullScale (scaleRoot r mA) * 1000 * (scaleRoot r mA / (fullScale (scaleRoot r mA) * 1000)) := by
    rw [irun_unclamped pct h0 h31, ← fullScale_eq]
    ring
  obtain ⟨hg, hg'⟩ := readBackCurrent_bounds r (currentScale r mA pct).irun (currentScale r mA pct).vsense
  obtain ⟨hq, hq'⟩ := isqrt_div_bounds (2 * ((r + 20) * 32 * mA) ^ 2) hv
  rw [← scaleRoot_eq, Nat.mul_comm (r + 20) 32] at hq hq'
  rw [hn] at hg hg'
  exact round_trip_bounds (by positivity) hq hq' hg hg'

end

theorem toNat_ofNat_readBackCurrent (r vsense : Nat) {irun : Nat} (h : irun < 32) :
    (BitVec.ofNat 32 (readBackCurrent r irun vsense)).toNat = readBackCurrent r irun vsense :=
  Nat.mod_eq_of_lt (Nat.lt_of_le_of_lt (readBackCurrent_le r vsense h) (by decide))

/-- Settles O29: the fields read back are those CurrentScale has given. -/
theorem currentRoundTrip : Obligations.CurrentRoundTrip := by
  intro s t u x z f h hset hget hz r mA scale vfs h0 h31
  obtain ⟨y, hy⟩ := loaded_setCurrent h hset
  obtain rfl := Host.Outcome.next.inj ((exec_getCurrent hy).symm.trans hget)
  obtain rfl := hz.unique (withMe_issues hy.1 _)
  simp only [Instance.completed, setCurrent_cfg, setCurrent_irun, setCurrent_vsense,
    toNat_ofNat_readBackCurrent _ _ (currentScale_irun_lt ..)]
  exact readBackCurrent_currentScale _ h0 h31

end Sys2Proof.Machine
end

section
/-! SUPPORT. The commands that write the shadow or the configuration: the register file each may leave, and what that
file keeps of the one before (41_current.md R140 to 45_regaccess.md R248). -/

namespace Sys2Proof.Machine

/-! ## What a register file keeps -/

theorem RegFile.SameBut.of_cfg {f g : RegFile} {c : Cfg} {l : List Nat} (h : RegFile.SameBut { f with cfg := c } g l) :
    f.SameBut { g with cfg := f.cfg } l := by
  obtain ⟨-, haddr, hval⟩ := h
  exact ⟨rfl, haddr, hval⟩

/-- R201 to R206: the bits SET_COT_CHOPPER leaves, disfdcc (12) and those from 17 on. -/
theorem getField_chopperWord (v : Word) (off blank fd : Nat) (sw : Int) (cc : Nat) {b : BitField}
    (hb : (b.lo = 12 ∧ b.width = 1) ∨ (17 ≤ b.lo ∧ b.lo + b.width ≤ 32)) :
    getField b (chopperWord v off blank fd sw cc) = getField b v := by
  have hkeep (c : BitField) (hc : c.lo + c.width ≤ 12 ∨ (13 ≤ c.lo ∧ c.lo + c.width ≤ 17)) (v : Word) (x : Nat) :
      getField b (putField c v x) = getField b v :=
    getField_putField_disjoint c b v x (by omega) (by omega)
  rw [chopperWord, hkeep chopRndtf (by decide), hkeep chopHend (by decide), hkeep chopHstrt (by decide),
    hkeep chopFd3 (by decide), hkeep chopToff (by decide), hkeep chopTbl (by decide), hkeep chopChm (by decide)]

section
variable (f : RegFile) {b : BitField}

theorem setCurrent_chopconf_field (mA : Half) (pct : Byte)
    (hb : b.lo + b.width ≤ 17 ∨ (18 ≤ b.lo ∧ b.lo + b.width ≤ 32)) :
    (f.setCurrent mA pct).field slotChopconf b = f.field slotChopconf b := by
  rw [RegFile.field, setCurrent_chopconf]
  exact getField_putField_disjoint chopVsense _ _ _ (by omega) (hb.imp id And.left)

theorem setCurrent_iholdIrun_field (mA : Half) (pct : Byte)
    (hb : (5 ≤ b.lo ∧ b.lo + b.width ≤ 8) ∨ (13 ≤ b.lo ∧ b.lo + b.width ≤ 32)) :
    (f.setCurrent mA pct).field slotIholdIrun b = f.field slotIholdIrun b := by
  have hirun : b.lo + b.width ≤ ihIrun.lo ∨ ihIrun.lo + ihIrun.width ≤ b.lo := hb.imp And.right And.left
  have hihold : ihIhold.lo + ihIhold.width ≤ b.lo := by
    show 5 ≤ b.lo
    omega
  rw [RegFile.field, setCurrent_iholdIrun, getField_putField_disjoint _ _ _ _ (by omega) (.inr hihold),
    getField_putField_disjoint _ _ _ _ (by omega) hirun, RegFile.field]

theorem setField_field_disjoint (i : Slot) (c : BitField) (v : Nat) (hb : b.lo + b.width ≤ 32)
    (h : b.lo + b.width ≤ c.lo ∨ c.lo + c.width ≤ b.lo) : (f.setField i c v).field i b = f.field i b := by
  rw [RegFile.field, RegFile.value_setField_self, getField_putField_disjoint _ _ _ _ hb h, RegFile.field]

/-- R165: the shadow of SET_MSTEPS' register file is that of a write of mres. -/
theorem setMsteps_sameBut (m : Nat) : f.SameBut { f.setMsteps m with cfg := f.cfg } [12] :=
  sameBut_setField f slotChopconf chopMres m

end

/-- R248: CONFIG_WRITE leaves every scalar but the selected one, and MICROSTEPS always. -/
theorem cfgWrite_frame {c c' : Cfg} {id : CfgId} {v : Word} (h : c.write id v = some c') :
    c'.microsteps = c.microsteps ∧ ∀ j : CfgId, id ≠ j → c'.read j = c.read j := by
  cases id with
  | fClk =>
    cases h
    refine ⟨rfl, fun j hj => ?_⟩
    cases j <;> simp [Cfg.read] at hj ⊢
  | rSense | coolstepEn | current | holdPct =>
    simp only [Cfg.write, Option.ite_none_left_eq_some, Option.some.injEq] at h
    obtain ⟨-, rfl⟩ := h
    refine ⟨rfl, fun j hj => ?_⟩
    cases j <;> simp [Cfg.read] at hj ⊢
  | microsteps => cases h

/-! ## The register files a command may leave -/

section
variable {s t : State} {x y : Instance} {f g : RegFile}

theorem loaded_complete (h : Loaded s x f) (r : Word) : ∃ y, Loaded (s.complete r) y f :=
  ⟨x.completed r, complete_eq h.1 r ▸ withMe_issues h.1 _, h.2⟩

/-- A command that stores a register file, sends one slot of it and completes. -/
theorem loaded_storeSend (h : Loaded s x f) (g : RegFile) (i : Slot) :
    ∃ y, Loaded (((s.setFile g).sendSlot g i).complete 0) y g := by
  obtain ⟨_, h1⟩ := loaded_setFile h g
  obtain ⟨_, h2, -⟩ := loaded_send h1 g i
  exact loaded_complete h2 0

theorem loaded_store (h : Loaded s x f) (g : RegFile) : ∃ y, Loaded ((s.setFile g).complete 0) y g := by
  obtain ⟨_, h1⟩ := loaded_setFile h g
  exact loaded_complete h1 0

theorem loaded_rejectIllegal (h : Loaded s x f) : ∃ y, Loaded s.rejectIllegal y f :=
  ⟨{ x with cmdstat := 0x01 }, rejectIllegal_eq h.1 ▸ withMe_issues h.1 _, h.2⟩

/-- The issuer has at most one register file. -/
theorem eq_of_loaded (h : ∃ y, Loaded t y f) (ht : Loaded t y g) : g = f := by
  obtain ⟨_, h⟩ := h
  exact (ht.unique h).2

theorem file_of_setMsteps {n : Half} (hx : Loaded s x f) (h : exec (.setMsteps n) s = .next t) (ht : Loaded t y g) :
    g = f.setMsteps (toMres n.toNat) := by
  obtain ⟨-, h⟩ := withFileIo_next_of_loaded hx h
  cases h
  exact eq_of_loaded (loaded_storeSend hx _ _) ht

theorem file_of_storeThreshold (hx : Loaded s x f) (h : s.storeThreshold = .next t) (ht : Loaded t y g) :
    ∃ v, g = f.setField slotTpwmthrs tpTpwmthrs v := by
  obtain ⟨-, h⟩ := withFileIo_next_of_loaded hx h
  obtain ⟨v, -, h⟩ := withConversion_next h
  cases h
  exact ⟨v, eq_of_loaded (loaded_storeSend hx _ _) ht⟩

theorem file_of_setCotChopper (hx : Loaded s x f) (h : exec .setCotChopper s = .next t) (ht : Loaded t y g) :
    ∃ off blank fd sw cc, g = f.setValue slotChopconf (chopperWord (f.value slotChopconf) off blank fd sw cc) := by
  obtain ⟨-, h⟩ := withFileIo_next_of_loaded hx h
  cases h
  exact ⟨_, _, _, _, _, eq_of_loaded (loaded_storeSend hx _ _) ht⟩

/-- READ_REG and SHADOW_WRITE may leave another value in the selected slot. -/
theorem sameBut_of_readReg {sel : BitVec 5} (hx : Loaded s x f) (h : exec (.readReg sel) s = .next t)
    (ht : Loaded t y g) : f.SameBut g [sel.toNat] := by
  obtain ⟨-, -, rfl | ⟨hs, h⟩⟩ := withSlot_next h
  · exact eq_of_loaded (loaded_rejectIllegal hx) ht ▸ .refl ..
  · obtain ⟨-, h⟩ := withFileIo_next_of_loaded hx h
    cases h
    obtain ⟨_, hfetch, -⟩ := loaded_fetch hx f ⟨sel.toNat, hs⟩
    exact eq_of_loaded (loaded_complete hfetch _) ht ▸ sameBut_setValue ..

theorem sameBut_of_shadowWrite {sel : BitVec 5} (hx : Loaded s x f) (h : exec (.shadowWrite sel) s = .next t)
    (ht : Loaded t y g) : f.SameBut g [sel.toNat] := by
  obtain ⟨-, -, rfl | ⟨hs, h⟩⟩ := withSlot_next h
  · exact eq_of_loaded (loaded_rejectIllegal hx) ht ▸ .refl ..
  · have h := withFile_next_of_loaded hx h
    split at h
    · cases h
      exact eq_of_loaded (loaded_rejectIllegal hx) ht ▸ .refl ..
    · cases h
      exact eq_of_loaded (loaded_store hx _) ht ▸ sameBut_setValue ..

theorem frame_of_configWrite {sel : BitVec 5} (hx : Loaded s x f) (h : exec (.configWrite sel) s = .next t)
    (ht : Loaded t y g) : g.sh = f.sh ∧ g.cfg.microsteps = f.cfg.microsteps ∧
      ∀ id : CfgId, cfgIdOfSel sel ≠ some id → g.cfg.read id = f.cfg.read id := by
  obtain ⟨-, -, rfl | ⟨id, hid, h⟩⟩ := withCfgId_next h
  · exact eq_of_loaded (loaded_rejectIllegal hx) ht ▸ ⟨rfl, rfl, fun _ _ => rfl⟩
  · have h := withFile_next_of_loaded hx h
    split at h
    · cases h
      exact eq_of_loaded (loaded_rejectIllegal hx) ht ▸ ⟨rfl, rfl, fun _ _ => rfl⟩
    · next c hc =>
      cases h
      obtain ⟨hms, hread⟩ := cfgWrite_frame hc
      exact eq_of_loaded (loaded_store hx _) ht ▸ ⟨rfl, hms, fun j hj => hread j fun h => hj (h ▸ hid)⟩

end

/-- Settles O53: the hidden registers by O54, the register file command by command. -/
theorem writingCommandsFrame : Obligations.WritingCommandsFrame := by
  intro s t i x y f g hx h ht hi
  obtain ⟨x', y', hx', hy', hsaved, hstate, -⟩ := hiddenRegistersFrame s t i h
  obtain rfl := hx.1.unique hx'
  obtain rfl := ht.1.unique hy'
  have hne : i ≠ .hwInit ∧ i ≠ .loadDefaults := ⟨by rintro rfl; exact hi, by rintro rfl; exact hi⟩
  refine ⟨hstate hne.1 hne.2, hsaved hne.1, ?_⟩
  cases i with
  | setCurrent =>
    obtain rfl := eq_of_loaded (loaded_setCurrent hx h) ht
    exact ⟨rfl, (setCurrent_sameBut ..).of_cfg, fun _ => setCurrent_chopconf_field f _ _,
      fun _ => setCurrent_iholdIrun_field f _ _⟩
  | setMsteps n =>
    obtain rfl := file_of_setMsteps hx h ht
    exact ⟨rfl, setMsteps_sameBut ..,
      fun b hb => setField_field_disjoint f _ chopMres _ (by omega) (hb.imp id And.left)⟩
  | setHybridThrs | setTpwmthrs =>
    obtain ⟨v, rfl⟩ := file_of_storeThreshold hx h ht
    exact ⟨sameBut_setField .., fun b hlo hhi => setField_field_disjoint f _ _ _ hhi (.inr hlo)⟩
  | setCotChopper =>
    obtain ⟨off, blank, fd, sw, cc, rfl⟩ := file_of_setCotChopper hx h ht
    refine ⟨sameBut_setValue .., fun b hb => ?_⟩
    rw [RegFile.field, RegFile.value_setValue_self, getField_chopperWord _ _ _ _ _ _ hb, RegFile.field]
  | readReg sel => exact sameBut_of_readReg hx h ht
  | shadowWrite sel => exact sameBut_of_shadowWrite hx h ht
  | configWrite sel => exact frame_of_configWrite hx h ht
  | _ => trivial

end Sys2Proof.Machine
end

section
/-! SUPPORT. Microstepping (42_microstep.md R160 to R168): when a count is legal, the outcomes of MSTEPS_VALID and SET_MSTEPS,
and what CONFIG_READ reads back. -/

namespace Sys2Proof.Machine

/-! ## Legal microstep counts -/

/-- The bit trick of R160: a number has no bit in common with its predecessor exactly when it is 0 or a power of two. -/
theorem and_pred_eq_zero_iff_isPowerOfTwo {n : Half} (hn : 1 ≤ n.toNat) :
    n &&& (n - 1) = 0 ↔ n.toNat.isPowerOfTwo := by
  have hpred : (n - 1).toNat = n.toNat - 1 := BitVec.toNat_sub_of_le hn
  rw [← Nat.and_sub_one_eq_zero_iff_isPowerOfTwo (Nat.ne_of_gt hn), ← hpred, ← BitVec.toNat_and]
  exact BitVec.toNat_inj.symm

/-- R160, R161. -/
theorem mstepsLegal_iff (n : Half) : mstepsLegal n = true ↔ ∃ k, k ≤ 8 ∧ n.toNat = 2 ^ k := by
  simp only [mstepsLegal, Bool.and_eq_true, decide_eq_true_eq, beq_iff_eq]
  constructor
  · rintro ⟨⟨hlo, hhi⟩, hand⟩
    obtain ⟨k, hk⟩ := (and_pred_eq_zero_iff_isPowerOfTwo hlo).mp hand
    exact ⟨k, (Nat.pow_le_pow_iff_right (by decide)).mp (hk ▸ hhi : 2 ^ k ≤ 2 ^ 8), hk⟩
  · rintro ⟨k, hk, hn⟩
    have hlo : 1 ≤ n.toNat := hn ▸ Nat.one_le_two_pow
    have hhi : n.toNat ≤ 2 ^ 8 := hn ▸ Nat.pow_le_pow_right (by decide) hk
    exact ⟨⟨hlo, hhi⟩, (and_pred_eq_zero_iff_isPowerOfTwo hlo).mpr ⟨k, hn⟩⟩

/-- A power of two below `2 ^ w`, as every legal count is for `w = 16`, is kept in `w` bits. -/
theorem toNat_ofNat_two_pow {k w : Nat} (hk : k < w) : (BitVec.ofNat w (2 ^ k)).toNat = 2 ^ k :=
  Nat.mod_eq_of_lt (Nat.pow_lt_pow_right (by decide) hk)

/-! ## Outcomes -/

section
variable {s : State} {x : Instance} {f : RegFile}

/-- R160. -/
theorem exec_mstepsValid (h : Issues s x) (n : Half) :
    exec (.mstepsValid n) s = .next (s.withMe (x.completed (flagWord (mstepsLegal n)))) := by
  rw [exec, execMstepsValid, withInst_of h, complete_eq h]

/-- R165: the register file stored, then CHOPCONF sent. -/
theorem exec_setMsteps (h : Ready s x f) (n : Half) :
    let g := f.setMsteps (toMres n.toNat)
    exec (.setMsteps n) s = .next (((s.setFile g).sendSlot g slotChopconf).complete 0) := by
  rw [exec, execSetMsteps, withFileIo_of h]

/-- R246. -/
theorem exec_configRead {sel : BitVec 5} {id : CfgId} (h : Loaded s x f) (hs : cfgIdOfSel sel = some id) :
    exec (.configRead sel) s = .next (s.withMe (x.completed (f.cfg.read id))) := by
  rw [exec, execConfigRead, withCfgId_of h.1 hs, withFile_of h, complete_eq h.1]

/-- A command that stores the register file `g`, sends one slot of it and completes makes one write. -/
theorem storeSend_reached (h : Issues s x) (g : RegFile) (i : Slot) :
    ∃ st, Reached s { x with file := some g, busstat := st, result := 0, cmdstat := 0x00 }
      [⟨s.cur, .W, g.addr i, g.value i, st⟩] (((s.setFile g).sendSlot g i).complete 0) := by
  obtain ⟨st, hsend⟩ := ((Reached.refl h).setFile h g).send h g i
  exact ⟨st, hsend.complete h 0⟩

end

/-- R165: the one shadow value SET_MSTEPS writes. -/
theorem setMsteps_chopconf (f : RegFile) (m : Nat) :
    (f.setMsteps m).value slotChopconf = putField chopMres (f.value slotChopconf) m :=
  RegFile.value_setField_self ..

theorem setMsteps_addr (f : RegFile) (m : Nat) (i : Slot) : (f.setMsteps m).addr i = f.addr i :=
  RegFile.addr_setField ..

/-- Settles O30: the flag is 1 exactly for a legal count. -/
theorem mstepsValidCompletes : Obligations.MstepsValidCompletes := by
  intro s x n h
  rw [exec_mstepsValid h, ← mstepsLegal_iff]
  exact ⟨fun hn => by rw [hn]; rfl, fun hn => by rw [Bool.eq_false_of_not_eq_true hn]; rfl⟩

/-- Settles O31: the exponent is that of `toMres_spec`, the register file `setMsteps`'. -/
theorem setMstepsCompletes : Obligations.SetMstepsCompletes := by
  intro s x f n h
  obtain ⟨k, hk, hm, hzero, hdvd⟩ := toMres_spec n
  obtain ⟨-, -, hval⟩ := setMsteps_sameBut f (8 - k)
  obtain ⟨st, c, -, hreach⟩ := storeSend_reached h.1.1 (f.setMsteps (8 - k)) slotChopconf
  refine ⟨k, f.setMsteps (8 - k), c, st, ?_, hk, hzero, hdvd, ?_, setMsteps_chopconf f _, setMsteps_addr f _, ?_⟩
  · rw [exec_setMsteps h, hm, hreach, setMsteps_addr]
  · rw [RegFile.setMsteps, Nat.sub_sub_self hk, RegFile.setField_cfg]
  · exact fun i hi => hval i (by simpa using hi)

/-- Settles O32: `to_mres` inverts a legal count's exponent, so SET_MSTEPS stores the count itself. -/
theorem powerOfTwoMstepsReadBack : Obligations.PowerOfTwoMstepsReadBack := by
  intro k hk
  have hmres : toMres (2 ^ k) = 8 - k := toMres_two_pow hk
  refine ⟨by rw [hmres, Nat.sub_sub_self hk], fun s t x f h ht => ?_⟩
  rw [exec_setMsteps h, toNat_ofNat_two_pow (by omega), hmres] at ht
  cases ht
  obtain ⟨y, hy⟩ := loaded_storeSend h.1 (f.setMsteps (8 - k)) slotChopconf
  have hms : (f.setMsteps (8 - k)).cfg.microsteps.toNat = 2 ^ k := by
    rw [setMsteps_microsteps, Nat.sub_sub_self hk]
  have hread : (f.setMsteps (8 - k)).cfg.read .microsteps = BitVec.ofNat 32 (2 ^ k) := by
    rw [Cfg.read, ← BitVec.ofNat_toNat, hms]
  refine ⟨y, _, hy, hms, ?_⟩
  rw [exec_configRead hy (id := .microsteps) rfl, hread]

end Sys2Proof.Machine
end

section
/-! SUPPORT. Velocity thresholds (43_threshold.md R180 to R187): the conversions' faults and quotients, the outcomes of the
two setters and of GET_TPWMTHRS where a register file is loaded, and what GET_TPWMTHRS reads back
of a threshold stored. -/

namespace Sys2Proof.Machine

/-! ## The conversions -/

section
variable {lim F ms x st t : Nat}

theorem thrConvert_eq_divZero (hx : x ≠ 0) (hst : st = 0) : thrConvert lim F ms x st = .divZero := by
  rw [thrConvert, if_neg hx, if_pos hst]

theorem thrConvert_eq_range (hx : x ≠ 0) (hst : st ≠ 0) (h : (lim + 1) * (256 * x * st) ≤ F * ms * 2 ^ 32) :
    thrConvert lim F ms x st = .range := by
  have hq : thrQuotient F ms x st > lim := (Nat.le_div_iff_mul_le (by positivity)).mpr h
  rw [thrConvert, if_neg hx, if_neg hst, if_pos hq]

/-- The quotient a conversion of a non-zero operand gives. -/
theorem thrConvert_value_of_ne_zero (h : thrConvert lim F ms x st = .value t) (hx : x ≠ 0) :
    st ≠ 0 ∧ t = F * ms * 2 ^ 32 / (256 * x * st) ∧ t ≤ lim := by
  obtain ⟨h0, -⟩ | ⟨-, hst, ht, hle⟩ := thrConvert_value h
  · exact absurd h0 hx
  · exact ⟨hst, ht, hle⟩

/-- Settles O35: the divisor of `2 * v` is twice that of `v`. -/
theorem thresholdHalves : Obligations.ThresholdHalves := by
  intro F ms v st t t' hv _ ht ht'
  obtain ⟨-, rfl, -⟩ := thrConvert_value_of_ne_zero ht hv
  obtain ⟨-, rfl, -⟩ := thrConvert_value_of_ne_zero ht' (by omega)
  rw [Nat.div_div_eq_div_mul]
  congr 1
  ring

/-- R185: dividing by a quotient `t` gives back at least the divisor's factor, `x` times `t` being no more than the exact
quotient. -/
theorem le_of_thrConvert_thrConvert {lim' w : Nat} (ht : thrConvert lim F ms x st = .value t) (hx : x ≠ 0) (ht0 : t ≠ 0)
    (hw : thrConvert lim' F ms t st = .value w) : x ≤ w := by
  obtain ⟨hst, hq, -⟩ := thrConvert_value_of_ne_zero ht hx
  obtain ⟨-, hw, -⟩ := thrConvert_value_of_ne_zero hw ht0
  rw [hw, Nat.le_div_iff_mul_le (by positivity)]
  calc x * (256 * t * st)
    _ = t * (256 * x * st) := by ring
    _ ≤ F * ms * 2 ^ 32 := by
      rw [hq]
      exact Nat.div_mul_le_self ..

end

/-- A non-zero operand as the conversions see it. -/
theorem toNat_ne_zero {n : Nat} {v : BitVec n} (h : v ≠ 0) : v.toNat ≠ 0 := BitVec.toNat_ne_iff_ne.mpr h

section
variable {s t : State} {x : Instance} {f : RegFile} {i : Instr}

theorem withConversion_divZero {c : Conversion} (hx : Issues s x) (hc : c = .divZero) (k : Nat → Out) :
    s.withConversion c k = .fault (.divZero s.cur x.cmd) := by
  rw [hc]
  exact raise_eq hx _

theorem withConversion_range {c : Conversion} (hx : Issues s x) (hc : c = .range) (k : Nat → Out) :
    s.withConversion c k = .fault (.range s.cur x.cmd) := by
  rw [hc]
  exact raise_eq hx _

/-! ## SET_HYBRID_THRS and SET_TPWMTHRS -/

/-- R187: the two commands have one effect. -/
theorem exec_setter (s : State) (hi : i = .setHybridThrs ∨ i = .setTpwmthrs) : exec i s = s.storeThreshold := by
  obtain rfl | rfl := hi <;> rfl

/-- R180, R181: the velocity converted, the threshold stored, then TPWMTHRS sent. -/
theorem storeThreshold_of (h : Ready s x f) : s.storeThreshold =
    s.withConversion (velToThr f.cfg.fClk.toNat f.cfg.microsteps.toNat x.arg0.toNat x.arg1.toNat) fun q =>
      let g := f.setField slotTpwmthrs tpTpwmthrs q
      .next (((s.setFile g).sendSlot g slotTpwmthrs).complete 0) := by
  rw [State.storeThreshold, withFileIo_of h, h.1.1.me_eq]

/-- Settles O33: the converted velocity is `q`, by its bounds, and the one transaction is that of the send. -/
theorem setThresholdCompletes : Obligations.SetThresholdCompletes := by
  intro s x f i q h hi hq
  have hconv : velToThr f.cfg.fClk.toNat f.cfg.microsteps.toNat x.arg0.toNat x.arg1.toNat = .value q := by
    refine thrConvert_eq_value (hq.imp ?_ ?_)
    · exact fun ⟨h0, hq0⟩ => ⟨congrArg BitVec.toNat h0, hq0⟩
    · exact fun ⟨h0, h1, hbounds⟩ => ⟨toNat_ne_zero h0, toNat_ne_zero h1, hbounds⟩
  obtain ⟨st, c, -, hreach⟩ := storeSend_reached h.1.1 (f.setField slotTpwmthrs tpTpwmthrs q) slotTpwmthrs
  refine ⟨_, c, st, ?_, sameBut_setField .., RegFile.value_setField_self ..⟩
  rw [RegFile.addr_setField] at hreach
  rw [exec_setter s hi, storeThreshold_of h, hconv]
  exact congrArg Host.Outcome.next hreach

/-- Settles O34: the checks of R180 in its order. -/
theorem setThresholdFaults : Obligations.SetThresholdFaults := by
  intro s x f i h hi h0
  rw [exec_setter s hi, storeThreshold_of h]
  refine ⟨fun h1 => withConversion_divZero h.1.1 ?_ _, fun h1 hle => withConversion_range h.1.1 ?_ _⟩
  · exact thrConvert_eq_divZero (toNat_ne_zero h0) (congrArg BitVec.toNat h1)
  · exact thrConvert_eq_range (toNat_ne_zero h0) (toNat_ne_zero h1) hle

/-- A SET_HYBRID_THRS that answers a next state has converted the velocity, stored the threshold and kept `ARG1`. -/
theorem loaded_setHybridThrs (h : exec .setHybridThrs s = .next t) (hx : Issues s x) :
    ∃ (f : RegFile) (q : Nat) (y : Instance),
    velToThr f.cfg.fClk.toNat f.cfg.microsteps.toNat x.arg0.toNat x.arg1.toNat = .value q ∧
      Loaded t y (f.setField slotTpwmthrs tpTpwmthrs q) ∧ y.arg1 = x.arg1 := by
  rw [exec_setter s (.inl rfl)] at h
  obtain ⟨x', f, hr, -⟩ := withFileIo_next h
  obtain rfl := hr.1.1.unique hx
  rw [storeThreshold_of hr] at h
  obtain ⟨q, hq, h⟩ := withConversion_next h
  obtain rfl := Host.Outcome.next.inj h
  obtain ⟨_, hreach⟩ := storeSend_reached hx (f.setField slotTpwmthrs tpTpwmthrs q) slotTpwmthrs
  exact ⟨f, q, _, hq, ⟨hreach.issues hx, rfl⟩, rfl⟩

/-- A stored threshold reads as itself where it fits the field (R32). -/
theorem setField_tpwmthrs (f : RegFile) {q : Nat} (hq : q ≤ 0xFFFFF) :
    (f.setField slotTpwmthrs tpTpwmthrs q).field slotTpwmthrs tpTpwmthrs = q := by
  rw [RegFile.field, RegFile.value_setField_self, getField_putField_self _ _ _ (by decide)]
  exact Nat.mod_eq_of_lt (Nat.lt_succ_of_le hq)

/-! ## GET_TPWMTHRS -/

/-- R184. -/
theorem exec_getTpwmthrs (h : Loaded s x f) : exec .getTpwmthrs s =
    s.withConversion (thrToVel f.cfg.fClk.toNat f.cfg.microsteps.toNat (f.field slotTpwmthrs tpTpwmthrs) x.arg1.toNat)
      fun w => .next (s.withMe (x.completed (BitVec.ofNat 32 w))) := by
  rw [exec, execGetTpwmthrs, withFile_of h, h.1.me_eq]
  simp only [complete_eq h.1]

/-- Settles O36: the four results of the conversion. -/
theorem getTpwmthrsOutcomes : Obligations.GetTpwmthrsOutcomes := by
  intro s x f h p d
  rw [exec_getTpwmthrs h]
  refine ⟨fun h0 => ?_, fun h0 => ⟨fun h1 => ?_, fun h1 => ⟨fun w hlo hhi hw => ?_, fun hle => ?_⟩⟩⟩
  · rw [thrToVel, thrConvert_eq_value (.inl ⟨h0, rfl⟩)]
    rfl
  · exact withConversion_divZero h.1 (thrConvert_eq_divZero h0 (congrArg BitVec.toNat h1)) _
  · rw [thrToVel, thrConvert_eq_value (.inr ⟨h0, toNat_ne_zero h1, hlo, hhi, Nat.le_of_lt_succ hw⟩)]
    rfl
  · exact withConversion_range h.1 (thrConvert_eq_range h0 (toNat_ne_zero h1) hle) _

/-- Settles O37: both conversions divide the same product by the same steps per mm. -/
theorem thresholdRoundTrip : Obligations.ThresholdRoundTrip := by
  intro s t u x y z g hx h0 hset hg hpos hget hz
  obtain ⟨f, q, y', hq, hy, harg⟩ := loaded_setHybridThrs hset hx
  obtain ⟨rfl, rfl⟩ := hg.unique hy
  obtain ⟨-, -, hle⟩ := thrConvert_value_of_ne_zero hq (toNat_ne_zero h0)
  rw [setField_tpwmthrs f hle] at hpos
  rw [exec_getTpwmthrs hg, setField_tpwmthrs f hle, harg] at hget
  obtain ⟨w, hw, hget⟩ := withConversion_next hget
  obtain rfl := Host.Outcome.next.inj hget
  obtain rfl := hz.unique (withMe_issues hg.1 _)
  obtain ⟨-, -, hfit⟩ := thrConvert_value_of_ne_zero hw (Nat.ne_of_gt hpos)
  have hres : (BitVec.ofNat 32 w).toNat = w := Nat.mod_eq_of_lt (Nat.lt_succ_of_le hfit)
  calc x.arg0.toNat
    _ ≤ w := le_of_thrConvert_thrConvert hq (toNat_ne_zero h0) (Nat.ne_of_gt hpos) hw
    _ = (BitVec.ofNat 32 w).toNat := hres.symm

end

end Sys2Proof.Machine
end

section
/-! SUPPORT. The chopper (44_chopper.md R200 to R207): the fields SET_COT_CHOPPER writes into CHOPCONF, and its outcome. -/

namespace Sys2Proof.Machine

/-! ## The clamped and quantised operands -/

/-- R201: the bucket fits in tbl. -/
theorem blankBucket_lt (blank : Nat) : blankBucket blank < 4 := by
  rw [blankBucket]
  split_ifs <;> decide

section
variable {blank : Nat}

theorem blankBucket_eq_three (h : 54 ≤ blank) : blankBucket blank = 3 := if_pos h

theorem blankBucket_eq_two (h : 36 ≤ blank) (h' : blank ≤ 53) : blankBucket blank = 2 := by
  rw [blankBucket, if_neg (by omega), if_pos h]

theorem blankBucket_eq_one (h : 24 ≤ blank) (h' : blank ≤ 35) : blankBucket blank = 1 := by
  rw [blankBucket, if_neg (by omega), if_neg (by omega), if_pos h]

theorem blankBucket_eq_zero (h : blank ≤ 23) : blankBucket blank = 0 := by
  rw [blankBucket, if_neg (by omega), if_neg (by omega), if_neg (by omega)]

end

/-- R203: the clamped off time fits in toff. -/
theorem clampOffTime_lt (off : Nat) : clampOffTime off < 16 := by
  rw [clampOffTime]
  omega

/-- R202: the upper part of the clamped fast-decay time fits in fd3. -/
theorem clampFastDecay_div_lt (fd : Nat) : clampFastDecay fd / 8 < 2 := by
  rw [clampFastDecay]
  omega

/-- R204: the bias makes the clamped offset a natural number. -/
theorem storedSineOffset_eq (sw : Int) : (storedSineOffset sw : Int) = min (max sw (-3)) 12 + 3 := by
  rw [storedSineOffset, clamp]
  omega

/-- R204: the biased offset fits in hend. -/
theorem storedSineOffset_lt (sw : Int) : storedSineOffset sw < 16 := by
  have := storedSineOffset_eq sw
  omega

/-! ## The word stored -/

/-- R200 to R206: each field written reads as the value of its own write, the fields being disjoint and the values fitting. -/
theorem chopperWord_written (v : Word) (off blank fd : Nat) (sw : Int) (cc : Nat) :
    let w := chopperWord v off blank fd sw cc
    getField chopChm w = 1 ∧ getField chopTbl w = blankBucket blank ∧ getField chopToff w = clampOffTime off ∧
      getField chopFd3 w = clampFastDecay fd / 8 ∧ getField chopHstrt w = clampFastDecay fd % 8 ∧
      getField chopHend w = storedSineOffset sw ∧ getField chopRndtf w = 1 - cc := by
  simp (disch := decide) only [chopperWord, getField_putField_disjoint, getField_putField_self]
  exact ⟨rfl, Nat.mod_eq_of_lt (blankBucket_lt blank), Nat.mod_eq_of_lt (clampOffTime_lt off),
    Nat.mod_eq_of_lt (clampFastDecay_div_lt fd), Nat.mod_mod .., Nat.mod_eq_of_lt (storedSineOffset_lt sw),
    Nat.mod_eq_of_lt (Nat.lt_succ_of_le (Nat.sub_le 1 cc))⟩

/-- CHOPCONF as SET_COT_CHOPPER leaves it, from the operands of the instance's argument words. -/
def Instance.chopperWord (x : Instance) (v : Word) : Word :=
  Machine.chopperWord v (argOffTime x.arg0) (argBlankTime x.arg0) (argFastDecay x.arg0) (argSineOffset x.arg0)
    (argComparator x.arg1)

/-! ## SET_COT_CHOPPER -/

/-- R200: the register file stored, then CHOPCONF sent. -/
theorem exec_setCotChopper {s : State} {x : Instance} {f : RegFile} (h : Ready s x f) :
    let g := f.setValue slotChopconf (x.chopperWord (f.value slotChopconf))
    exec .setCotChopper s = .next (((s.setFile g).sendSlot g slotChopconf).complete 0) := by
  rw [exec, execSetCotChopper, withFileIo_of h, h.1.1.me_eq]
  rfl

/-- Settles O38: the one transaction is that of the send, the fields are those of the word stored. -/
theorem setCotChopperCompletes : Obligations.SetCotChopperCompletes := by
  intro s x f h
  let v := x.chopperWord (f.value slotChopconf)
  obtain ⟨st, c, -, hreach⟩ := storeSend_reached h.1.1 (f.setValue slotChopconf v) slotChopconf
  rw [RegFile.addr_setValue, RegFile.value_setValue_self] at hreach
  obtain ⟨hchm, htbl, htoff, hfd3, hhstrt, hhend, hrndtf⟩ := chopperWord_written (f.value slotChopconf)
    (argOffTime x.arg0) (argBlankTime x.arg0) (argFastDecay x.arg0) (argSineOffset x.arg0) (argComparator x.arg1)
  refine ⟨v, c, st, (exec_setCotChopper h).trans (congrArg Host.Outcome.next hreach), hchm, ?_, ?_, ?_, ?_, htoff, hfd3,
    hhstrt, ?_, hrndtf⟩
  · exact fun h54 => htbl.trans (blankBucket_eq_three h54)
  · exact fun h36 h53 => htbl.trans (blankBucket_eq_two h36 h53)
  · exact fun h24 h35 => htbl.trans (blankBucket_eq_one h24 h35)
  · exact fun h23 => htbl.trans (blankBucket_eq_zero h23)
  · exact (congrArg Nat.cast hhend).trans (storedSineOffset_eq _)

/-- Settles O39: only CHOPCONF's slot is replaced, by a word that differs in bits 0 to 11 and 13 to 16 at most. -/
theorem setCotChopperKeepsOtherFields : Obligations.SetCotChopperKeepsOtherFields := by
  intro s t x y f g hx h ht
  obtain ⟨off, blank, fd, sw, cc, rfl⟩ := file_of_setCotChopper hx h ht
  have hkept : ∀ b ∈ [chopDisfdcc, chopVsense, chopVhighfs, chopVhighchm, chopSync, chopMres, chopIntpol, chopDedge,
      chopDiss2g, chopReserved], (b.lo = 12 ∧ b.width = 1) ∨ (17 ≤ b.lo ∧ b.lo + b.width ≤ 32) := by decide
  refine ⟨sameBut_setValue .., fun b hb => ?_⟩
  rw [RegFile.field, RegFile.value_setValue_self, getField_chopperWord _ _ _ _ _ _ (hkept b hb), RegFile.field]

end Sys2Proof.Machine
end

section
/-! SUPPORT. Register access (45_regaccess.md R220 to R248): the address lookup by slot, and the outcomes of the commands that
reach one register, one shadow slot or one scalar. -/

namespace Sys2Proof.Machine

/-! ## The address lookup -/

/-- R236: bit 31 and a slot number share no bit. -/
theorem foundBit_or_slot : ∀ i : Slot,
    (0x80000000 : Word) ||| BitVec.ofNat 32 i.val = 0x80000000 + BitVec.ofNat 32 i.val := by decide

section
variable {f : RegFile} {a : Byte}

/-- R236, R237: the scan stops at the first slot with the address. -/
theorem lookup_of_first {i : Slot} (hi : i.val ≤ 18) (ha : f.addr i = a)
    (hfirst : ∀ j : Slot, j.val < i.val → f.addr j ≠ a) : f.lookup a = 0x80000000 + BitVec.ofNat 32 i.val := by
  have hlen : i.val < (f.sh.toList.take (slotLostSteps.val + 1)).length := by
    rw [List.length_take, Vector.length_toList]
    exact Nat.lt_min.mpr ⟨Nat.lt_succ_of_le hi, i.isLt⟩
  have hscan := scanSlots_some a _ 0 i.val hlen (by simpa [RegFile.addr] using ha)
    fun j hj => by simpa [RegFile.addr] using hfirst ⟨j, hj.trans i.isLt⟩ hj
  rw [RegFile.lookup, hscan, Nat.zero_add, foundBit_or_slot]

/-- R236, R237: no slot after the sentinel is compared. -/
theorem lookup_eq_zero (h : ∀ i : Slot, i.val ≤ 18 → f.addr i ≠ a) : f.lookup a = 0 := by
  refine scanSlots_none a _ 0 fun d hd => ?_
  obtain ⟨i, hi, rfl⟩ := List.mem_take_iff_getElem.mp hd
  obtain ⟨hle, hlen⟩ := Nat.lt_min.mp hi
  exact h ⟨i, by simpa using hlen⟩ (Nat.le_of_lt_succ hle)

end

/-- R239: the addresses GET_REG_PTR can find, at their slots. -/
def foundAddrs : List Byte := regAddr.toList.take (slotLostSteps.val + 1)

theorem foundAddrs_eq : foundAddrs = [0x00#8, 0x01, 0x04, 0x10, 0x11, 0x12, 0x13, 0x14, 0x15, 0x33, 0x6A, 0x6B, 0x6C, 0x6D,
    0x6E, 0x6F, 0x70, 0x71, 0x73] := rfl

theorem foundAddrs_getElem (i : Slot) (h : i.val < foundAddrs.length) : foundAddrs[i.val] = regAddr[i] := by
  simp [foundAddrs]

/-- R235. -/
theorem exec_getRegPtr {s : State} {x : Instance} {f : RegFile} (h : Loaded s x f) (a : Byte) :
    exec (.getRegPtr a) s = .next (s.withMe (x.completed (f.lookup a))) := by
  rw [exec, execGetRegPtr, withFile_of h, complete_eq h.1]

/-- Settles O43, by the two results of the scan. -/
theorem getRegPtrScans : Obligations.GetRegPtrScans := by
  intro s x f a h
  rw [exec_getRegPtr h]
  refine ⟨fun i hi ha hfirst => ?_, fun hnone => ?_⟩
  · rw [lookup_of_first hi ha hfirst]
  · rw [lookup_eq_zero hnone]

/-- Settles O44: an address of the table is found at its place in it, since no earlier slot has it as its tag. -/
theorem getRegPtrTable : Obligations.GetRegPtrTable := by
  intro s x f a h htags
  rw [exec_getRegPtr h, ← foundAddrs_eq]
  have htag (i : Slot) (hi : i.val < foundAddrs.length) : f.addr i = foundAddrs[i.val] := by
    rw [htags, foundAddrs_getElem]
  cases hidx : foundAddrs.idxOf? a with
  | some i =>
    obtain ⟨hi, ha, hfirst⟩ := List.idxOf?_eq_some_iff.mp hidx
    have hle : i ≤ 18 := Nat.le_of_lt_succ hi
    rw [lookup_of_first (i := ⟨i, Nat.lt_of_le_of_lt hle (by decide)⟩) hle ((htag _ hi).trans ha) fun j hj => ?_]
    rw [htag j (hj.trans hi)]
    exact hfirst j.val hj
  | none =>
    have hmem : a ∉ foundAddrs := List.idxOf?_eq_none_iff.mp hidx
    rw [lookup_eq_zero fun i hi ha => hmem ?_]
    rw [← ha, htag i (Nat.lt_succ_of_le hi)]
    exact List.getElem_mem _

/-! ## Outcomes -/

section
variable {s : State} {x : Instance} {f : RegFile} {sel : BitVec 5} {i : Slot} {id : CfgId}

theorem withSlot_eq (h : Issues s x) (hs : sel.toNat = i.val) (k : Slot → Out) : s.withSlot sel k = k i := by
  rw [withSlot_of h (hs ▸ i.isLt)]
  exact congrArg k (Fin.ext hs)

/-- A command that stores the register file `g` and completes. -/
theorem storeComplete_eq (h : Issues s x) (g : RegFile) :
    (s.setFile g).complete 0 = s.withMe { x with file := some g, result := 0, cmdstat := 0x00 } := by
  rw [setFile_eq h, complete_eq (withMe_issues h _), withMe_withMe]
  rfl

/-- A command that completes after its transactions. -/
theorem complete_reached (h : Issues s x) (y : Instance) (evs : List BusEvent) (c : Chip) (r : Word) :
    ((s.withMe y).withTraffic evs c).complete r = (s.withMe (y.completed r)).withTraffic evs c := by
  rw [complete_eq (reached_issues h ..), withTraffic_withMe, withMe_withMe]

/-- R220, R221. -/
theorem exec_writeReg (h : Ready s x f) (hs : sel.toNat = i.val) :
    let st := s.writeStatus (f.addr i) (f.value i)
    exec (.writeReg sel) s = .next ((s.withMe { x with
        busstat := st, result := st.setWidth 32, cmdstat := 0x00 }).withTraffic
      [⟨s.cur, .W, f.addr i, f.value i, st⟩] (s.chip.after ⟨s.cur, .W, f.addr i, f.value i⟩)) := by
  rw [exec, execWriteReg, withSlot_eq h.1.1 hs, withFileIo_of h, sendSlot_eq h.1.1, complete_reached h.1.1]
  rfl

/-- R221, R222: the value read goes into the slot. -/
theorem exec_readReg_eq (h : Ready s x f) (hs : sel.toNat = i.val) :
    let v := s.readValue (f.addr i)
    let st := s.readStatus (f.addr i)
    exec (.readReg sel) s = .next ((s.withMe { x with
        file := some (f.setValue i v), busstat := st, result := st.setWidth 32, cmdstat := 0x00 }).withTraffic
      [⟨s.cur, .R, f.addr i, v, st⟩] (s.chip.after ⟨s.cur, .R, f.addr i, 0⟩)) := by
  obtain ⟨n, hn⟩ := i
  obtain rfl : sel.toNat = n := hs
  rw [exec_readReg h hn, fetchSlot_eq h.1.1, complete_reached h.1.1]
  rfl

/-- R226. -/
theorem exec_writeRegX (h : Ready s x f) (a : Byte) :
    let st := s.writeStatus a x.arg1
    exec (.writeRegX a) s = .next ((s.withMe { x with
        busstat := st, result := st.setWidth 32, cmdstat := 0x00 }).withTraffic
      [⟨s.cur, .W, a, x.arg1, st⟩] (s.chip.after ⟨s.cur, .W, a, x.arg1⟩)) := by
  rw [exec, execWriteRegX, withFileIo_of h, h.1.1.me_eq, afterWrite_eq h.1.1, complete_reached h.1.1]
  rfl

/-- R228. -/
theorem exec_readRegX (h : Ready s x f) (a : Byte) :
    exec (.readRegX a) s = .next ((s.withMe { x with
        busstat := s.readStatus a, result := s.readValue a, cmdstat := 0x00 }).withTraffic
      [⟨s.cur, .R, a, s.readValue a, s.readStatus a⟩] (s.chip.after ⟨s.cur, .R, a, 0⟩)) := by
  rw [exec, execReadRegX, withFileIo_of h, afterRead_eq h.1.1, complete_reached h.1.1]
  rfl

/-- R240. -/
theorem exec_shadowRead (h : Loaded s x f) (hs : sel.toNat = i.val) :
    exec (.shadowRead sel) s = .next (s.withMe (x.completed (f.value i))) := by
  rw [exec, execShadowRead, withSlot_eq h.1 hs, withFile_of h, complete_eq h.1]

/-- R242, R243. -/
theorem exec_shadowWrite (h : Loaded s x f) (hs : sel.toNat = i.val) : exec (.shadowWrite sel) s =
    if i = slotChopconf ∧ getField chopMres x.arg1 ≠ toMres f.cfg.microsteps.toNat then
      .next (s.withMe { x with cmdstat := 0x01 })
    else .next (s.withMe { x with file := some (f.setValue i x.arg1), result := 0, cmdstat := 0x00 }) := by
  rw [exec, execShadowWrite, withSlot_eq h.1 hs, withFile_of h, h.1.me_eq, rejectIllegal_eq h.1, storeComplete_eq h.1]

/-- R248: a scalar can hold the value. -/
theorem exec_configWrite_stored {c : Cfg} (h : Loaded s x f) (hs : cfgIdOfSel sel = some id)
    (hc : f.cfg.write id x.arg1 = some c) : exec (.configWrite sel) s =
      .next (s.withMe { x with file := some { f with cfg := c }, result := 0, cmdstat := 0x00 }) := by
  rw [exec, execConfigWrite, withCfgId_of h.1 hs, withFile_of h, h.1.me_eq, hc]
  exact congrArg Host.Outcome.next (storeComplete_eq h.1 _)

/-- R248: a scalar cannot hold the value, or may not be written. -/
theorem exec_configWrite_rejected (h : Loaded s x f) (hs : cfgIdOfSel sel = some id)
    (hc : f.cfg.write id x.arg1 = none) :
    exec (.configWrite sel) s = .next (s.withMe { x with cmdstat := 0x01 }) := by
  rw [exec, execConfigWrite, withCfgId_of h.1 hs, withFile_of h, h.1.me_eq, hc, rejectIllegal_eq h.1]

/-- R248: a scalar that can hold the values up to a bound. -/
theorem exec_configWrite_bounded {bound : Nat} {c : Cfg} (h : Loaded s x f) (hs : cfgIdOfSel sel = some id)
    (hc : f.cfg.write id x.arg1 = if x.arg1.toNat > bound then none else some c) :
    (x.arg1.toNat ≤ bound → exec (.configWrite sel) s =
      .next (s.withMe { x with file := some { f with cfg := c }, result := 0, cmdstat := 0x00 })) ∧
    (x.arg1.toNat > bound → exec (.configWrite sel) s = .next (s.withMe { x with cmdstat := 0x01 })) :=
  ⟨fun hv => exec_configWrite_stored h hs (hc.trans (if_neg (Nat.not_lt.mpr hv))),
    fun hv => exec_configWrite_rejected h hs (hc.trans (if_pos hv))⟩

end

/-! ## Transactions -/

/-- Settles O40. -/
theorem writeRegCompletes : Obligations.WriteRegCompletes := fun _ _ _ _ _ h hs => ⟨_, _, exec_writeReg h hs⟩

/-- Settles O41: only the selected slot is replaced, by the value read. -/
theorem readRegCompletes : Obligations.ReadRegCompletes := fun _ _ f _ i h hs =>
  ⟨_, _, _, _, exec_readReg_eq h hs, sameBut_setValue f i _, RegFile.value_setValue_self f i _⟩

/-- Settles O42: the one transaction of each command goes past the register file. -/
theorem regXCompletes : Obligations.RegXCompletes := fun _ _ _ a h =>
  ⟨⟨_, _, exec_writeRegX h a⟩, ⟨_, _, _, exec_readRegX h a⟩⟩

/-! ## Shadow and configuration -/

/-- Settles O45: the ids of R34 name the scalars in order. -/
theorem shadowAndConfigReadComplete : Obligations.ShadowAndConfigReadComplete := by
  intro s x f h
  exact ⟨fun _ _ => exec_shadowRead h, exec_configRead h (id := .fClk) rfl, exec_configRead h (id := .rSense) rfl,
    exec_configRead h (id := .coolstepEn) rfl, exec_configRead h (id := .current) rfl,
    exec_configRead h (id := .holdPct) rfl, exec_configRead h (id := .microsteps) rfl⟩

/-- R30: mres is `CHOPCONF[27:24]`. -/
theorem getField_chopMres (v : Word) : getField chopMres v = (v.extractLsb' 24 4).toNat :=
  (BitVec.extractLsb'_toNat 24 4 v).symm

/-- Settles O46, by the check of R243 on CHOPCONF, slot 12. -/
theorem shadowWriteOutcomes : Obligations.ShadowWriteOutcomes := by
  intro s x f sel i h hs
  rw [exec_shadowWrite h hs, getField_chopMres]
  refine ⟨fun hok => ⟨f.setValue i x.arg1, if_neg ?_, sameBut_setValue .., RegFile.value_setValue_self ..⟩,
    fun ⟨h12, hmres⟩ => if_pos ⟨Fin.ext h12, hmres⟩⟩
  rintro ⟨rfl, hmres⟩
  exact hok.elim (absurd rfl) hmres

/-- Settles O47: each scalar is stored in its own width after the check of its bound. -/
theorem configWriteOutcomes : Obligations.ConfigWriteOutcomes := by
  intro s x f h
  obtain ⟨hsense, hsense'⟩ := exec_configWrite_bounded h (sel := 1) (id := .rSense) rfl rfl
  obtain ⟨hcool, hcool'⟩ := exec_configWrite_bounded h (sel := 2) (id := .coolstepEn) rfl rfl
  obtain ⟨hcurrent, hcurrent'⟩ := exec_configWrite_bounded h (sel := 3) (id := .current) rfl rfl
  obtain ⟨hhold, hhold'⟩ := exec_configWrite_bounded h (sel := 4) (id := .holdPct) rfl rfl
  exact ⟨exec_configWrite_stored h (id := .fClk) rfl rfl, hsense, hsense', hcool, hcool', hcurrent, hcurrent', hhold,
    hhold', exec_configWrite_rejected h (id := .microsteps) rfl rfl⟩

end Sys2Proof.Machine
end

section
/-! SUPPORT. Faults (60_exceptions.md R262, R270, R271): which checks every command makes first, and, said once, what a fault
of a command comes from: `FaultRow` lists the rows of the fault table, `exec_faultRow` says that there are no others. -/

namespace Sys2Proof.Machine

section
variable {s : State} {x : Instance} {f : RegFile} {i : Instr} {r : Fault}

/-! ## The checks of a command, forwards -/

/-- R34, R87: every id up to 5 names a scalar. -/
theorem isSome_cfgIdOfSel : ∀ {sel : BitVec 5}, sel.toNat ≤ 5 → (cfgIdOfSel sel).isSome = true := by decide

theorem withFileIo_offline (h : Loaded s x f) (hio : s.ioInstalled = false) (k : RegFile → Out) :
    s.withFileIo k = .fault (.ioNotInstalled s.cur x.cmd) := by
  rw [State.withFileIo, withFile_of h, State.withIo, hio]
  exact raise_eq h.1 _

/-- R270: a command that is not exempt checks LOADED before all else but its selector. -/
theorem exec_eq_withFile (hx : Issues s x) (hwf : i.wellFormed = true) (he : isExempt i = false) :
    ∃ k, exec i s = s.withFile k := by
  cases i with
  | loadDefaults | ifInit | mstepsValid => cases he
  | hwInit | setCurrent | getCurrent | setMsteps | setHybridThrs | getTpwmthrs | setTpwmthrs | setCotChopper | writeRegX
  | readRegX | getRegPtr => exact ⟨_, rfl⟩
  | writeReg | readReg | shadowRead | shadowWrite => exact ⟨_, withSlot_of hx (of_decide_eq_true hwf) _⟩
  | configRead | configWrite =>
    obtain ⟨id, hid⟩ := Option.isSome_iff_exists.mp (isSome_cfgIdOfSel (of_decide_eq_true hwf))
    exact ⟨_, withCfgId_of hx hid _⟩

/-- R270: a command of `IO_CMDS` checks LOADED and then the transport before all else but its selector. -/
theorem exec_eq_withFileIo (hx : Issues s x) (hwf : i.wellFormed = true) (hi : isIoCmd i = true) :
    ∃ k, exec i s = s.withFileIo k := by
  cases i with
  | loadDefaults | ifInit | hwInit | getCurrent | mstepsValid | getTpwmthrs | getRegPtr | shadowRead | shadowWrite
  | configRead | configWrite => cases hi
  | setCurrent | setMsteps | setHybridThrs | setTpwmthrs | setCotChopper | writeRegX | readRegX => exact ⟨_, rfl⟩
  | writeReg | readReg => exact ⟨_, withSlot_of hx (of_decide_eq_true hwf) _⟩

end

/-- Settles O12: with the selector in range, the check of LOADED decides. -/
theorem notLoadedFault : Obligations.NotLoadedFault := by
  intro s x i hx hf hwf he
  obtain ⟨k, hk⟩ := exec_eq_withFile hx hwf he
  rw [hk]
  exact withFile_unloaded hx hf k

/-- Settles O13: with the selector in range and LOADED, the check of the transport decides. -/
theorem ioNotInstalledFault : Obligations.IoNotInstalledFault := by
  intro s x f i hl hio hwf hi
  obtain ⟨k, hk⟩ := exec_eq_withFileIo hl.1 hwf hi
  rw [hk]
  exact withFileIo_offline hl hio k

/-! ## The fault table -/

/-- R262: the fault `r` of the command `i`, issued by `x` in `s`, is of a row of the fault table. -/
inductive FaultRow (s : State) (x : Instance) (i : Instr) : Fault → Prop where
  /-- Code 1 (R270). -/
  | notLoaded (hi : isExempt i = false) (hx : x.file = none) : FaultRow s x i (.notLoaded s.cur x.cmd)
  /-- Code 2 (R270). -/
  | ioNotInstalled (hi : isIoCmd i = true) (hio : s.ioInstalled = false) : FaultRow s x i (.ioNotInstalled s.cur x.cmd)
  /-- Code 3 (R115). -/
  | ioReinstall (hi : i = .ifInit) (hio : s.ioInstalled = true) : FaultRow s x i (.ioReinstall s.cur x.cmd)
  /-- Code 4 (R144). -/
  | holdPctRange (hi : i = .setCurrent) (hp : (argHoldPercent x.arg0).toNat > 100) :
      FaultRow s x i (.holdPctRange s.cur x.cmd)
  /-- Code 5 of the two setters (R180). -/
  | setDivZero (hi : i = .setHybridThrs ∨ i = .setTpwmthrs) (h0 : x.arg0 ≠ 0) (h1 : x.arg1 = 0) :
      FaultRow s x i (.divZero s.cur x.cmd)
  /-- Code 5 of GET_TPWMTHRS (R184). -/
  | getDivZero {f : RegFile} (hi : i = .getTpwmthrs) (h1 : x.arg1 = 0) (hf : x.file = some f)
      (h0 : f.field slotTpwmthrs tpTpwmthrs ≠ 0) : FaultRow s x i (.divZero s.cur x.cmd)
  /-- Code 6 of the two setters (R180). -/
  | setRange {f : RegFile} (hi : i = .setHybridThrs ∨ i = .setTpwmthrs) (h0 : x.arg0 ≠ 0) (h1 : x.arg1 ≠ 0)
      (hf : x.file = some f)
      (hle : 2 ^ 20 * (256 * x.arg0.toNat * x.arg1.toNat) ≤ f.cfg.fClk.toNat * f.cfg.microsteps.toNat * 2 ^ 32) :
      FaultRow s x i (.range s.cur x.cmd)
  /-- Code 6 of GET_TPWMTHRS (R184). -/
  | getRange {f : RegFile} (hi : i = .getTpwmthrs) (h1 : x.arg1 ≠ 0) (hf : x.file = some f)
      (h0 : f.field slotTpwmthrs tpTpwmthrs ≠ 0)
      (hle : 2 ^ 32 * (256 * f.field slotTpwmthrs tpTpwmthrs * x.arg1.toNat) ≤
        f.cfg.fClk.toNat * f.cfg.microsteps.toNat * 2 ^ 32) :
      FaultRow s x i (.range s.cur x.cmd)

section
variable {lim F ms v st : Nat}

/-- R180, R184: the only conversions with a zero divisor. -/
theorem of_thrConvert_eq_divZero (h : thrConvert lim F ms v st = .divZero) : v ≠ 0 ∧ st = 0 := by
  obtain ⟨_, ht⟩ | ⟨-, hv, hst⟩ | ⟨hr, -⟩ := thrConvert_cases lim F ms v st
  · cases ht.symm.trans h
  · exact ⟨hv, hst⟩
  · cases hr.symm.trans h

/-- R180, R184: the only conversions whose quotient is too wide. -/
theorem of_thrConvert_eq_range (h : thrConvert lim F ms v st = .range) :
    v ≠ 0 ∧ st ≠ 0 ∧ (lim + 1) * (256 * v * st) ≤ F * ms * 2 ^ 32 := by
  obtain ⟨_, ht⟩ | ⟨hd, -⟩ | ⟨-, hrange⟩ := thrConvert_cases lim F ms v st
  · cases ht.symm.trans h
  · cases hd.symm.trans h
  · exact hrange

end

section
variable {s : State} {x : Instance} {i : Instr} {r : Fault}

theorem isIoCmd_not_exempt (h : isIoCmd i = true) : isExempt i = false := by
  cases i with
  | loadDefaults | ifInit | mstepsValid => cases h
  | _ => rfl

/-! ### The common checks and the command's own -/

theorem faultRow_of_withFile {k : RegFile → Out} (hi : isExempt i = false) (h : s.withFile k = .fault r)
    (hk : ∀ x f, Loaded s x f → k f = .fault r → FaultRow s x i r) : ∃ x, Issues s x ∧ FaultRow s x i r := by
  obtain ⟨x, hx, ⟨hf, rfl⟩ | ⟨f, hf, h⟩⟩ := withFile_fault h
  · exact ⟨x, hx, .notLoaded hi hf⟩
  · exact ⟨x, hx, hk x f ⟨hx, hf⟩ h⟩

theorem faultRow_of_withFileIo {k : RegFile → Out} (hi : isIoCmd i = true) (h : s.withFileIo k = .fault r)
    (hk : ∀ x f, Ready s x f → k f = .fault r → FaultRow s x i r) : ∃ x, Issues s x ∧ FaultRow s x i r := by
  obtain ⟨x, hx, ⟨hf, rfl⟩ | ⟨f, hf, ⟨hio, rfl⟩ | ⟨hio, h⟩⟩⟩ := withFileIo_fault h
  · exact ⟨x, hx, .notLoaded (isIoCmd_not_exempt hi) hf⟩
  · exact ⟨x, hx, .ioNotInstalled hi hio⟩
  · exact ⟨x, hx, hk x f ⟨⟨hx, hf⟩, hio⟩ h⟩

theorem faultRow_of_execIfInit (h : execIfInit s = .fault r) : ∃ x, Issues s x ∧ FaultRow s x .ifInit r := by
  obtain ⟨x, hx, h⟩ := withInst_fault h
  split at h
  · next hio =>
    cases (raise_eq hx _).symm.trans h
    exact ⟨x, hx, .ioReinstall rfl hio⟩
  · cases h

theorem faultRow_of_execSetCurrent (h : execSetCurrent s = .fault r) : ∃ x, Issues s x ∧ FaultRow s x .setCurrent r := by
  refine faultRow_of_withFileIo rfl h fun x f hr h => ?_
  have hx : Issues s x := hr.1.1
  simp only [hx.me_eq] at h
  split at h
  · next hp =>
    cases (raise_eq hx _).symm.trans h
    exact .holdPctRange rfl hp
  · cases h

theorem faultRow_of_setter (hi : i = .setHybridThrs ∨ i = .setTpwmthrs) (h : exec i s = .fault r) :
    ∃ x, Issues s x ∧ FaultRow s x i r := by
  rw [exec_setter s hi] at h
  refine faultRow_of_withFileIo (by obtain rfl | rfl := hi <;> rfl) h fun x f hr h => ?_
  have hx : Issues s x := hr.1.1
  simp only [hx.me_eq] at h
  obtain ⟨hc, rfl⟩ | ⟨hc, rfl⟩ | ⟨_, -, h⟩ := withConversion_fault hx h
  · obtain ⟨h0, h1⟩ := of_thrConvert_eq_divZero hc
    exact .setDivZero hi (BitVec.toNat_ne_iff_ne.mp h0) (BitVec.eq_of_toNat_eq h1)
  · obtain ⟨h0, h1, hle⟩ := of_thrConvert_eq_range hc
    exact .setRange hi (BitVec.toNat_ne_iff_ne.mp h0) (BitVec.toNat_ne_iff_ne.mp h1) hr.1.2 hle
  · cases h

theorem faultRow_of_execGetTpwmthrs (h : execGetTpwmthrs s = .fault r) :
    ∃ x, Issues s x ∧ FaultRow s x .getTpwmthrs r := by
  refine faultRow_of_withFile rfl h fun x f hl h => ?_
  simp only [hl.1.me_eq] at h
  obtain ⟨hc, rfl⟩ | ⟨hc, rfl⟩ | ⟨_, -, h⟩ := withConversion_fault hl.1 h
  · obtain ⟨h0, h1⟩ := of_thrConvert_eq_divZero hc
    exact .getDivZero rfl (BitVec.eq_of_toNat_eq h1) hl.2 h0
  · obtain ⟨h0, h1, hle⟩ := of_thrConvert_eq_range hc
    exact .getRange rfl (BitVec.toNat_ne_iff_ne.mp h1) hl.2 h0 hle
  · cases h

/-- R262: a command that faults does so by a row of the fault table. -/
theorem exec_faultRow (h : exec i s = .fault r) : ∃ x, Issues s x ∧ FaultRow s x i r := by
  cases i with
  | loadDefaults | mstepsValid =>
    obtain ⟨_, -, h⟩ := withInst_fault h
    cases h
  | ifInit => exact faultRow_of_execIfInit h
  | setCurrent => exact faultRow_of_execSetCurrent h
  | setHybridThrs => exact faultRow_of_setter (.inl rfl) h
  | setTpwmthrs => exact faultRow_of_setter (.inr rfl) h
  | getTpwmthrs => exact faultRow_of_execGetTpwmthrs h
  | hwInit | getCurrent | getRegPtr => exact faultRow_of_withFile rfl h fun _ _ _ h => by cases h
  | setMsteps | setCotChopper | writeRegX | readRegX => exact faultRow_of_withFileIo rfl h fun _ _ _ h => by cases h
  | writeReg | readReg =>
    obtain ⟨_, h⟩ := withSlot_fault h
    exact faultRow_of_withFileIo rfl h fun _ _ _ h => by cases h
  | shadowRead =>
    obtain ⟨_, h⟩ := withSlot_fault h
    exact faultRow_of_withFile rfl h fun _ _ _ h => by cases h
  | configRead =>
    obtain ⟨_, h⟩ := withCfgId_fault h
    exact faultRow_of_withFile rfl h fun _ _ _ h => by cases h
  | shadowWrite =>
    obtain ⟨_, h⟩ := withSlot_fault h
    refine faultRow_of_withFile rfl h fun _ _ _ h => ?_
    split at h <;> cases h
  | configWrite =>
    obtain ⟨_, h⟩ := withCfgId_fault h
    refine faultRow_of_withFile rfl h fun _ _ _ h => ?_
    split at h <;> cases h

end

/-- Settles O14: the rows of `FaultRow` are those of the table. -/
theorem faultsAreTheTable : Obligations.FaultsAreTheTable := by
  intro s i r h
  obtain ⟨x, hx, hrow⟩ := exec_faultRow h
  refine ⟨x, hx, ?_⟩
  cases hrow with
  | notLoaded hi hf => exact ⟨rfl, .inl ⟨rfl, hi, hf⟩⟩
  | ioNotInstalled hi hio => exact ⟨rfl, .inr (.inl ⟨rfl, hi, hio⟩)⟩
  | ioReinstall hi hio => exact ⟨rfl, .inr (.inr (.inl ⟨rfl, hi, hio⟩))⟩
  | holdPctRange hi hp => exact ⟨rfl, .inr (.inr (.inr (.inl ⟨rfl, hi, hp⟩)))⟩
  | setDivZero hi h0 h1 => exact ⟨rfl, .inr (.inr (.inr (.inr (.inl ⟨rfl, hi, h0, h1⟩))))⟩
  | getDivZero hi h1 hf h0 => exact ⟨rfl, .inr (.inr (.inr (.inr (.inr (.inl ⟨rfl, hi, h1, _, hf, h0⟩)))))⟩
  | setRange hi h0 h1 hf hle =>
    exact ⟨rfl, .inr (.inr (.inr (.inr (.inr (.inr (.inl ⟨rfl, hi, h0, h1, _, hf, hle⟩))))))⟩
  | getRange hi h1 hf h0 hle =>
    exact ⟨rfl, .inr (.inr (.inr (.inr (.inr (.inr (.inr ⟨rfl, hi, h1, _, hf, h0, hle⟩))))))⟩

end Sys2Proof.Machine
end

section
/-! SUPPORT. The state after reset (70_reset_and_hazards.md R300). -/

namespace Sys2Proof.Machine

theorem mem_resetWith_insts {n : Nat} {c : Chip} {x : Instance} (h : x ∈ (State.resetWith n c).insts) :
    x = Instance.reset := List.eq_of_mem_replicate h

theorem resetWith_insts_length (n : Nat) (c : Chip) : (State.resetWith n c).insts.length = n := List.length_replicate

theorem reset_instance_sound : Instance.reset.Sound := ⟨rfl, .inl rfl, fun _ hf => by cases hf⟩

theorem resetWith_sound {n : Nat} {c : Chip} (hn : 1 ≤ n) (hc : c.Sound) : (State.resetWith n c).Sound := by
  refine ⟨?_, fun x hx => mem_resetWith_insts hx ▸ reset_instance_sound, hc⟩
  rw [resetWith_insts_length]
  exact hn

/-- Settles O16: the block holds nothing but copies of `Instance.reset`. -/
theorem resetValues : Obligations.ResetValues := by
  refine ⟨fun n c => ⟨rfl, rfl, resetWith_insts_length n c, fun x hx => ?_⟩, Config.resetInstances, .free,
    by decide, rfl⟩
  obtain rfl := mem_resetWith_insts hx
  exact ⟨rfl, rfl, rfl, rfl, rfl, rfl, rfl, rfl, rfl, rfl⟩

/-- Settles O58, by the soundness of `Instance.reset`. -/
theorem resetIsSound : Obligations.ResetIsSound :=
  ⟨resetWith_sound (by decide) trivial, fun _ _ => resetWith_sound⟩

end Sys2Proof.Machine
end

section
/-! SUPPORT. The transactions of a command (70_reset_and_hazards.md R330): how many it makes, all the issuer's,
each answered by the agent behind the bus, with the last one's status in `BUSSTAT`. -/

namespace Sys2Proof.Machine

/-- `BUSSTAT` once the transactions `evs` are made, where it was `b` before (10_state.md R45). -/
def busstatAfter (b : Byte) (evs : List BusEvent) : Byte := (evs.getLast?.map BusEvent.st).getD b

/-- `t` follows from `s` by `n` transactions of the issuer, and by updates of it that keep `BUSSTAT`. -/
def Transacts (s : State) (n : Nat) (t : State) : Prop :=
  t.cur = s.cur ∧ ∃ (x y : Instance) (evs : List BusEvent), Issues s x ∧ Issues t y ∧ BusTrace s t evs ∧
    (∀ e ∈ evs, e.inst = s.cur) ∧ evs.length = n ∧ y.busstat = busstatAfter x.busstat evs

section
variable {s t : State} {x y : Instance} {f : RegFile} {i : Instr} {n : Nat}

theorem Transacts.refl (h : Issues s x) : Transacts s 0 s :=
  ⟨rfl, x, x, [], h, h, .refl s, fun _ he => absurd he List.not_mem_nil, rfl, rfl⟩

theorem Transacts.updMe (h : Transacts s n t) {g : Instance → Instance} (hg : ∀ y, (g y).busstat = y.busstat) :
    Transacts s n (t.updMe g) := by
  obtain ⟨hcur, x, y, evs, hx, hy, htr, hown, hlen, hb⟩ := h
  exact ⟨hcur, x, g y, evs, hx, updMe_eq hy g ▸ withMe_issues hy _, htr.updMe g, hown, hlen, (hg y).trans hb⟩

theorem Transacts.setFile (h : Transacts s n t) (f : RegFile) : Transacts s n (t.setFile f) := h.updMe fun _ => rfl

theorem Transacts.setSaved (h : Transacts s n t) (v : Word) : Transacts s n (t.setSaved v) := h.updMe fun _ => rfl

theorem Transacts.goto (h : Transacts s n t) (c : InitState) : Transacts s n (t.goto c) := h.updMe fun _ => rfl

theorem Transacts.complete (h : Transacts s n t) (r : Word) : Transacts s n (t.complete r) := h.updMe fun _ => rfl

/-- One transaction more, where `BusTrace` says that the agent behind the bus answers it. -/
theorem Transacts.afterBus (h : Transacts s n t) {kind : BusKind} {a : Byte} {data v : Word}
    (htr : ∀ evs, BusTrace s t evs → BusTrace s (t.afterBus kind a data v)
      (evs ++ [⟨t.cur, kind, a, v, (t.answer kind a data).status⟩])) :
    Transacts s (n + 1) (t.afterBus kind a data v) := by
  obtain ⟨hcur, x, y, evs, hx, hy, ht, hown, rfl, -⟩ := h
  refine ⟨hcur, x, _, _, hx, afterBus_eq hy .. ▸ reached_issues hy .., htr evs ht, fun e he => ?_,
    List.length_append, ?_⟩
  · obtain he | he := List.mem_append.mp he
    · exact hown e he
    · exact List.mem_singleton.mp he ▸ hcur
  · rw [busstatAfter, List.getLast?_concat]
    rfl

theorem Transacts.read (h : Transacts s n t) (a : Byte) : Transacts s (n + 1) (t.afterRead a) :=
  h.afterBus fun _ ht => ht.afterRead a

theorem Transacts.write (h : Transacts s n t) (a : Byte) (v : Word) : Transacts s (n + 1) (t.afterWrite a v) :=
  h.afterBus fun _ ht => ht.afterWrite a v

theorem Transacts.send (h : Transacts s n t) (f : RegFile) (j : Slot) : Transacts s (n + 1) (t.sendSlot f j) :=
  h.write ..

theorem Transacts.fetch (h : Transacts s n t) (f : RegFile) (j : Slot) : Transacts s (n + 1) (t.fetchSlot f j) :=
  (h.read _).setFile _

/-- A command that changes the register file, sends one slot of it and completes. -/
theorem Transacts.storeSend (h : Transacts s 0 s) (g : RegFile) (j : Slot) :
    Transacts s 1 (((s.setFile g).sendSlot g j).complete 0) :=
  ((h.setFile g).send g j).complete 0

theorem Transacts.sends (h : Transacts s n t) (f : RegFile) (l : List Slot) :
    Transacts s (n + l.length) (t.sendSlots f l) := by
  induction l generalizing t n with
  | nil => exact h
  | cons j l ih =>
    rw [List.length_cons, Nat.add_comm l.length, ← Nat.add_assoc]
    exact ih (h.send f j)

/-! ## HW_INIT -/

/-- R128: GSTAT read, seven registers and then two sent, CHOPCONF read back. -/
theorem Transacts.initPresent (h : Transacts s n t) (f : RegFile) : Transacts s (n + 11) (t.initPresent f) :=
  (((((((h.fetch f slotGstat).setFile _).sends _ initSlots).setFile _).sends _
    [slotChopconf, slotIholdIrun]).setSaved _).fetch _ slotChopconf |>.complete _).goto _

/-- R128, R330: HW_INIT makes 0, 1 or 12 transactions, by the path it takes. -/
theorem hwInitStraight_transacts (h : Loaded s x f) :
    ∃ n, transactionCount .hwInit n ∧ Transacts s n (hwInitStraight s f) := by
  have hs : Transacts s 0 s := .refl h.1
  by_cases hio : s.ioInstalled = true
  · by_cases ha : s.readValue (f.addr slotDrvStatus) = 0x00000000 ∨ s.readValue (f.addr slotDrvStatus) = 0xFFFFFFFF
    · rw [hwInitStraight_absent hio ha]
      exact ⟨1, .inr (.inl rfl), ((hs.fetch f slotDrvStatus).complete 0).goto .idle⟩
    · rw [hwInitStraight_present hio ha]
      exact ⟨12, .inr (.inr rfl), (hs.fetch f slotDrvStatus).initPresent _⟩
  · rw [hwInitStraight_offline (by simpa using hio)]
    exact ⟨0, .inl rfl, (hs.complete 0).goto .idle⟩

/-! ## Every command -/

/-- R330: `t` is what the command `i` may answer, by its transactions: as many as the table gives, or rejected. -/
def Counted (s : State) (i : Instr) (t : State) : Prop :=
  (∃ n, transactionCount i n ∧ Transacts s n t) ∨ ∃ x, Issues s x ∧ t = s.rejectIllegal

/-- The ten commands without a transaction: their frame. -/
theorem counted_of_silent (h : exec i s = .next t) (hn : transactionCount i 0) (hi : i ≠ .hwInit) :
    Counted s i t := by
  obtain ⟨⟨hhist, hchip, hdraws⟩, x, y, hx, hy, hb⟩ := silentCommandsFrame s t i h hn hi
  obtain ⟨⟨hcur, -⟩, -⟩ := commandsStayInTheirInstance s t i h
  exact .inl ⟨0, hn, hcur, x, y, [], hx, hy, ⟨trivial, by simp [hhist], hchip, hdraws⟩,
    fun _ he => absurd he List.not_mem_nil, rfl, hb⟩

/-- A command of `IO_CMDS`, from what it does once the checks have passed. -/
theorem counted_of_withFileIo {k : RegFile → Out} (hn : transactionCount i n) (h : s.withFileIo k = .next t)
    (hk : ∀ f, Transacts s 0 s → k f = .next t → Transacts s n t) : Counted s i t := by
  obtain ⟨x, f, ⟨⟨hx, -⟩, -⟩, h⟩ := withFileIo_next h
  exact .inl ⟨n, hn, hk f (.refl hx) h⟩

theorem counted_of_withSlot {sel : BitVec 5} {k : Slot → Out} (h : s.withSlot sel k = .next t)
    (hk : ∀ j, k j = .next t → Counted s i t) : Counted s i t := by
  obtain ⟨x, hx, rfl | ⟨hs, h⟩⟩ := withSlot_next h
  · exact .inr ⟨x, hx, rfl⟩
  · exact hk _ h

theorem exec_counted (h : exec i s = .next t) : Counted s i t := by
  cases i with
  | loadDefaults | ifInit | getCurrent | mstepsValid | getTpwmthrs | getRegPtr | shadowRead | shadowWrite | configRead
  | configWrite => exact counted_of_silent h rfl (by simp)
  | hwInit =>
    obtain ⟨x, f, hl, -⟩ := withFile_next h
    obtain rfl : hwInitStraight s f = t := Host.Outcome.next.inj ((exec_hwInit hl).symm.trans h)
    exact .inl (hwInitStraight_transacts hl)
  | setCurrent =>
    refine counted_of_withFileIo (n := 2) rfl h fun f hs h => ?_
    simp only at h
    split at h
    · cases h
    · cases h
      exact (((hs.setFile _).send _ slotChopconf).send _ slotIholdIrun).complete 0
  | setMsteps | setCotChopper =>
    refine counted_of_withFileIo (n := 1) rfl h fun f hs h => ?_
    cases h
    exact hs.storeSend _ _
  | setHybridThrs | setTpwmthrs =>
    refine counted_of_withFileIo (n := 1) rfl h fun f hs h => ?_
    obtain ⟨q, -, h⟩ := withConversion_next h
    cases h
    exact hs.storeSend _ _
  | writeReg sel =>
    refine counted_of_withSlot h fun j h => counted_of_withFileIo (n := 1) rfl h fun f hs h => ?_
    cases h
    exact (hs.send f j).complete _
  | readReg sel =>
    refine counted_of_withSlot h fun j h => counted_of_withFileIo (n := 1) rfl h fun f hs h => ?_
    cases h
    exact (hs.fetch f j).complete _
  | writeRegX a =>
    refine counted_of_withFileIo (n := 1) rfl h fun f hs h => ?_
    cases h
    exact (hs.write a _).complete _
  | readRegX a =>
    refine counted_of_withFileIo (n := 1) rfl h fun f hs h => ?_
    cases h
    exact (hs.read a).complete _

end

/-- Settles O51, command by command: the transactions of each are those of its updates, and a rejection has none. -/
theorem transactionCounts : Obligations.TransactionCounts := by
  intro s t i h
  obtain ⟨_, hn, -, x, y, evs, hx, hy, ⟨hans, hhist, hchip, hdraws⟩, hown, rfl, hb⟩ | ⟨x, hx, rfl⟩ :=
    exec_counted h
  · exact ⟨x, y, evs, hx, hy, hhist, hown, .inl hn, hb, hans, hchip, hdraws⟩
  · have hy : Issues s.rejectIllegal { x with cmdstat := 0x01 } := rejectIllegal_eq hx ▸ withMe_issues hx _
    exact ⟨x, _, [], hx, hy, (List.append_nil _).symm,
      fun _ he => absurd he List.not_mem_nil, .inr ⟨rfl, rfl⟩, rfl, trivial, rfl, rfl⟩

end Sys2Proof.Machine
end

section
/-! SUPPORT. What a HW_INIT that completes with 1 guarantees (70_reset_and_hazards.md R311), read off the paths of
the command. -/

namespace Sys2Proof.Machine

section
variable {s t : State} {x y : Instance} {f : RegFile}

/-- R121, R128: HW_INIT completes with 1 only where the transport is installed and DRV_STATUS reads as a chip's. -/
theorem exec_hwInit_present (h : Loaded s x f) (haddr : ∀ i : Slot, f.addr i = regAddr[i])
    (ht : exec .hwInit s = .next t) (hy : Issues t y) (hr : y.result = 1) :
    s.ioInstalled = true ∧ s.readValue 0x6F ≠ 0x00000000 ∧ s.readValue 0x6F ≠ 0xFFFFFFFF := by
  have hd : f.addr slotDrvStatus = 0x6F := haddr _
  obtain ⟨hoffline, habsent⟩ := hwInitEarlyExits s x f h
  rw [hd] at habsent
  have hio : s.ioInstalled = true := by
    by_contra hio
    cases ht.symm.trans (hoffline (by simpa using hio))
    rw [hy.unique (withMe_issues h.1 _)] at hr
    cases hr
  refine ⟨hio, not_or.mp fun ha => ?_⟩
  obtain ⟨c, hexit⟩ := habsent hio ha
  cases ht.symm.trans hexit
  rw [hy.unique (reached_issues h.1 _ _ c)] at hr
  cases hr

end

theorem eq_of_flag_eq_one {v w : Word} (h : (if v = w then 1 else 0 : Word) = 1) : v = w := by
  by_contra hne
  rw [if_neg hne] at h
  cases h

/-- R126: a vsense written over it leaves the mres of CHOPCONF. -/
theorem mres_of_vsense (v : Word) (n k : Nat) :
    getField chopMres (putField chopVsense (putField chopMres v (toMres n)) k) = toMres n := by
  rw [getField_putField_disjoint _ _ _ _ (by decide) (by decide), getField_putField_self _ _ _ (by decide)]
  exact Nat.mod_eq_of_lt (Nat.lt_of_le_of_lt (toMres_le n) (by decide))

/-- Settles O22: of the paths of HW_INIT only the third may complete with 1, and only when the value read back is the
one sent last, whose mres is that of the microstep count; the transactions are those of `hwInitChipPresent`. -/
theorem hwInitSuccess : Obligations.HwInitSuccess := by
  intro s t x y f w h hf ht hy hr
  obtain ⟨hio, h0, h1⟩ := exec_hwInit_present h hf.1 ht hy.1 hr
  obtain ⟨g, v, f', c, t1, t2, t3, t4, t5, t6, t7, t8, t9, t10, t11, t12, hstate, hsame, -, -, hihold, hchop⟩ :=
    hwInitChipPresent s x f ⟨h, hio⟩ hf.1 h0 h1
  obtain rfl := Host.Outcome.next.inj (hstate.symm.trans ht)
  obtain ⟨rfl, rfl⟩ := hy.unique ⟨reached_issues h.1 _ _ c, rfl⟩
  have hv := eq_of_flag_eq_one hr
  have hmres : w.MresAgrees := by
    refine mresAgrees_of_eq_toMres (sameBut_sound hsame hf) ?_
    rw [RegFile.field, hchop, hv, mres_of_vsense, hsame.cfg_eq]
  refine ⟨hchop.trans hv, hmres, [_, _, _, _, _, _, _, _, _], _, _, _,
    (withTraffic_history ..).trans (List.append_assoc s.history [_, _, _, _, _, _, _, _, _] [_, _, _]).symm, rfl, ?_⟩
  exact ⟨rfl, rfl, (hchop.trans hv).symm, rfl, rfl, hihold.symm, rfl, rfl, hchop.symm⟩

end Sys2Proof.Machine
end
